-- ==== Sys2Proof/Word.lean ====
section
/-! DEFINITION. The word types of the FXU and the two limits of a raw value (00_scope.md R8, 40_representation.md R102). -/

namespace Sys2Proof

/-- A 64-bit register pattern (10_state.md R20). -/
abbrev Word := BitVec 64

/-- A 32-bit word of the command port, and the width of the control registers (30_encoding.md R60, 10_state.md R25 to R27). -/
abbrev CmdWord := BitVec 32

/-- A byte of a serialised value or command word (20_memory.md R41). The FXU itself never sees one. -/
abbrev Byte := BitVec 8

/-- MinValue of 40_representation.md R102. -/
def minRaw : Int := -9223372036854775808

/-- MaxValue of 40_representation.md R102. -/
def maxRaw : Int := 9223372036854775807

end Sys2Proof
end

