-- ==== Sys2Proof/Syntax.lean ====
section
/-! DEFINITION. The commands of the FXU as a syntax: one constructor for each row of the opcode map (30_encoding.md
R68), with the fields of its format (R60 to R66). -/

namespace Sys2Proof

/-- A general register X0 to X15 by its number (10_state.md R20): every number 0..15 is legal, none is hardwired. -/
abbrev Reg := Fin 16

/-- A command. `rm` is the two-bit field RM of R60 and `kidx` the five-bit field KIDX; not every value of them is legal
(R63 to R65), and `Instr.wellFormed` says which are. A pseudo-instruction of R72 is a spelling of one of these. -/
inductive Instr where
  /-- LDR: load the 64-bit literal (R105). -/
  | ldr (rd : Reg) (literal : Word)
  /-- LDC: load a named constant (R104). -/
  | ldc (rd : Reg) (kidx : BitVec 5)
  /-- MOV: copy a register (R107). -/
  | mov (rd rs1 : Reg)
  /-- FROMI32: from a 32-bit integer (R106). -/
  | fromi32 (rd rs1 : Reg)
  /-- FROMF64: from binary64 (R108). -/
  | fromf64 (rd rs1 : Reg)
  /-- TOF64: to binary64 (R110). -/
  | tof64 (rd rs1 : Reg)
  /-- TOF32: to binary32 (R112). -/
  | tof32 (rd rs1 : Reg)
  /-- TOINT: to an integer, toward −∞ (R114). -/
  | toint (rd rs1 : Reg)
  /-- ADD: saturating addition (R131). -/
  | add (rd rs1 rs2 : Reg)
  /-- SUB: saturating subtraction (R133). -/
  | sub (rd rs1 rs2 : Reg)
  /-- MUL: saturating multiply (R136). -/
  | mul (rd rs1 rs2 : Reg)
  /-- MULW: wrapping multiply (R138). -/
  | mulw (rd rs1 rs2 : Reg)
  /-- DIV: divide (R140). -/
  | div (rd rs1 rs2 : Reg)
  /-- MOD: remainder of the raw integers (R142). -/
  | mod (rd rs1 rs2 : Reg)
  /-- NEG: saturating negation (R144). -/
  | neg (rd rs1 : Reg)
  /-- ABS: saturating absolute value (R146). -/
  | abs (rd rs1 : Reg)
  /-- SHL: left shift of the raw value (R148). -/
  | shl (rd rs1 rs2 : Reg)
  /-- SHR: arithmetic right shift of the raw value (R150). -/
  | shr (rd rs1 rs2 : Reg)
  /-- CMP: three-way compare (R152). -/
  | cmp (rd rs1 rs2 : Reg)
  /-- SEQ: set if equal (R153). -/
  | seq (rd rs1 rs2 : Reg)
  /-- SNE: set if not equal (R154). -/
  | sne (rd rs1 rs2 : Reg)
  /-- SLT: set if less than (R155). -/
  | slt (rd rs1 rs2 : Reg)
  /-- SLE: set if less than or equal (R156). -/
  | sle (rd rs1 rs2 : Reg)
  /-- SGT: set if greater than (R157). -/
  | sgt (rd rs1 rs2 : Reg)
  /-- SGE: set if greater than or equal (R158). -/
  | sge (rd rs1 rs2 : Reg)
  /-- HASH: hash code (R160). -/
  | hash (rd rs1 : Reg)
  /-- FLOOR: round toward −∞ (R181). -/
  | floor (rd rs1 : Reg)
  /-- CEIL: round toward +∞ (R183). -/
  | ceil (rd rs1 : Reg)
  /-- ROUND: round to the nearest integral value (R185). -/
  | round (rd rs1 : Reg) (rm : BitVec 2)
  /-- ROUNDD: round to a number of decimal places (R188). -/
  | roundd (rd rs1 rs2 : Reg) (rm : BitVec 2)
  /-- SQRT: square root (R201). -/
  | sqrt (rd rs1 : Reg)
  /-- LOG2: base-2 logarithm (R204). -/
  | log2 (rd rs1 : Reg)
  /-- LN: natural logarithm (R207). -/
  | ln (rd rs1 : Reg)
  /-- POW2: 2 to a power (R210). -/
  | pow2 (rd rs1 : Reg)
  /-- POW: power (R213). -/
  | pow (rd rs1 rs2 : Reg)
  /-- SIN: sine (R234). -/
  | sin (rd rs1 : Reg)
  /-- COS: cosine (R236). -/
  | cos (rd rs1 : Reg)
  /-- TAN: tangent (R238). -/
  | tan (rd rs1 : Reg)
  /-- ASIN: arcsine (R241). -/
  | asin (rd rs1 : Reg)
  /-- ACOS: arccosine (R243). -/
  | acos (rd rs1 : Reg)
  /-- ATAN: arctangent (R245). -/
  | atan (rd rs1 : Reg)
  /-- ATAN2: two-argument arctangent (R249). -/
  | atan2 (rd rs1 rs2 : Reg)
  deriving DecidableEq, Repr

/-- The destination register: every command has exactly one (20_memory.md R44). -/
def Instr.dest : Instr → Reg
  | .ldr rd _ => rd
  | .ldc rd _ => rd
  | .mov rd _ => rd
  | .fromi32 rd _ => rd
  | .fromf64 rd _ => rd
  | .tof64 rd _ => rd
  | .tof32 rd _ => rd
  | .toint rd _ => rd
  | .add rd _ _ => rd
  | .sub rd _ _ => rd
  | .mul rd _ _ => rd
  | .mulw rd _ _ => rd
  | .div rd _ _ => rd
  | .mod rd _ _ => rd
  | .neg rd _ => rd
  | .abs rd _ => rd
  | .shl rd _ _ => rd
  | .shr rd _ _ => rd
  | .cmp rd _ _ => rd
  | .seq rd _ _ => rd
  | .sne rd _ _ => rd
  | .slt rd _ _ => rd
  | .sle rd _ _ => rd
  | .sgt rd _ _ => rd
  | .sge rd _ _ => rd
  | .hash rd _ => rd
  | .floor rd _ => rd
  | .ceil rd _ => rd
  | .round rd _ _ => rd
  | .roundd rd _ _ _ => rd
  | .sqrt rd _ => rd
  | .log2 rd _ => rd
  | .ln rd _ => rd
  | .pow2 rd _ => rd
  | .pow rd _ _ => rd
  | .sin rd _ => rd
  | .cos rd _ => rd
  | .tan rd _ => rd
  | .asin rd _ => rd
  | .acos rd _ => rd
  | .atan rd _ => rd
  | .atan2 rd _ _ => rd

/-- The source registers that the command reads, in operand order. -/
def Instr.sources : Instr → List Reg
  | .ldr _ _ => []
  | .ldc _ _ => []
  | .mov _ rs1 => [rs1]
  | .fromi32 _ rs1 => [rs1]
  | .fromf64 _ rs1 => [rs1]
  | .tof64 _ rs1 => [rs1]
  | .tof32 _ rs1 => [rs1]
  | .toint _ rs1 => [rs1]
  | .add _ rs1 rs2 => [rs1, rs2]
  | .sub _ rs1 rs2 => [rs1, rs2]
  | .mul _ rs1 rs2 => [rs1, rs2]
  | .mulw _ rs1 rs2 => [rs1, rs2]
  | .div _ rs1 rs2 => [rs1, rs2]
  | .mod _ rs1 rs2 => [rs1, rs2]
  | .neg _ rs1 => [rs1]
  | .abs _ rs1 => [rs1]
  | .shl _ rs1 rs2 => [rs1, rs2]
  | .shr _ rs1 rs2 => [rs1, rs2]
  | .cmp _ rs1 rs2 => [rs1, rs2]
  | .seq _ rs1 rs2 => [rs1, rs2]
  | .sne _ rs1 rs2 => [rs1, rs2]
  | .slt _ rs1 rs2 => [rs1, rs2]
  | .sle _ rs1 rs2 => [rs1, rs2]
  | .sgt _ rs1 rs2 => [rs1, rs2]
  | .sge _ rs1 rs2 => [rs1, rs2]
  | .hash _ rs1 => [rs1]
  | .floor _ rs1 => [rs1]
  | .ceil _ rs1 => [rs1]
  | .round _ rs1 _ => [rs1]
  | .roundd _ rs1 rs2 _ => [rs1, rs2]
  | .sqrt _ rs1 => [rs1]
  | .log2 _ rs1 => [rs1]
  | .ln _ rs1 => [rs1]
  | .pow2 _ rs1 => [rs1]
  | .pow _ rs1 rs2 => [rs1, rs2]
  | .sin _ rs1 => [rs1]
  | .cos _ rs1 => [rs1]
  | .tan _ rs1 => [rs1]
  | .asin _ rs1 => [rs1]
  | .acos _ rs1 => [rs1]
  | .atan _ rs1 => [rs1]
  | .atan2 _ rs1 rs2 => [rs1, rs2]

end Sys2Proof
end

