-- ==== Sys2Proof/WellFormed.lean ====
section
/-! DEFINITION. Which commands are legal as syntax (30_encoding.md R63 to R65, R69 (b) and (c)). -/

namespace Sys2Proof

/-- KIDX selects one of the 17 named constants (30_encoding.md R65). -/
def kidxLegal (kidx : BitVec 5) : Bool := kidx.toNat ≤ 16

/-- RM is 0 (`even`) or 1 (`away`): bit 11 of the word, RM's upper bit, is reserved (30_encoding.md R63). -/
def rmLegal (rm : BitVec 2) : Bool := rm.toNat ≤ 1

/-- The legal commands. Every register number is legal, and a literal may hold any value (30_encoding.md R60, R66). -/
def Instr.wellFormed : Instr → Bool
  | .ldc _ kidx => kidxLegal kidx
  | .round _ _ rm => rmLegal rm
  | .roundd _ _ _ rm => rmLegal rm
  | .ldr _ _ | .mov _ _ | .fromi32 _ _ | .fromf64 _ _ | .tof64 _ _ | .tof32 _ _ | .toint _ _ => true
  | .add _ _ _ | .sub _ _ _ | .mul _ _ _ | .mulw _ _ _ | .div _ _ _ | .mod _ _ _ | .neg _ _ | .abs _ _ => true
  | .shl _ _ _ | .shr _ _ _ | .cmp _ _ _ | .seq _ _ _ | .sne _ _ _ | .slt _ _ _ | .sle _ _ _ => true
  | .sgt _ _ _ | .sge _ _ _ | .hash _ _ | .floor _ _ | .ceil _ _ => true
  | .sqrt _ _ | .log2 _ _ | .ln _ _ | .pow2 _ _ | .pow _ _ _ => true
  | .sin _ _ | .cos _ _ | .tan _ _ | .asin _ _ | .acos _ _ | .atan _ _ | .atan2 _ _ _ => true

end Sys2Proof
end

