-- ==== Sys2Proof/Decode.lean ====
section
/-! DEFINITION. The command encoding (30_encoding.md): fields, reserved masks, the decoder, and after it the encoder.
The decoder is total (R70); it rejects a word by naming which clause of R69 makes it illegal. -/

namespace Sys2Proof

/-! ## Fields of a command word (R60) -/

/-- OP, bits 31:24. -/
def opOf (w : CmdWord) : BitVec 8 := w.extractLsb' 24 8

/-- RD, bits 23:20. -/
def rdOf (w : CmdWord) : Reg := (w.extractLsb' 20 4).toFin

/-- RS1, bits 19:16. -/
def rs1Of (w : CmdWord) : Reg := (w.extractLsb' 16 4).toFin

/-- RS2, bits 15:12. -/
def rs2Of (w : CmdWord) : Reg := (w.extractLsb' 12 4).toFin

/-- RM, bits 11:10. -/
def rmOf (w : CmdWord) : BitVec 2 := w.extractLsb' 10 2

/-- KIDX, bits 4:0. -/
def kidxOf (w : CmdWord) : BitVec 5 := w.extractLsb' 0 5

/-! ## Decoding -/

/-- Why a sequence of words is no command. The first three are the clauses of R69. `truncated` is no property of a
word: an LDR whose literal words have not all arrived (R67). -/
inductive DecodeError where
  /-- R69 (a): OP is unassigned. -/
  | unassignedOpcode
  /-- R69 (b): a reserved bit of the format is 1. -/
  | reservedBits
  /-- R69 (c): KIDX is above 16. -/
  | constantIndex
  /-- fewer words than the command's length -/
  | truncated
  deriving DecidableEq, Repr

/-- What the first word of a command says: a whole command, or the start of an LDR, which waits for two literal words
(R67, R70). -/
inductive Head where
  | command (i : Instr)
  | literal (rd : Reg)
  deriving DecidableEq, Repr

/-- Format L, first word (R66), with RESERVED_MASK[L]. -/
def decodeL (w : CmdWord) : Except DecodeError Head :=
  if w &&& 0x000FFFFF#32 = 0#32 then .ok (.literal (rdOf w)) else .error .reservedBits

/-- Format K (R65). -/
def decodeK (w : CmdWord) (k : Reg → BitVec 5 → Instr) : Except DecodeError Head :=
  if w &&& 0x000FFFE0#32 = 0#32 then
    if kidxLegal (kidxOf w) then .ok (.command (k (rdOf w) (kidxOf w))) else .error .constantIndex
  else .error .reservedBits

/-- Format R2 (R62). -/
def decodeR2 (w : CmdWord) (k : Reg → Reg → Instr) : Except DecodeError Head :=
  if w &&& 0x0000FFFF#32 = 0#32 then .ok (.command (k (rdOf w) (rs1Of w))) else .error .reservedBits

/-- Format R3 (R61). -/
def decodeR3 (w : CmdWord) (k : Reg → Reg → Reg → Instr) : Except DecodeError Head :=
  if w &&& 0x00000FFF#32 = 0#32 then .ok (.command (k (rdOf w) (rs1Of w) (rs2Of w))) else .error .reservedBits

/-- Format R2M (R63): the mask holds bit 11, so RM is 0 or 1. -/
def decodeR2M (w : CmdWord) (k : Reg → Reg → BitVec 2 → Instr) : Except DecodeError Head :=
  if w &&& 0x0000FBFF#32 = 0#32 then .ok (.command (k (rdOf w) (rs1Of w) (rmOf w))) else .error .reservedBits

/-- Format R3M (R64). -/
def decodeR3M (w : CmdWord) (k : Reg → Reg → Reg → BitVec 2 → Instr) : Except DecodeError Head :=
  if w &&& 0x00000BFF#32 = 0#32 then .ok (.command (k (rdOf w) (rs1Of w) (rs2Of w) (rmOf w)))
  else .error .reservedBits

/-- The decode procedure of R70 on the first word of a command, with the opcode map of R68. -/
def decodeHead (w : CmdWord) : Except DecodeError Head :=
  match opOf w with
  | 0x01#8 => decodeL w
  | 0x02#8 => decodeK w .ldc
  | 0x03#8 => decodeR2 w .mov
  | 0x04#8 => decodeR2 w .fromi32
  | 0x05#8 => decodeR2 w .fromf64
  | 0x06#8 => decodeR2 w .tof64
  | 0x07#8 => decodeR2 w .tof32
  | 0x08#8 => decodeR2 w .toint
  | 0x10#8 => decodeR3 w .add
  | 0x11#8 => decodeR3 w .sub
  | 0x12#8 => decodeR3 w .mul
  | 0x13#8 => decodeR3 w .mulw
  | 0x14#8 => decodeR3 w .div
  | 0x15#8 => decodeR3 w .mod
  | 0x16#8 => decodeR2 w .neg
  | 0x17#8 => decodeR2 w .abs
  | 0x18#8 => decodeR3 w .shl
  | 0x19#8 => decodeR3 w .shr
  | 0x20#8 => decodeR3 w .cmp
  | 0x21#8 => decodeR3 w .seq
  | 0x22#8 => decodeR3 w .sne
  | 0x23#8 => decodeR3 w .slt
  | 0x24#8 => decodeR3 w .sle
  | 0x25#8 => decodeR3 w .sgt
  | 0x26#8 => decodeR3 w .sge
  | 0x27#8 => decodeR2 w .hash
  | 0x30#8 => decodeR2 w .floor
  | 0x31#8 => decodeR2 w .ceil
  | 0x32#8 => decodeR2M w .round
  | 0x33#8 => decodeR3M w .roundd
  | 0x40#8 => decodeR2 w .sqrt
  | 0x41#8 => decodeR2 w .log2
  | 0x42#8 => decodeR2 w .ln
  | 0x43#8 => decodeR2 w .pow2
  | 0x44#8 => decodeR3 w .pow
  | 0x48#8 => decodeR2 w .sin
  | 0x49#8 => decodeR2 w .cos
  | 0x4A#8 => decodeR2 w .tan
  | 0x4B#8 => decodeR2 w .asin
  | 0x4C#8 => decodeR2 w .acos
  | 0x4D#8 => decodeR2 w .atan
  | 0x4E#8 => decodeR3 w .atan2
  | _ => .error .unassignedOpcode

/-- Decode one command from the words that follow one another at the port; the rest of the words is returned. LDR's
literal is its third word above its second (R66). -/
def decode : List CmdWord → Except DecodeError (Instr × List CmdWord)
  | [] => .error .truncated
  | w0 :: rest =>
    match decodeHead w0 with
    | .error e => .error e
    | .ok (.command i) => .ok (i, rest)
    | .ok (.literal rd) =>
      match rest with
      | w1 :: w2 :: rest' => .ok (.ldr rd (w2 ++ w1), rest')
      | _ => .error .truncated

/-! ## Words as bytes (20_memory.md R41) -/

/-- A command word from its four stored bytes, the byte of bits 7:0 first. -/
def wordOfBytes (b0 b1 b2 b3 : Byte) : CmdWord := b3 ++ b2 ++ b1 ++ b0

/-- Decode one command from stored bytes. -/
def decodeBytes : List Byte → Except DecodeError (Instr × List Byte)
  | b0 :: b1 :: b2 :: b3 :: rest =>
    match decodeHead (wordOfBytes b0 b1 b2 b3) with
    | .error e => .error e
    | .ok (.command i) => .ok (i, rest)
    | .ok (.literal rd) =>
      match rest with
      | c0 :: c1 :: c2 :: c3 :: d0 :: d1 :: d2 :: d3 :: rest' =>
        .ok (.ldr rd (wordOfBytes d0 d1 d2 d3 ++ wordOfBytes c0 c1 c2 c3), rest')
      | _ => .error .truncated
  | _ => .error .truncated

/-- The twelve bytes of a command whose bits are `w`, bit 0 the least significant bit of the first word, all bits from
`nbits` on being 0. -/
def tableBytes (nbits w : Nat) : List Byte :=
  (List.range 12).map fun k => BitVec.ofNat 8 (w % 2 ^ nbits / 2 ^ (8 * k))

/-- The command the decoder reads from an opcode-table row's bits. -/
def decodeTableWord (nbits w : Nat) : Option Instr :=
  match decodeBytes (tableBytes nbits w) with
  | .ok (i, _) => some i
  | .error _ => none

/-! ## Encoding -/

/-- Format L, first word (R66). -/
def packL (op : BitVec 8) (rd : Reg) : CmdWord := op ++ BitVec.ofFin (w := 4) rd ++ 0#20

/-- Format K (R65). -/
def packK (op : BitVec 8) (rd : Reg) (kidx : BitVec 5) : CmdWord := op ++ BitVec.ofFin (w := 4) rd ++ 0#15 ++ kidx

/-- Format R2 (R62). -/
def packR2 (op : BitVec 8) (rd rs1 : Reg) : CmdWord :=
  op ++ BitVec.ofFin (w := 4) rd ++ BitVec.ofFin (w := 4) rs1 ++ 0#16

/-- Format R3 (R61). -/
def packR3 (op : BitVec 8) (rd rs1 rs2 : Reg) : CmdWord :=
  op ++ BitVec.ofFin (w := 4) rd ++ BitVec.ofFin (w := 4) rs1 ++ BitVec.ofFin (w := 4) rs2 ++ 0#12

/-- Format R2M (R63), RM in bits 11:10 (R60). -/
def packR2M (op : BitVec 8) (rd rs1 : Reg) (rm : BitVec 2) : CmdWord :=
  op ++ BitVec.ofFin (w := 4) rd ++ BitVec.ofFin (w := 4) rs1 ++ 0#4 ++ rm ++ 0#10

/-- Format R3M (R64), RM in bits 11:10 (R60). -/
def packR3M (op : BitVec 8) (rd rs1 rs2 : Reg) (rm : BitVec 2) : CmdWord :=
  op ++ BitVec.ofFin (w := 4) rd ++ BitVec.ofFin (w := 4) rs1 ++ BitVec.ofFin (w := 4) rs2 ++ rm ++ 0#10

/-- The first word of a command, with the opcode map of R68. -/
def encodeHead : Instr → CmdWord
  | .ldr rd _ => packL 0x01#8 rd
  | .ldc rd kidx => packK 0x02#8 rd kidx
  | .mov rd rs1 => packR2 0x03#8 rd rs1
  | .fromi32 rd rs1 => packR2 0x04#8 rd rs1
  | .fromf64 rd rs1 => packR2 0x05#8 rd rs1
  | .tof64 rd rs1 => packR2 0x06#8 rd rs1
  | .tof32 rd rs1 => packR2 0x07#8 rd rs1
  | .toint rd rs1 => packR2 0x08#8 rd rs1
  | .add rd rs1 rs2 => packR3 0x10#8 rd rs1 rs2
  | .sub rd rs1 rs2 => packR3 0x11#8 rd rs1 rs2
  | .mul rd rs1 rs2 => packR3 0x12#8 rd rs1 rs2
  | .mulw rd rs1 rs2 => packR3 0x13#8 rd rs1 rs2
  | .div rd rs1 rs2 => packR3 0x14#8 rd rs1 rs2
  | .mod rd rs1 rs2 => packR3 0x15#8 rd rs1 rs2
  | .neg rd rs1 => packR2 0x16#8 rd rs1
  | .abs rd rs1 => packR2 0x17#8 rd rs1
  | .shl rd rs1 rs2 => packR3 0x18#8 rd rs1 rs2
  | .shr rd rs1 rs2 => packR3 0x19#8 rd rs1 rs2
  | .cmp rd rs1 rs2 => packR3 0x20#8 rd rs1 rs2
  | .seq rd rs1 rs2 => packR3 0x21#8 rd rs1 rs2
  | .sne rd rs1 rs2 => packR3 0x22#8 rd rs1 rs2
  | .slt rd rs1 rs2 => packR3 0x23#8 rd rs1 rs2
  | .sle rd rs1 rs2 => packR3 0x24#8 rd rs1 rs2
  | .sgt rd rs1 rs2 => packR3 0x25#8 rd rs1 rs2
  | .sge rd rs1 rs2 => packR3 0x26#8 rd rs1 rs2
  | .hash rd rs1 => packR2 0x27#8 rd rs1
  | .floor rd rs1 => packR2 0x30#8 rd rs1
  | .ceil rd rs1 => packR2 0x31#8 rd rs1
  | .round rd rs1 rm => packR2M 0x32#8 rd rs1 rm
  | .roundd rd rs1 rs2 rm => packR3M 0x33#8 rd rs1 rs2 rm
  | .sqrt rd rs1 => packR2 0x40#8 rd rs1
  | .log2 rd rs1 => packR2 0x41#8 rd rs1
  | .ln rd rs1 => packR2 0x42#8 rd rs1
  | .pow2 rd rs1 => packR2 0x43#8 rd rs1
  | .pow rd rs1 rs2 => packR3 0x44#8 rd rs1 rs2
  | .sin rd rs1 => packR2 0x48#8 rd rs1
  | .cos rd rs1 => packR2 0x49#8 rd rs1
  | .tan rd rs1 => packR2 0x4A#8 rd rs1
  | .asin rd rs1 => packR2 0x4B#8 rd rs1
  | .acos rd rs1 => packR2 0x4C#8 rd rs1
  | .atan rd rs1 => packR2 0x4D#8 rd rs1
  | .atan2 rd rs1 rs2 => packR3 0x4E#8 rd rs1 rs2

/-- The words of a command in issue order: LDR has three, the low literal word before the high one (20_memory.md R42),
every other command one (R67). -/
def encode : Instr → List CmdWord
  | .ldr rd literal => [encodeHead (.ldr rd literal), literal.extractLsb' 0 32, literal.extractLsb' 32 32]
  | i => [encodeHead i]

/-- The four stored bytes of a command word (20_memory.md R41). -/
def bytesOfWord (w : CmdWord) : List Byte :=
  [w.extractLsb' 0 8, w.extractLsb' 8 8, w.extractLsb' 16 8, w.extractLsb' 24 8]

/-- The stored bytes of a command. -/
def encodeBytes (i : Instr) : List Byte := (encode i).flatMap bytesOfWord

/-- The eight stored bytes of a register pattern: byte k holds bits 8k+7 to 8k (20_memory.md R41). -/
def bytesOfPattern (v : Word) : List Byte := (List.range 8).map fun k => v.extractLsb' (8 * k) 8

end Sys2Proof
end

