-- ==== Sys2Proof/Config.lean ====
section
/-! DEFINITION. What one FXU fixes when it is built: the parameters of 00_scope.md R7 as plain data, the reference
configuration, and the open values of the spec as constants without a body. -/

namespace Sys2Proof

/-- The parameters of 00_scope.md R7 that a command or a control register reads. All the constants are raw values.
`W` and `NREG` are fixed by the types `Word` and `Reg`. A unit's configuration never changes (00_scope.md R6). -/
structure Config where
  /-- F, the fractional-bit count (R6). -/
  fracBits : Nat
  /-- CONST_PI. -/
  pi : Int
  /-- CONST_TWO_PI. -/
  twoPi : Int
  /-- CONST_PI_OVER_2. -/
  piOver2 : Int
  /-- CONST_PI_OVER_4. -/
  piOver4 : Int
  /-- CONST_PI_OVER_6. -/
  piOver6 : Int
  /-- CONST_LN2. -/
  ln2 : Int
  /-- LOG2MAX, the saturation threshold of POW2 (43_elementary.md R211). -/
  log2Max : Int
  /-- MAX_DECIMALS, the largest decimal-place count of ROUNDD (42_rounding.md R188). -/
  maxDecimals : Nat
  deriving DecidableEq, Repr

/-- The reference configuration: F = 10 and the defaults of 00_scope.md R7. MAX_DECIMALS is open there, and 9 is the
value of 95_test_vectors.md (log entry 4, DESIGN CHOICE). -/
def Config.reference : Config where
  fracBits := 10
  pi := 3217
  twoPi := 6434
  piOver2 := 1608
  piOver4 := 804
  piOver6 := 536
  ln2 := 710
  log2Max := 54272
  maxDecimals := 9

/-- The free part of SIN_POLY (44_trigonometric.md R234, 93 U15): no body, so nothing is known of it. The constraints
(i) to (iii) of R234 are put round it where it is used (log entry 5). -/
opaque Config.sinKernel : Config → Word → Word

/-- TAN_CF (44_trigonometric.md R238, 93 U16): a total function from raw values to raw values, and nothing more
(log entry 6). -/
opaque Config.tanKernel : Config → Word → Word

/-- ASIN_PADE (44_trigonometric.md R241, 93 U17): uninterpreted (log entry 7). -/
opaque Config.asinKernel : Config → Word → Word

/-- The angles, beside 0, of the sample domain of the identity sin² + cos² ≈ 1 (44_trigonometric.md R234 (iv), R250): the
spec names none (log entry 8). -/
opaque Config.sampleAngles : Config → List Word

/-- The free part of TRIG_K (44_trigonometric.md R250, 93 U18): by how much the tolerance exceeds the kernel's worst error
on the sample domain (log entry 8). -/
opaque Config.trigSlack : Config → Nat

/-- The unspecified register contents after a `Reset()` during a run (70_reset_and_hazards.md R301, 93 U1): a fresh free value for
each index (log entry 2). -/
opaque Config.freeWord : Nat → Word

end Sys2Proof
end

