-- ==== Sys2Proof/Machine/State.lean ====
section
/-! DEFINITION. The state of one FXU as plain data (10_state.md), what the host has asked of it and been answered, the
reasons for which a step stops, and the state after reset (70_reset_and_hazards.md R300, R301). -/

namespace Sys2Proof.Machine

/-- The run state (10_state.md R28). -/
inductive RunState where
  | run
  | faulted
  deriving DecidableEq, Repr

/-- The cause of a fault (60_exceptions.md R271), without NONE: `Cause.code` gives the number. -/
inductive Cause where
  | illegalCmd
  | divByZero
  | sqrtNeg
  | logNonpos
  | trigDomain
  | decRange
  | convRange
  deriving DecidableEq, Repr

/-- A host operation (10_state.md R30). Anything else is no host operation (93 U8). -/
inductive HostOp where
  /-- `Issue(w)` -/
  | issue (w : CmdWord)
  /-- `ReadX(i)` -/
  | readX (i : Reg)
  /-- `ReadCtl(a)` -/
  | readCtl (address : Nat)
  /-- `Reset()` -/
  | reset
  deriving DecidableEq, Repr

/-- What a read answers the host (10_state.md R30). -/
inductive Reply where
  | register (value : Word)
  | control (value : CmdWord)
  deriving DecidableEq, Repr

/-- Reasons for which the machine stops for good: none. A domain error or an illegal word is no such stop, it is a next
state in FAULTED (60_exceptions.md R273), from which `Reset()` leads on. Nobody raises a `Fault` (log entry 20, safe). -/
inductive Fault where
  deriving DecidableEq, Repr

/-- Reasons for which the model gives no next state. -/
inductive Refusal where
  /-- Raised by an arm of `exec` whose instruction has no meaning yet. Safe: the run stops. -/
  | notModelled (mnemonic : String)
  /-- Raised by `step` alone, in a state whose configuration is not legal: a unit outside the spec, which 93 U11 to U14
  say to refuse (log entry 9). Safe: the run stops. -/
  | illegalConfiguration
  deriving DecidableEq, Repr

/-- The state of the FXU (10_state.md section 7), and the model's own fields after it. -/
structure State where
  /-- X0 to X15 (R20). -/
  x : Vector Word 16
  /-- The run state (R28). -/
  runState : RunState
  /-- STATUS (R25). -/
  status : CmdWord
  /-- FAULTCMD (R26). -/
  faultCmd : CmdWord
  /-- LIT_PENDING, the number of literal words still awaited (R23). -/
  litPending : Fin 3
  /-- The destination held for a pending LDR (R23). -/
  heldRd : Reg
  /-- The low literal word held for a pending LDR (R23). -/
  heldLow : CmdWord
  /-- The build-time parameters: the constant ROM (R29) and CONFIG (R27) are computed from them. -/
  cfg : Config
  /-- The number of words issued since the last reset (R22). No command reads it. -/
  wordsIssued : Nat
  /-- Model field: which registers a command has written since the last reset (R31, log entry 1). -/
  written : Vector Bool 16
  /-- Model field: the host operations not served yet, oldest first (R30, log entry 3). -/
  inbox : List HostOp
  /-- Model field: the answers to the host's reads, newest first (R30, log entry 14). -/
  replies : List Reply
  /-- Model field: the index of the next free value (log entry 2). -/
  freeNext : Nat
  deriving DecidableEq, Repr

/-- The state right after reset (R300, R301) of a unit in the reference configuration, with nothing asked of it yet.
The registers are unspecified there: 0 is the model's value (log entry 1, DESIGN CHOICE, unsafe). -/
def State.reset : State where
  x := Vector.replicate 16 0#64
  runState := .run
  status := 0#32
  faultCmd := 0#32
  litPending := 0
  heldRd := 0
  heldLow := 0#32
  cfg := Config.reference
  wordsIssued := 0
  written := Vector.replicate 16 false
  inbox := []
  replies := []
  freeNext := 0

end Sys2Proof.Machine
end

