-- ==== Sys2Proof/Machine/Flags.lean ====
section
/-! DEFINITION. The FXU has no flags and no condition codes (10_state.md R24). What stands where another machine keeps
flags is here: the STATUS register's fields (R25), the cause codes (60_exceptions.md R271), and the plain integers that
the compares write (41_arithmetic.md R152 to R158). -/

namespace Sys2Proof.Machine

/-- The cause code of R271. NONE, code 0, is the absence of a cause. -/
def Cause.code : Cause → BitVec 8
  | .illegalCmd => 1#8
  | .divByZero => 2#8
  | .sqrtNeg => 3#8
  | .logNonpos => 4#8
  | .trigDomain => 5#8
  | .decRange => 6#8
  | .convRange => 7#8

/-- STATUS with FAULT = 1 and the given CAUSE: bits 31:16 and 7:1 are reserved and 0 (10_state.md R25). -/
def faultStatus (c : Cause) : CmdWord := 0#16 ++ c.code ++ 0#7 ++ 1#1

/-- STATUS.FAULT, bit 0. -/
def statusFault (status : CmdWord) : BitVec 1 := status.extractLsb' 0 1

/-- STATUS.CAUSE, bits 15:8. -/
def statusCause (status : CmdWord) : BitVec 8 := status.extractLsb' 8 8

/-- The result of a test as a plain integer (R153 to R158). -/
def truth (b : Bool) : Int := if b then 1 else 0

/-- The three-way result of R152. -/
def threeWay (a b : Int) : Int := if b < a then 1 else if a < b then -1 else 0

end Sys2Proof.Machine
end

