-- ==== Sys2Proof/Machine/Prim.lean ====
section
/-! DEFINITION. The integer primitives of 00_scope.md R8 and R9, exact on mathematical integers. `v >>a n` is
`v / pow2 n`, Lean's division by a positive divisor being the floor; `trunc_rem` is Lean's `Int.tmod`. -/

namespace Sys2Proof.Machine

/-- 2^n. -/
def pow2 (n : Nat) : Int := 2 ^ n

/-- `sat64` of R9: clamp to [MinValue, MaxValue]. -/
def sat64 (v : Int) : Int := if maxRaw < v then maxRaw else if v < minRaw then minRaw else v

/-- `wrap64` of R9: the value in [−2^63, 2^63−1] that is v modulo 2^64. -/
def wrap64 (v : Int) : Int := v.bmod 18446744073709551616

/-- `v >>a n` of R9: floor(v / 2^n). -/
def asr (v : Int) (n : Nat) : Int := v / pow2 n

/-- `|v|` of R9. -/
def iabs (v : Int) : Int := if v < 0 then -v else v

/-- `rne_div(n, d)` of R9, for d > 0: the integer nearest to n/d, a tie going to the even one. -/
def rneDiv (n d : Int) : Int :=
  let q := n / d
  let r := n % d
  if 2 * r < d then q else if d < 2 * r then q + 1 else if q % 2 = 0 then q else q + 1

/-- One bit of the integer square root after another: with `k` bits to go, `r` is the root's part above them. -/
def isqrtBits (n : Nat) : Nat → Nat → Nat
  | 0, r => r
  | k + 1, r => isqrtBits n k (if (r + 2 ^ k) * (r + 2 ^ k) ≤ n then r + 2 ^ k else r)

/-- floor(sqrt(n)), exact: the root of an L-bit number has at most L/2 + 1 bits (43_elementary.md R201). -/
def isqrt (n : Nat) : Nat := isqrtBits n (n.log2 / 2 + 1) 0

end Sys2Proof.Machine
end

