-- ==== Sys2Proof/Machine/Rom.lean ====
section
/-! DEFINITION. The constant ROM and the CONFIG register (10_state.md R27, R29), computed from the configuration, and
which configurations the spec allows (00_scope.md R6, R7; 93 U11 to U14). -/

namespace Sys2Proof

open Sys2Proof.Machine

/-- One, raw 2^F (40_representation.md R101). -/
def Config.one (c : Config) : Int := pow2 c.fracBits

/-- Two, raw 2^(F+1). -/
def Config.two (c : Config) : Int := pow2 (c.fracBits + 1)

/-- Three, raw 3·2^F. -/
def Config.three (c : Config) : Int := 3 * pow2 c.fracBits

/-- Half, raw 2^(F−1). -/
def Config.half (c : Config) : Int := pow2 (c.fracBits - 1)

/-- Quarter, raw 2^(F−2). -/
def Config.quarter (c : Config) : Int := pow2 (c.fracBits - 2)

/-- Eighth, raw 2^(F−3). -/
def Config.eighth (c : Config) : Int := pow2 (c.fracBits - 3)

/-- Epsilon, raw 1 (R102). -/
def Config.epsilon (_ : Config) : Int := 1

/-- Precision, raw 1 (R102). -/
def Config.precision (_ : Config) : Int := 1

/-- KTABLE of 40_representation.md R104. KIDX above 16 selects nothing. -/
def Config.kTable (c : Config) (kidx : BitVec 5) : Option Int :=
  match kidx.toNat with
  | 0 => some 0
  | 1 => some c.one
  | 2 => some c.two
  | 3 => some c.three
  | 4 => some c.half
  | 5 => some c.quarter
  | 6 => some c.eighth
  | 7 => some c.epsilon
  | 8 => some c.precision
  | 9 => some maxRaw
  | 10 => some minRaw
  | 11 => some c.pi
  | 12 => some c.twoPi
  | 13 => some c.piOver2
  | 14 => some c.piOver4
  | 15 => some c.piOver6
  | 16 => some c.ln2
  | _ => none

/-- The table of powers of ten: the raw value of 10^d, for d up to MAX_DECIMALS (42_rounding.md R188). -/
def Config.pow10 (c : Config) (d : Nat) : Int := 10 ^ d * pow2 c.fracBits

/-- The CONFIG register (10_state.md R27): FRAC_BITS, MAX_DEC, ISA_VER = 1, and 0. -/
def Config.word (c : Config) : CmdWord := 0#8 ++ 1#8 ++ BitVec.ofNat 8 c.maxDecimals ++ BitVec.ofNat 8 c.fracBits

/-- The configurations the spec allows. The clauses, in order: F (R6); the two constraints of 40_representation.md
R103; the positive π constants and the order PI_2 < PI that 44_trigonometric.md R232, R233 and R236 use; constants
that are raw values; CONST_LN2 < 2^F, the premise of 43_elementary.md R210; LOG2MAX at most its default (93 U13);
MAX_DECIMALS (R7). Which of them the spec writes down and which are read from its arguments: log entry 9. -/
def Config.legal (c : Config) : Bool :=
  decide (3 ≤ c.fracBits ∧ c.fracBits ≤ 30
    ∧ c.twoPi = 2 * c.pi ∧ c.pi ≤ 2 * c.piOver2 + 1
    ∧ 0 < c.piOver2 ∧ c.piOver2 < c.pi
    ∧ c.twoPi ≤ maxRaw
    ∧ 0 ≤ c.piOver4 ∧ c.piOver4 ≤ maxRaw
    ∧ 0 ≤ c.piOver6 ∧ c.piOver6 ≤ maxRaw
    ∧ 0 ≤ c.ln2 ∧ c.ln2 < pow2 c.fracBits
    ∧ c.log2Max ≤ (63 - c.fracBits) * pow2 c.fracBits
    ∧ 10 ^ c.maxDecimals * pow2 c.fracBits ≤ maxRaw)

end Sys2Proof
end

