-- ==== Sys2Proof/Machine/Ops.lean ====
section
/-! DEFINITION. The named operations on the state: reading and writing a general register (00_scope.md R10), fault
entry (60_exceptions.md R273) and the only way out of it, reset (70_reset_and_hazards.md R300), how a command ends, and
the host's reads (10_state.md R30). -/

namespace Sys2Proof.Machine

/-! ## Registers -/

/-- `x[i]` (R10). Also what `ReadX(i)` answers (R30). -/
def State.readX (s : State) (r : Reg) : Word := s.x[r]

/-- `x[i] <- v` (R10); the model notes that Xi has been written. -/
def State.writeX (s : State) (r : Reg) (v : Word) : State :=
  { s with x := s.x.set r v, written := s.written.set r true }

/-- `x[i] <- v` for a raw value or a plain integer v. The rules keep v in [MinValue, MaxValue] (R10), where the 64-bit
pattern is exact. -/
def State.writeRaw (s : State) (r : Reg) (v : Int) : State := s.writeX r (BitVec.ofInt 64 v)

/-- Xi has been written since the last reset (10_state.md R31). -/
def State.hasWritten (s : State) (r : Reg) : Bool := s.written[r]

/-! ## Faults -/

/-- Fault entry (R273). `w0` is the first word of the faulting command. -/
def faultEntry (c : Cause) (w0 : CmdWord) (s : State) : State :=
  { s with status := faultStatus c, faultCmd := w0, litPending := 0, runState := .faulted }

/-- `raise DomainError(c)` (00_scope.md R10): the command ends, the unit is in FAULTED. -/
def raise (c : Cause) (w0 : CmdWord) (s : State) : Host.Outcome State Fault Refusal := .next (faultEntry c w0 s)

/-! ## How a command ends -/

/-- What the pseudocode of a command computes: the value for x[rd], or the cause it raises. -/
abbrev Result := Except Cause Int

/-- A command that cannot raise writes its result. -/
def finish (rd : Reg) (v : Int) (s : State) : Host.Outcome State Fault Refusal := .next (s.writeRaw rd v)

/-- A command that can raise: it writes its result, or takes fault entry with its own first word (log entry 10) and
writes nothing (R273). -/
def complete (i : Instr) (rd : Reg) (result : Result) (s : State) : Host.Outcome State Fault Refusal :=
  match result with
  | .ok v => finish rd v s
  | .error c => raise c (encodeHead i) s

/-! ## Reset and the control registers -/

/-- `Reset()` (70_reset_and_hazards.md R300), in any state. The registers become unspecified: fresh free values (log entry 2).
The held literal state is left as it is (log entry 11). The host's own lists are not the unit's. -/
def hostReset (s : State) : State :=
  { s with
    x := Vector.ofFn fun r : Fin 16 => Config.freeWord (s.freeNext + r.val)
    runState := .run
    status := 0#32
    faultCmd := 0#32
    litPending := 0
    wordsIssued := 0
    written := Vector.replicate 16 false
    freeNext := s.freeNext + 16 }

/-- The CONFIG register (10_state.md R27). -/
def State.configReg (s : State) : CmdWord := s.cfg.word

/-- What `ReadCtl(a)` answers (10_state.md R30): STATUS, FAULTCMD, CONFIG, or 0 at any other address. -/
def State.readCtl (s : State) (address : Nat) : CmdWord :=
  if address = 0x10 then s.status
  else if address = 0x11 then s.faultCmd
  else if address = 0x12 then s.configReg
  else 0#32

/-- The FAULT output (60_exceptions.md R280): a level equal to STATUS.FAULT. -/
def State.faultOutput (s : State) : Bool := statusFault s.status == 1#1

end Sys2Proof.Machine
end

