-- ==== Sys2Proof/Machine/Operands.lean ====
section
/-! DEFINITION. The operand forms of the FXU: how a command reads the pattern of a register (10_state.md R21), and the
fields of the command word that are operands. -/

namespace Sys2Proof.Machine

/-- A pattern as a raw value, or as a plain integer: the signed 64-bit integer (R21). -/
def rawOf (v : Word) : Int := v.toInt

/-- A pattern as an int32 in its low 32 bits; bits 63:32 are ignored (40_representation.md R106). -/
def int32Of (v : Word) : Int := (v.extractLsb' 0 32).toInt

/-- A pattern as a shift count: its bits 5:0 (41_arithmetic.md R148). -/
def shiftCountOf (v : Word) : Nat := (v.extractLsb' 0 6).toNat

/-- A finite binary64 value: `(-1)^negative · significand · 2^exponent`. -/
structure Binary64 where
  negative : Bool
  significand : Nat
  exponent : Int
  deriving DecidableEq, Repr

/-- `bin64` of 00_scope.md R11: the IEEE 754 binary64 value of a pattern, none for a NaN or an infinity (log entry 12). -/
def bin64 (v : Word) : Option Binary64 :=
  let e := (v.extractLsb' 52 11).toNat
  let f := (v.extractLsb' 0 52).toNat
  if e = 2047 then none
  else if e = 0 then some ⟨v.msb, f, -1074⟩
  else some ⟨v.msb, 2 ^ 52 + f, (e : Int) - 1075⟩

/-- The tie rules that RM selects (42_rounding.md R180). -/
inductive TieRule where
  /-- RM = 0 -/
  | even
  /-- RM = 1 -/
  | away
  deriving DecidableEq, Repr

/-- RM as a tie rule; 2 and 3 are illegal (R180). -/
def tieRuleOf (rm : BitVec 2) : Option TieRule :=
  match rm.toNat with
  | 0 => some .even
  | 1 => some .away
  | _ => none

/-- General register Xi as a raw value or a plain integer. -/
def State.raw (s : State) (r : Reg) : Int := rawOf (s.readX r)

end Sys2Proof.Machine
end

