-- ==== Sys2Proof/Machine/Representation.lean ====
section
/-! DEFINITION. The `fixed_point_unit` block: loads, copies and conversions (40_representation.md). -/

namespace Sys2Proof.Machine

/-! ## Conversions as functions -/

/-- FROMI32 (R106): i·2^F. -/
def fxFromI32 (c : Config) (i : Int) : Int := i * c.one

/-- The integer nearest to `significand · 2^exponent · 2^F`, a tie to even (R108). A shift by more than 64 places counts as
one by 64: to the right the 53-bit significand rounds to 0 either way, to the left the result is no raw value either
way. -/
def scaleBinary64 (c : Config) (d : Binary64) : Int :=
  let k := d.exponent + c.fracBits
  let n : Int :=
    if 0 ≤ k then d.significand * pow2 (min k.toNat 64) else rneDiv d.significand (pow2 (min (-k).toNat 64))
  if d.negative then -n else n

/-- FROMF64 (R108). -/
def fxFromF64 (c : Config) (v : Word) : Result :=
  match bin64 v with
  | none => .error .convRange
  | some d =>
    let n := scaleBinary64 c d
    if n < minRaw ∨ maxRaw < n then .error .convRange else .ok n

/-- `RNE64` and `RNE32` of 00_scope.md R11 applied to r / 2^F, as the pattern of the format with `eb` exponent bits and
`fb` stored significand bits. For r ≠ 0 the result is a normal number (R112), so one rounding to fb + 1 significant
bits, ties to even, gives it; a significand that rounds up to 2^(fb+1) moves to the next exponent. -/
def ieeePattern (eb fb : Nat) (c : Config) (r : Int) : Nat :=
  if r = 0 then 0
  else
    let m := r.natAbs
    let l := m.log2
    let q : Nat := if l ≤ fb then m * 2 ^ (fb - l) else (rneDiv m (pow2 (l - fb))).toNat
    let carry := q = 2 ^ (fb + 1)
    let q' := if carry then 2 ^ fb else q
    let e := (if carry then l + 1 else l) + (2 ^ (eb - 1) - 1) - c.fracBits
    (if r < 0 then 2 ^ (eb + fb) else 0) + e * 2 ^ fb + (q' - 2 ^ fb)

/-- TOF64 (R110): the binary64 pattern. -/
def fxToF64 (c : Config) (r : Int) : Word := BitVec.ofNat 64 (ieeePattern 11 52 c r)

/-- TOF32 (R112): the binary32 pattern, zero-extended. -/
def fxToF32 (c : Config) (r : Int) : Word := (BitVec.ofNat 32 (ieeePattern 8 23 c r)).setWidth 64

/-- TOINT (R114): r >>a F. -/
def fxToInt (c : Config) (r : Int) : Int := asr r c.fracBits

/-! ## Meanings -/

/-- LDR (R105): the 64-bit pattern as it arrived. -/
def execLdr (rd : Reg) (literal : Word) (s : State) : Host.Outcome State Fault Refusal :=
  .next (s.writeX rd literal)

/-- LDC (R104). An index above 16 is an illegal command (30_encoding.md R69 (c)). -/
def execLdc (rd : Reg) (kidx : BitVec 5) (s : State) : Host.Outcome State Fault Refusal :=
  complete (.ldc rd kidx) rd (match s.cfg.kTable kidx with | some v => .ok v | none => .error .illegalCmd) s

/-- MOV (R107). -/
def execMov (rd rs1 : Reg) (s : State) : Host.Outcome State Fault Refusal :=
  .next (s.writeX rd (s.readX rs1))

/-- FROMI32 (R106). -/
def execFromi32 (rd rs1 : Reg) (s : State) : Host.Outcome State Fault Refusal :=
  finish rd (fxFromI32 s.cfg (int32Of (s.readX rs1))) s

/-- FROMF64 (R108). -/
def execFromf64 (rd rs1 : Reg) (s : State) : Host.Outcome State Fault Refusal :=
  complete (.fromf64 rd rs1) rd (fxFromF64 s.cfg (s.readX rs1)) s

/-- TOF64 (R110). -/
def execTof64 (rd rs1 : Reg) (s : State) : Host.Outcome State Fault Refusal :=
  .next (s.writeX rd (fxToF64 s.cfg (s.raw rs1)))

/-- TOF32 (R112). -/
def execTof32 (rd rs1 : Reg) (s : State) : Host.Outcome State Fault Refusal :=
  .next (s.writeX rd (fxToF32 s.cfg (s.raw rs1)))

/-- TOINT (R114). -/
def execToint (rd rs1 : Reg) (s : State) : Host.Outcome State Fault Refusal :=
  finish rd (fxToInt s.cfg (s.raw rs1)) s

end Sys2Proof.Machine
end

