-- ==== Sys2Proof/Machine/Arithmetic.lean ====
section
/-! DEFINITION. The `saturating_add_sub` and `full_precision_multiply_divide_modulo` blocks, compare and hash
(41_arithmetic.md). -/

namespace Sys2Proof.Machine

/-! ## Operations as functions of raw values -/

/-- ADD (R131). -/
def fxAdd (a b : Int) : Int := sat64 (a + b)

/-- SUB (R133). -/
def fxSub (a b : Int) : Int := sat64 (a - b)

/-- RP, the rounded product (R135): a·b / 2^F to the nearest integer, a tie toward +∞. -/
def roundedProduct (c : Config) (a b : Int) : Int := (a * b + c.half) / c.one

/-- MUL (R136). -/
def fxMul (c : Config) (a b : Int) : Int := sat64 (roundedProduct c a b)

/-- MULW (R138). -/
def fxMulw (c : Config) (a b : Int) : Int := wrap64 (roundedProduct c a b)

/-- DIV (R140): the magnitudes' quotient rounded to nearest, ties to even, then signed and saturated. -/
def fxDiv (c : Config) (a b : Int) : Result :=
  if b = 0 then .error .divByZero
  else
    let q := rneDiv (iabs a * c.one) (iabs b)
    .ok (sat64 (if (a < 0) ≠ (b < 0) then -q else q))

/-- MOD (R142). -/
def fxMod (a b : Int) : Result := if b = 0 then .error .divByZero else .ok (a.tmod b)

/-- NEG (R144). -/
def fxNeg (a : Int) : Int := sat64 (-a)

/-- ABS (R146). -/
def fxAbs (a : Int) : Int := sat64 (iabs a)

/-- SHL (R148). -/
def fxShl (a : Int) (n : Nat) : Int := wrap64 (a * pow2 n)

/-- SHR (R150). -/
def fxShr (a : Int) (n : Nat) : Int := asr a n

/-- HASH (R160): the low half XOR the high half, sign-extended. -/
def fxHash (v : Word) : Word := (v.extractLsb' 0 32 ^^^ v.extractLsb' 32 32).signExtend 64

/-! ## Meanings -/

/-- ADD (R131). -/
def execAdd (rd rs1 rs2 : Reg) (s : State) : Host.Outcome State Fault Refusal :=
  finish rd (fxAdd (s.raw rs1) (s.raw rs2)) s

/-- SUB (R133). -/
def execSub (rd rs1 rs2 : Reg) (s : State) : Host.Outcome State Fault Refusal :=
  finish rd (fxSub (s.raw rs1) (s.raw rs2)) s

/-- MUL (R136). -/
def execMul (rd rs1 rs2 : Reg) (s : State) : Host.Outcome State Fault Refusal :=
  finish rd (fxMul s.cfg (s.raw rs1) (s.raw rs2)) s

/-- MULW (R138). -/
def execMulw (rd rs1 rs2 : Reg) (s : State) : Host.Outcome State Fault Refusal :=
  finish rd (fxMulw s.cfg (s.raw rs1) (s.raw rs2)) s

/-- DIV (R140). -/
def execDiv (rd rs1 rs2 : Reg) (s : State) : Host.Outcome State Fault Refusal :=
  complete (.div rd rs1 rs2) rd (fxDiv s.cfg (s.raw rs1) (s.raw rs2)) s

/-- MOD (R142). -/
def execMod (rd rs1 rs2 : Reg) (s : State) : Host.Outcome State Fault Refusal :=
  complete (.mod rd rs1 rs2) rd (fxMod (s.raw rs1) (s.raw rs2)) s

/-- NEG (R144). -/
def execNeg (rd rs1 : Reg) (s : State) : Host.Outcome State Fault Refusal :=
  finish rd (fxNeg (s.raw rs1)) s

/-- ABS (R146). -/
def execAbs (rd rs1 : Reg) (s : State) : Host.Outcome State Fault Refusal :=
  finish rd (fxAbs (s.raw rs1)) s

/-- SHL (R148). -/
def execShl (rd rs1 rs2 : Reg) (s : State) : Host.Outcome State Fault Refusal :=
  finish rd (fxShl (s.raw rs1) (shiftCountOf (s.readX rs2))) s

/-- SHR (R150). -/
def execShr (rd rs1 rs2 : Reg) (s : State) : Host.Outcome State Fault Refusal :=
  finish rd (fxShr (s.raw rs1) (shiftCountOf (s.readX rs2))) s

/-- CMP (R152). -/
def execCmp (rd rs1 rs2 : Reg) (s : State) : Host.Outcome State Fault Refusal :=
  finish rd (threeWay (s.raw rs1) (s.raw rs2)) s

/-- SEQ (R153). -/
def execSeq (rd rs1 rs2 : Reg) (s : State) : Host.Outcome State Fault Refusal :=
  finish rd (truth (s.raw rs1 = s.raw rs2)) s

/-- SNE (R154). -/
def execSne (rd rs1 rs2 : Reg) (s : State) : Host.Outcome State Fault Refusal :=
  finish rd (truth (s.raw rs1 ≠ s.raw rs2)) s

/-- SLT (R155). -/
def execSlt (rd rs1 rs2 : Reg) (s : State) : Host.Outcome State Fault Refusal :=
  finish rd (truth (s.raw rs1 < s.raw rs2)) s

/-- SLE (R156). -/
def execSle (rd rs1 rs2 : Reg) (s : State) : Host.Outcome State Fault Refusal :=
  finish rd (truth (s.raw rs1 ≤ s.raw rs2)) s

/-- SGT (R157). -/
def execSgt (rd rs1 rs2 : Reg) (s : State) : Host.Outcome State Fault Refusal :=
  finish rd (truth (s.raw rs2 < s.raw rs1)) s

/-- SGE (R158). -/
def execSge (rd rs1 rs2 : Reg) (s : State) : Host.Outcome State Fault Refusal :=
  finish rd (truth (s.raw rs2 ≤ s.raw rs1)) s

/-- HASH (R160). -/
def execHash (rd rs1 : Reg) (s : State) : Host.Outcome State Fault Refusal :=
  .next (s.writeX rd (fxHash (s.readX rs1)))

end Sys2Proof.Machine
end

