-- ==== Sys2Proof/Machine/Rounding.lean ====
section
/-! DEFINITION. The `rounding_modes` block (42_rounding.md). -/

namespace Sys2Proof.Machine

/-! ## Operations as functions of raw values -/

/-- a AND NOT FRAC, the integral part toward −∞: floor(a / 2^F) · 2^F (R181). -/
def integralPart (c : Config) (a : Int) : Int := a / c.one * c.one

/-- a AND FRAC, the fractional part in [0, 2^F). -/
def fractionalPart (c : Config) (a : Int) : Int := a % c.one

/-- FLOOR (R181). -/
def fxFloor (c : Config) (a : Int) : Int := integralPart c a

/-- CEIL (R183). -/
def fxCeil (c : Config) (a : Int) : Int :=
  if fractionalPart c a ≠ 0 then fxAdd (integralPart c a) c.one else a

/-- ROUND (R185). -/
def fxRound (c : Config) (rule : TieRule) (a : Int) : Int :=
  let fl := integralPart c a
  let fr := fractionalPart c a
  if fr < c.half then fl
  else if c.half < fr then fxAdd fl c.one
  else
    match rule with
    | .even => if asr fl c.fracBits % 2 = 0 then fl else fxAdd fl c.one
    | .away => if 0 < a then fxAdd fl c.one else fl

/-- ROUNDD (R188): scale by 10^d with MUL, round, divide back with DIV. -/
def fxRoundDecimals (c : Config) (rule : TieRule) (a d : Int) : Result :=
  if d < 0 ∨ (c.maxDecimals : Int) < d then .error .decRange
  else
    let p := c.pow10 d.toNat
    let y := fxMul c a p
    let z := fxRound c rule y
    fxDiv c z p

/-! ## Meanings -/

/-- FLOOR (R181). -/
def execFloor (rd rs1 : Reg) (s : State) : Host.Outcome State Fault Refusal :=
  finish rd (fxFloor s.cfg (s.raw rs1)) s

/-- CEIL (R183). -/
def execCeil (rd rs1 : Reg) (s : State) : Host.Outcome State Fault Refusal :=
  finish rd (fxCeil s.cfg (s.raw rs1)) s

/-- ROUND (R185). RM = 2 and RM = 3 are illegal commands (R180). -/
def execRound (rd rs1 : Reg) (rm : BitVec 2) (s : State) : Host.Outcome State Fault Refusal :=
  complete (.round rd rs1 rm) rd
    (match tieRuleOf rm with
      | some rule => .ok (fxRound s.cfg rule (s.raw rs1))
      | none => .error .illegalCmd) s

/-- ROUNDD (R188). RM = 2 and RM = 3 are illegal commands (R180), and that is checked first (60_exceptions.md R276). -/
def execRoundd (rd rs1 rs2 : Reg) (rm : BitVec 2) (s : State) : Host.Outcome State Fault Refusal :=
  complete (.roundd rd rs1 rs2 rm) rd
    (match tieRuleOf rm with
      | some rule => fxRoundDecimals s.cfg rule (s.raw rs1) (s.raw rs2)
      | none => .error .illegalCmd) s

end Sys2Proof.Machine
end

