-- ==== Sys2Proof/Machine/Elementary.lean ====
section
/-! DEFINITION. Square root, logarithm and exponential (43_elementary.md). A loop of a rule is a structural recursion on
the bound that the rule and 70_reset_and_hazards.md R309 give it (log entry 21). -/

namespace Sys2Proof.Machine

/-! ## Square root -/

/-- SQRT (R201): the integer nearest to √(a·2^F). -/
def fxSqrt (c : Config) (a : Int) : Result :=
  if a < 0 then .error .sqrtNeg
  else
    let n := (a * c.one).toNat
    let r := isqrt n
    .ok (if r < n - r * r then (r : Int) + 1 else r)

/-! ## Logarithms -/

/-- The left normalisation of R204: while z < One, double z and take One from y. -/
def log2Left (c : Config) : Nat → Int → Int → Int × Int
  | 0, z, y => (z, y)
  | n + 1, z, y => if z < c.one then log2Left c n (z * 2) (y - c.one) else (z, y)

/-- The right normalisation of R204: while z ≥ Two, halve z and add One to y. -/
def log2Right (c : Config) : Nat → Int → Int → Int × Int
  | 0, z, y => (z, y)
  | n + 1, z, y => if c.two ≤ z then log2Right c n (asr z 1) (y + c.one) else (z, y)

/-- The squarings of R204: `b` is the weight of the fraction bit under test. -/
def log2Bits (c : Config) : Nat → Int → Int → Int → Int
  | 0, _, y, _ => y
  | n + 1, z, y, b =>
    let z' := fxMulw c z z
    if c.two ≤ z' then log2Bits c n (asr z' 1) (y + b) (asr b 1) else log2Bits c n z' y (asr b 1)

/-- LOG2 (R204): at most F left shifts, at most 62 − F right shifts, exactly F squarings. -/
def fxLog2 (c : Config) (a : Int) : Result :=
  if a ≤ 0 then .error .logNonpos
  else
    let (z1, y1) := log2Left c c.fracBits a 0
    let (z2, y2) := log2Right c (62 - c.fracBits) z1 y1
    .ok (log2Bits c c.fracBits z2 y2 c.half)

/-- LN (R207). -/
def fxLn (c : Config) (a : Int) : Result := do
  let l ← fxLog2 c a
  return fxMul c l c.ln2

/-! ## Exponential and power -/

/-- The Taylor loop of R210 for 2^f, f the fractional part, from the term of index n on. -/
def pow2Series (c : Config) (f : Int) : Nat → (n : Nat) → (term result : Int) → Result
  | 0, _, _, result => .ok result
  | fuel + 1, n, term, result =>
    if term = 0 then .ok result
    else do
      let term' ← fxDiv c (fxMulw c (fxMulw c f term) c.ln2) (n * c.one)
      pow2Series c f fuel (n + 1) term' (fxAdd result term')

/-- POW2 (R210), with the saturation range of R211. The series has at most 2^F + 1 terms. -/
def fxPow2 (c : Config) (a : Int) : Result :=
  if a = 0 then .ok c.one
  else
    let neg := decide (a < 0)
    let m := if neg then fxNeg a else a
    if c.log2Max ≤ m then .ok (if neg then 0 else maxRaw)
    else do
      let ip := asr m c.fracBits
      let f := m % c.one
      let sum ← pow2Series c f (2 ^ c.fracBits + 1) 1 c.one c.one
      let result := wrap64 (sum * pow2 ip.toNat)
      if neg then fxDiv c c.one result else return result

/-- POW (R213): e = 0 first, then b = 0, then through the logarithm. -/
def fxPow (c : Config) (b e : Int) : Result :=
  if e = 0 then .ok c.one
  else if b = 0 then (if e < 0 then .error .divByZero else .ok 0)
  else do
    let l ← fxLog2 c b
    fxPow2 c (fxMul c e l)

/-! ## Meanings -/

/-- SQRT (R201). -/
def execSqrt (rd rs1 : Reg) (s : State) : Host.Outcome State Fault Refusal :=
  complete (.sqrt rd rs1) rd (fxSqrt s.cfg (s.raw rs1)) s

/-- LOG2 (R204). -/
def execLog2 (rd rs1 : Reg) (s : State) : Host.Outcome State Fault Refusal :=
  complete (.log2 rd rs1) rd (fxLog2 s.cfg (s.raw rs1)) s

/-- LN (R207). -/
def execLn (rd rs1 : Reg) (s : State) : Host.Outcome State Fault Refusal :=
  complete (.ln rd rs1) rd (fxLn s.cfg (s.raw rs1)) s

/-- POW2 (R210). -/
def execPow2 (rd rs1 : Reg) (s : State) : Host.Outcome State Fault Refusal :=
  complete (.pow2 rd rs1) rd (fxPow2 s.cfg (s.raw rs1)) s

/-- POW (R213). -/
def execPow (rd rs1 rs2 : Reg) (s : State) : Host.Outcome State Fault Refusal :=
  complete (.pow rd rs1 rs2) rd (fxPow s.cfg (s.raw rs1) (s.raw rs2)) s

end Sys2Proof.Machine
end

