-- ==== Sys2Proof/Machine/Trigonometric.lean ====
section
/-! DEFINITION. The trigonometric functions (44_trigonometric.md): the exact wrappers, round the open kernels of
R230. -/

namespace Sys2Proof.Machine

/-! ## Argument reduction and folding -/

/-- Reduce (R231), into [−PI, PI]. -/
def trigReduce (c : Config) (x : Int) : Int :=
  let r := x.tmod c.twoPi
  let r := if c.pi < r then r - c.twoPi else r
  if r < -c.pi then r + c.twoPi else r

/-- Fold (R232): a sign and a magnitude in [0, PI_2]. -/
def trigFold (c : Config) (x : Int) : Bool × Int :=
  let r := trigReduce c x
  let neg := decide (r < 0)
  let r := if neg then -r else r
  (neg, if c.piOver2 < r then c.pi - r else r)

/-! ## The open kernels -/

/-- SIN_POLY (R234): (i) 0 at 0, (ii) One at PI_2, (iii) at most One in magnitude, and otherwise free. Every function with
the properties (i) to (iii) is of this form (log entry 5). Property (iv) ties it to TRIG_K: `trigK` below. -/
def sinPoly (c : Config) (r : Int) : Int :=
  if r = 0 then 0
  else if r = c.piOver2 then c.one
  else
    let v := rawOf (Config.sinKernel c (BitVec.ofInt 64 r))
    if c.one < v then c.one else if v < -c.one then -c.one else v

/-- TAN_CF (R238): free. -/
def tanCf (c : Config) (r : Int) : Int := rawOf (Config.tanKernel c (BitVec.ofInt 64 r))

/-- ASIN_PADE (R241): free. -/
def asinPade (c : Config) (a : Int) : Int := rawOf (Config.asinKernel c (BitVec.ofInt 64 a))

/-! ## Sine, cosine, tangent -/

/-- SinCore (R234). -/
def sinCore (c : Config) (x : Int) : Int :=
  let (neg, r) := trigFold c x
  let v := sinPoly c r
  if neg then -v else v

/-- COS (R236): the phase shift on the raw values. -/
def fxCos (c : Config) (a : Int) : Int :=
  sinCore c (if 0 < a then a + c.piOver2 - c.twoPi else a + c.piOver2)

/-! ### Constraint (iv) on the sine kernel -/

/-- |Sin(x)² + Cos(x)² − One| at the angle x (R234 (iv), R250). DESIGN CHOICE: the spec does not say how the squares are
computed; here each is MUL's, with its rounding, and they are added exactly (log entry 8). -/
def identityError (c : Config) (x : Int) : Nat :=
  (fxMul c (sinCore c x) (sinCore c x) + fxMul c (fxCos c x) (fxCos c x) - c.one).natAbs

/-- The sample domain of (iv): open, but for the angle 0, where (i) and (ii) make the error 0 (log entry 8). -/
def trigSamples (c : Config) : List Word := 0#64 :: Config.sampleAngles c

/-- The largest error at the given angles. -/
def worstIdentityError (c : Config) : List Word → Nat
  | [] => 0
  | x :: xs => max (identityError c (rawOf x)) (worstIdentityError c xs)

/-- TRIG_K (R250). DESIGN CHOICE, its form: a natural number, the kernel's worst error on the sample domain and a free slack,
so that the kernel meets (iv) with it at every angle of the domain. Every kernel, sample domain and tolerance that
together meet (iv) are of this form (log entry 8). -/
def trigK (c : Config) : Nat := worstIdentityError c (trigSamples c) + Config.trigSlack c

/-- TAN (R238). -/
def fxTan (c : Config) (a : Int) : Int := tanCf c (trigReduce c a)

/-! ## Inverse functions -/

/-- The loop of ATAN_SERIES (R246) for the terms k, k+1, … as long as `fuel` lasts. -/
def atanTerms (c : Config) (w2 : Int) : Nat → (k : Nat) → (p sum : Int) → Result
  | 0, _, _, sum => .ok sum
  | fuel + 1, k, p, sum => do
    let p' := fxMulw c p w2
    let t ← fxDiv c p' ((2 * k + 1 : Nat) * c.one)
    if t = 0 then return sum
    else atanTerms c w2 fuel (k + 1) p' (if k % 2 = 1 then fxSub sum t else fxAdd sum t)

/-- ATAN_SERIES (R246): terms 0 to 13. -/
def atanSeries (c : Config) (w : Int) : Result := atanTerms c (fxMulw c w w) 13 1 w w

/-- ATAN (R245) for z > 0: the identity above Half, the series up to it. -/
def atanPositive (c : Config) (z : Int) : Result :=
  if c.half < z then do
    let w ← fxDiv c (fxSub c.one z) (fxAdd c.one z)
    let t ← atanSeries c w
    return fxSub c.piOver4 t
  else atanSeries c z

/-- ATAN (R245): odd symmetry for z < 0. -/
def fxAtan (c : Config) (z : Int) : Result :=
  if z = 0 then .ok 0
  else if z < 0 then do
    let t ← atanPositive c (fxNeg z)
    return fxNeg t
  else atanPositive c z

/-- ACOS (R243). -/
def fxAcos (c : Config) (a : Int) : Result :=
  if c.one < a ∨ a < -c.one then .error .trigDomain
  else if a = 0 then .ok c.piOver2
  else if a = c.one then .ok 0
  else if a = -c.one then .ok c.pi
  else do
    let s ← fxSqrt c (fxSub c.one (fxMul c a a))
    let t ← fxDiv c s a
    let r ← fxAtan c t
    return if a < 0 then fxAdd r c.pi else r

/-- ASIN (R241). -/
def fxAsin (c : Config) (a : Int) : Result :=
  if c.one < a ∨ a < -c.one then .error .trigDomain
  else if a = 0 then .ok 0
  else if a = c.half then .ok c.piOver6
  else if a = -c.half then .ok (-c.piOver6)
  else if a = c.one then .ok c.piOver2
  else if a = -c.one then .ok (-c.piOver2)
  else if iabs a < c.half then .ok (asinPade c a)
  else do
    let t ← fxAcos c (iabs a)
    let v := fxSub c.piOver2 t
    return if a < 0 then fxNeg v else v

/-- ATAN2 (R249). -/
def fxAtan2 (c : Config) (y x : Int) : Result :=
  if x = 0 then .ok (if 0 < y then c.piOver2 else if y < 0 then -c.piOver2 else 0)
  else do
    let q ← fxDiv c y x
    let r ← fxAtan c q
    return if x < 0 then (if 0 ≤ y then fxAdd r c.pi else fxSub r c.pi) else r

/-! ## Meanings -/

/-- SIN (R234). -/
def execSin (rd rs1 : Reg) (s : State) : Host.Outcome State Fault Refusal :=
  finish rd (sinCore s.cfg (s.raw rs1)) s

/-- COS (R236). -/
def execCos (rd rs1 : Reg) (s : State) : Host.Outcome State Fault Refusal :=
  finish rd (fxCos s.cfg (s.raw rs1)) s

/-- TAN (R238). -/
def execTan (rd rs1 : Reg) (s : State) : Host.Outcome State Fault Refusal :=
  finish rd (fxTan s.cfg (s.raw rs1)) s

/-- ASIN (R241). -/
def execAsin (rd rs1 : Reg) (s : State) : Host.Outcome State Fault Refusal :=
  complete (.asin rd rs1) rd (fxAsin s.cfg (s.raw rs1)) s

/-- ACOS (R243). -/
def execAcos (rd rs1 : Reg) (s : State) : Host.Outcome State Fault Refusal :=
  complete (.acos rd rs1) rd (fxAcos s.cfg (s.raw rs1)) s

/-- ATAN (R245). -/
def execAtan (rd rs1 : Reg) (s : State) : Host.Outcome State Fault Refusal :=
  complete (.atan rd rs1) rd (fxAtan s.cfg (s.raw rs1)) s

/-- ATAN2 (R249): rs1 is y, rs2 is x. -/
def execAtan2 (rd rs1 rs2 : Reg) (s : State) : Host.Outcome State Fault Refusal :=
  complete (.atan2 rd rs1 rs2) rd (fxAtan2 s.cfg (s.raw rs1) (s.raw rs2)) s

end Sys2Proof.Machine
end

