-- ==== Sys2Proof/Machine/Dispatch.lean ====
section
/-! DEFINITION. One arm for each command of the opcode map (30_encoding.md R68). -/

namespace Sys2Proof.Machine

def exec (i : Instr) (s : State) : Host.Outcome State Fault Refusal :=
  match i with
  | .ldr rd literal => Sys2Proof.Machine.execLdr rd literal s
  | .ldc rd kidx => Sys2Proof.Machine.execLdc rd kidx s
  | .mov rd rs1 => Sys2Proof.Machine.execMov rd rs1 s
  | .fromi32 rd rs1 => Sys2Proof.Machine.execFromi32 rd rs1 s
  | .fromf64 rd rs1 => Sys2Proof.Machine.execFromf64 rd rs1 s
  | .tof64 rd rs1 => Sys2Proof.Machine.execTof64 rd rs1 s
  | .tof32 rd rs1 => Sys2Proof.Machine.execTof32 rd rs1 s
  | .toint rd rs1 => Sys2Proof.Machine.execToint rd rs1 s
  | .add rd rs1 rs2 => Sys2Proof.Machine.execAdd rd rs1 rs2 s
  | .sub rd rs1 rs2 => Sys2Proof.Machine.execSub rd rs1 rs2 s
  | .mul rd rs1 rs2 => Sys2Proof.Machine.execMul rd rs1 rs2 s
  | .mulw rd rs1 rs2 => Sys2Proof.Machine.execMulw rd rs1 rs2 s
  | .div rd rs1 rs2 => Sys2Proof.Machine.execDiv rd rs1 rs2 s
  | .mod rd rs1 rs2 => Sys2Proof.Machine.execMod rd rs1 rs2 s
  | .neg rd rs1 => Sys2Proof.Machine.execNeg rd rs1 s
  | .abs rd rs1 => Sys2Proof.Machine.execAbs rd rs1 s
  | .shl rd rs1 rs2 => Sys2Proof.Machine.execShl rd rs1 rs2 s
  | .shr rd rs1 rs2 => Sys2Proof.Machine.execShr rd rs1 rs2 s
  | .cmp rd rs1 rs2 => Sys2Proof.Machine.execCmp rd rs1 rs2 s
  | .seq rd rs1 rs2 => Sys2Proof.Machine.execSeq rd rs1 rs2 s
  | .sne rd rs1 rs2 => Sys2Proof.Machine.execSne rd rs1 rs2 s
  | .slt rd rs1 rs2 => Sys2Proof.Machine.execSlt rd rs1 rs2 s
  | .sle rd rs1 rs2 => Sys2Proof.Machine.execSle rd rs1 rs2 s
  | .sgt rd rs1 rs2 => Sys2Proof.Machine.execSgt rd rs1 rs2 s
  | .sge rd rs1 rs2 => Sys2Proof.Machine.execSge rd rs1 rs2 s
  | .hash rd rs1 => Sys2Proof.Machine.execHash rd rs1 s
  | .floor rd rs1 => Sys2Proof.Machine.execFloor rd rs1 s
  | .ceil rd rs1 => Sys2Proof.Machine.execCeil rd rs1 s
  | .round rd rs1 rm => Sys2Proof.Machine.execRound rd rs1 rm s
  | .roundd rd rs1 rs2 rm => Sys2Proof.Machine.execRoundd rd rs1 rs2 rm s
  | .sqrt rd rs1 => Sys2Proof.Machine.execSqrt rd rs1 s
  | .log2 rd rs1 => Sys2Proof.Machine.execLog2 rd rs1 s
  | .ln rd rs1 => Sys2Proof.Machine.execLn rd rs1 s
  | .pow2 rd rs1 => Sys2Proof.Machine.execPow2 rd rs1 s
  | .pow rd rs1 rs2 => Sys2Proof.Machine.execPow rd rs1 rs2 s
  | .sin rd rs1 => Sys2Proof.Machine.execSin rd rs1 s
  | .cos rd rs1 => Sys2Proof.Machine.execCos rd rs1 s
  | .tan rd rs1 => Sys2Proof.Machine.execTan rd rs1 s
  | .asin rd rs1 => Sys2Proof.Machine.execAsin rd rs1 s
  | .acos rd rs1 => Sys2Proof.Machine.execAcos rd rs1 s
  | .atan rd rs1 => Sys2Proof.Machine.execAtan rd rs1 s
  | .atan2 rd rs1 rs2 => Sys2Proof.Machine.execAtan2 rd rs1 rs2 s

end Sys2Proof.Machine
end

