-- ==== Sys2Proof/Machine/Port.lean ====
section
/-! DEFINITION. The command port and the host's other operations (10_state.md R23, R30; 30_encoding.md R67, R70;
60_exceptions.md R274). -/

namespace Sys2Proof.Machine

/-- A word that starts a command (30_encoding.md R70): an illegal one takes fault entry at once, an LDR waits for its
literal, any other command executes. -/
def issueHead (w : CmdWord) (s : State) : Host.Outcome State Fault Refusal :=
  match decodeHead w with
  | .error _ => raise .illegalCmd w s
  | .ok (.command i) => exec i s
  | .ok (.literal rd) => .next { s with litPending := 2, heldRd := rd }

/-- `Issue(w)` (R30): in FAULTED the word is discarded (R274); in RUN it is the awaited literal word, the low one first
(R23, 20_memory.md R42), or it starts a command. -/
def issue (w : CmdWord) (s : State) : Host.Outcome State Fault Refusal :=
  let s := { s with wordsIssued := s.wordsIssued + 1 }
  match s.runState with
  | .faulted => .next s
  | .run =>
    if s.litPending = 2 then .next { s with litPending := 1, heldLow := w }
    else if s.litPending = 1 then exec (.ldr s.heldRd (w ++ s.heldLow)) { s with litPending := 0 }
    else issueHead w s

/-- As long as a literal is awaited and the host's next operation is an `Issue`, take that word too, at most `n` of
them: a command whose words have all arrived executes in one step of the model (log entry 3). -/
def takeLiterals : Nat → State → Host.Outcome State Fault Refusal
  | 0, s => .next s
  | n + 1, s =>
    if s.litPending = 0 then .next s
    else
      match s.inbox with
      | .issue w :: rest =>
        match issue w { s with inbox := rest } with
        | .next s' => takeLiterals n s'
        | .fault r => .fault r
        | .refused r => .refused r
      | _ => .next s

/-- Serve one host operation, already taken from the inbox (R30). A read changes nothing in the unit. -/
def serve (op : HostOp) (s : State) : Host.Outcome State Fault Refusal :=
  match op with
  | .issue w =>
    match issue w s with
    | .next s' => takeLiterals 2 s'
    | .fault r => .fault r
    | .refused r => .refused r
  | .readX i => .next { s with replies := .register (s.readX i) :: s.replies }
  | .readCtl a => .next { s with replies := .control (s.readCtl a) :: s.replies }
  | .reset => .next (hostReset s)

/-- Serve the host's next operation; with none waiting the unit is idle and keeps its state (60_exceptions.md R287). -/
def serveNext (s : State) : Host.Outcome State Fault Refusal :=
  match s.inbox with
  | [] => .next s
  | op :: rest => serve op { s with inbox := rest }

/-- The words of an opcode-table row's command: three when its OP is LDR's, one otherwise (30_encoding.md R67); bit 0 of
`w` is bit 0 of the first word, and the bits from `nbits` on are 0. -/
def tableWords (nbits w : Nat) : List CmdWord :=
  let v := w % 2 ^ nbits
  let w0 := BitVec.ofNat 32 v
  if opOf w0 = 0x01#8 then [w0, BitVec.ofNat 32 (v / 2 ^ 32), BitVec.ofNat 32 (v / 2 ^ 64)] else [w0]

/-- The unit ready to decode (R302), with those words the next the host issues (log entry 3). -/
def placeWords (s : State) (words : List CmdWord) : State :=
  { s with
    inbox := words.map HostOp.issue ++ s.inbox
    runState := .run
    status := 0#32
    faultCmd := 0#32
    litPending := 0 }

end Sys2Proof.Machine
end

