-- ==== Sys2Proof/Machine/Step.lean ====
section
/-! DEFINITION. One step of the machine, and how the host of this row places a command for it. -/

namespace Sys2Proof.Machine

/-- One step: serve the host's next operation. A unit whose configuration the spec does not allow is refused
(93 U11 to U14, log entry 9). -/
def step (s : State) : Host.Outcome State Fault Refusal :=
  if s.cfg.legal then serveNext s else .refused .illegalConfiguration

/-- The state in which the next step runs exactly the command with the given table bits. -/
def State.withFetchWord (s : State) (nbits w : Nat) : State := placeWords s (tableWords nbits w)

end Sys2Proof.Machine
end

