-- ==== Sys2Proof/Machine/Assembler.lean ====
section
/-! DEFINITION. The assembler of 30_encoding.md R71 and R72: the spelling of a command, and the pseudo-instructions that it
expands to one real command. The machine sees none of this, only the words. -/

namespace Sys2Proof.Machine

/-! ## Pseudo-instructions (R72) -/

/-- A pseudo-instruction (R72). The decimal of `li.q` is `numerator / 10^places`. -/
inductive Pseudo where
  | nop
  | li (rd : Reg) (value : Int)
  | liq (rd : Reg) (numerator : Int) (places : Nat)
  | clr (rd : Reg)
  deriving DecidableEq, Repr

/-- The literal of `ldr` and `li`: a 64-bit integer, negative or not, or a 64-bit pattern (R71); none where no pattern
holds it (log entry 19). -/
def literalOf (v : Int) : Option Word :=
  if minRaw ≤ v ∧ v < 18446744073709551616 then some (BitVec.ofInt 64 v) else none

/-- Expansion at assembly time (R72); none where the assembler reports an error. -/
def expand (c : Config) : Pseudo → Option Instr
  | .nop => some (.mov 0 0)
  | .li rd v => (literalOf v).map (Instr.ldr rd)
  | .liq rd numerator places =>
    let r := rneDiv (numerator * c.one) (10 ^ places)
    if minRaw ≤ r ∧ r ≤ maxRaw then some (.ldr rd (BitVec.ofInt 64 r)) else none
  | .clr rd => some (.ldc rd 0#5)

/-! ## Lexical elements (R71) -/

/-- Space and tab separate (log entry 19). -/
def isBlank (ch : Char) : Bool := ch == ' ' || ch == '\t'

/-- The text without blanks at its ends. -/
def trimBlanks (cs : List Char) : List Char := ((cs.dropWhile isBlank).reverse.dropWhile isBlank).reverse

/-- The parts of a text between commas, trimmed; no part of an empty text. -/
def splitOperands (cs : List Char) : List (List Char) :=
  if cs.isEmpty then [] else (cs.splitOn ',').map trimBlanks

/-- The value of a digit below ten, or of a hex digit in either case. -/
def digitOf (ch : Char) : Option Nat :=
  if '0' ≤ ch ∧ ch ≤ '9' then some (ch.toNat - 48)
  else if 'a' ≤ ch ∧ ch ≤ 'f' then some (ch.toNat - 87)
  else if 'A' ≤ ch ∧ ch ≤ 'F' then some (ch.toNat - 55)
  else none

/-- The digits of a number in the given base, after what has been read. -/
def digitsFrom (base : Nat) : Nat → List Char → Option Nat
  | n, [] => some n
  | n, ch :: cs =>
    match digitOf ch with
    | some d => if d < base then digitsFrom base (n * base + d) cs else none
    | none => none

/-- A nonempty number in the given base. -/
def numberOf (base : Nat) (cs : List Char) : Option Nat := if cs.isEmpty then none else digitsFrom base 0 cs

/-- The sign in front of a text, true for a minus sign, and the text after it. -/
def splitSign : List Char → Bool × List Char
  | '-' :: cs => (true, cs)
  | cs => (false, cs)

/-- A magnitude with its sign. -/
def withSign (negative : Bool) (n : Nat) : Int := if negative then -(n : Int) else n

/-- The magnitude of an integer: decimal, or hex after 0x. -/
def magnitudeOf : List Char → Option Nat
  | '0' :: 'x' :: cs => numberOf 16 cs
  | cs => numberOf 10 cs

/-- An integer in decimal or as 0x hex, which may be negative. -/
def integerOf (cs : List Char) : Option Int :=
  let (negative, cs) := splitSign cs
  (magnitudeOf cs).map (withSign negative)

/-- A decimal: its digits as an integer, and how many of them follow the point. DESIGN CHOICE: the spec does not spell
`<decimal>`; here it is an optional minus sign, which stands first, then digits with at most one point among them, and a
digit after the point if there is one (log entry 19). -/
def decimalOf (cs : List Char) : Option (Int × Nat) :=
  let (negative, cs) := splitSign cs
  match cs.splitOn '.' with
  | [whole] => (numberOf 10 whole).map fun n => (withSign negative n, 0)
  | [whole, places] =>
    if places.isEmpty then none
    else (numberOf 10 (whole ++ places)).map fun n => (withSign negative n, places.length)
  | _ => none

/-- A register number. -/
def regOfNat (n : Nat) : Option Reg := if h : n < 16 then some ⟨n, h⟩ else none

/-- `x0` to `x15`. -/
def registerOf (cs : List Char) : Option Reg :=
  match cs with
  | ['x', a] => (numberOf 10 [a]).bind regOfNat
  | ['x', '1', b] => (numberOf 10 ['1', b]).bind regOfNat
  | _ => none

/-- The rounding-mode operand: `even` is RM = 0, `away` is RM = 1. -/
def roundingOf (cs : List Char) : Option (BitVec 2) :=
  match String.ofList cs with
  | "even" => some 0#2
  | "away" => some 1#2
  | _ => none

/-- The names of the seventeen constants (40_representation.md R104). -/
def constantOf (cs : List Char) : Option (BitVec 5) :=
  match String.ofList cs with
  | "zero" => some 0#5
  | "one" => some 1#5
  | "two" => some 2#5
  | "three" => some 3#5
  | "half" => some 4#5
  | "quarter" => some 5#5
  | "eighth" => some 6#5
  | "epsilon" => some 7#5
  | "precision" => some 8#5
  | "max" => some 9#5
  | "min" => some 10#5
  | "pi" => some 11#5
  | "twopi" => some 12#5
  | "pi_2" => some 13#5
  | "pi_4" => some 14#5
  | "pi_6" => some 15#5
  | "ln2" => some 16#5
  | _ => none

/-! ## Commands (R71) -/

/-- The mnemonics of format R2. -/
def mnemonicR2 (name : String) : Option (Reg → Reg → Instr) :=
  match name with
  | "mov" => some .mov
  | "fromi32" => some .fromi32
  | "fromf64" => some .fromf64
  | "tof64" => some .tof64
  | "tof32" => some .tof32
  | "toint" => some .toint
  | "neg" => some .neg
  | "abs" => some .abs
  | "hash" => some .hash
  | "floor" => some .floor
  | "ceil" => some .ceil
  | "sqrt" => some .sqrt
  | "log2" => some .log2
  | "ln" => some .ln
  | "pow2" => some .pow2
  | "sin" => some .sin
  | "cos" => some .cos
  | "tan" => some .tan
  | "asin" => some .asin
  | "acos" => some .acos
  | "atan" => some .atan
  | _ => none

/-- The mnemonics of format R3. -/
def mnemonicR3 (name : String) : Option (Reg → Reg → Reg → Instr) :=
  match name with
  | "add" => some .add
  | "sub" => some .sub
  | "mul" => some .mul
  | "mulw" => some .mulw
  | "div" => some .div
  | "mod" => some .mod
  | "shl" => some .shl
  | "shr" => some .shr
  | "cmp" => some .cmp
  | "seq" => some .seq
  | "sne" => some .sne
  | "slt" => some .slt
  | "sle" => some .sle
  | "sgt" => some .sgt
  | "sge" => some .sge
  | "pow" => some .pow
  | "atan2" => some .atan2
  | _ => none

/-- A command or pseudo-instruction from its mnemonic and operands, in field order. An omitted rounding mode is
`even`. -/
def commandOf (c : Config) (name : String) (operands : List (List Char)) : Option Instr :=
  match name, operands with
  | "nop", [] => expand c .nop
  | "clr", [rd] => do expand c (.clr (← registerOf rd))
  | "li", [rd, v] => do expand c (.li (← registerOf rd) (← integerOf v))
  | "li.q", [rd, v] => do
    let (numerator, places) ← decimalOf v
    expand c (.liq (← registerOf rd) numerator places)
  | "ldr", [rd, v] => do return .ldr (← registerOf rd) (← literalOf (← integerOf v))
  | "ldc", [rd, k] => do return .ldc (← registerOf rd) (← constantOf k)
  | "round", [rd, rs1] => do return .round (← registerOf rd) (← registerOf rs1) 0#2
  | "round", [rd, rs1, rm] => do return .round (← registerOf rd) (← registerOf rs1) (← roundingOf rm)
  | "roundd", [rd, rs1, rs2] => do return .roundd (← registerOf rd) (← registerOf rs1) (← registerOf rs2) 0#2
  | "roundd", [rd, rs1, rs2, rm] => do
    return .roundd (← registerOf rd) (← registerOf rs1) (← registerOf rs2) (← roundingOf rm)
  | name, [rd, rs1] => do return (← mnemonicR2 name) (← registerOf rd) (← registerOf rs1)
  | name, [rd, rs1, rs2] => do return (← mnemonicR3 name) (← registerOf rd) (← registerOf rs1) (← registerOf rs2)
  | _, _ => none

/-- The words of one line: none where it is no command. A line that is blank but for its comment has no words. -/
def assembleLine (c : Config) (line : String) : Option (List CmdWord) :=
  let text := trimBlanks (line.toList.takeWhile (· != ';'))
  if text.isEmpty then some []
  else
    let name := text.takeWhile fun ch => !isBlank ch
    (commandOf c (String.ofList name) (splitOperands (trimBlanks (text.drop name.length)))).map encode

/-- The words of a program text, line by line. -/
def assemble (c : Config) (lines : List String) : Option (List CmdWord) := do
  return (← lines.mapM (assembleLine c)).flatten

end Sys2Proof.Machine
end

