-- ==== Sys2Proof/Safety.lean ====
section
/-! DEFINITION. The terms in which claims speak of the machine: what it is for a command to write its destination or to
take a fault and do nothing else, when a command faults (60_exceptions.md R272), the invariant of the control state, and
which commands read only registers that hold a specified value (10_state.md R31). -/

namespace Sys2Proof.Machine

/-! ## The two ways a command ends, each with its whole frame (20_memory.md R44) -/

/-- From s to t, Xrd received v and nothing else changed but the model's note that Xrd has been written. -/
structure Wrote (s t : State) (rd : Reg) (v : Word) : Prop where
  value : t.readX rd = v
  otherRegisters : ∀ r, r ≠ rd → t.readX r = s.readX r
  noted : t.hasWritten rd = true
  otherNotes : ∀ r, r ≠ rd → t.hasWritten r = s.hasWritten r
  runState : t.runState = s.runState
  status : t.status = s.status
  faultCmd : t.faultCmd = s.faultCmd
  litPending : t.litPending = s.litPending
  heldRd : t.heldRd = s.heldRd
  heldLow : t.heldLow = s.heldLow
  cfg : t.cfg = s.cfg
  wordsIssued : t.wordsIssued = s.wordsIssued
  inbox : t.inbox = s.inbox
  replies : t.replies = s.replies
  freeNext : t.freeNext = s.freeNext

/-- From s to t, the fault with cause c and first word w0 was recorded (R273) and nothing else changed. -/
structure TookFault (s t : State) (c : Cause) (w0 : CmdWord) : Prop where
  fault : statusFault t.status = 1#1
  cause : statusCause t.status = c.code
  reservedLow : t.status.extractLsb' 1 7 = 0#7
  reservedHigh : t.status.extractLsb' 16 16 = 0#16
  faultCmd : t.faultCmd = w0
  litPending : t.litPending = 0
  runState : t.runState = .faulted
  registers : ∀ r, t.readX r = s.readX r
  notes : ∀ r, t.hasWritten r = s.hasWritten r
  heldRd : t.heldRd = s.heldRd
  heldLow : t.heldLow = s.heldLow
  cfg : t.cfg = s.cfg
  wordsIssued : t.wordsIssued = s.wordsIssued
  inbox : t.inbox = s.inbox
  replies : t.replies = s.replies
  freeNext : t.freeNext = s.freeNext

/-- In s, the command i completes: it writes v to its destination and changes nothing else. -/
def Writes (i : Instr) (s : State) (v : Word) : Prop := ∃ t, exec i s = .next t ∧ Wrote s t i.dest v

/-- In s, the command i completes with the pattern of the raw value or plain integer n. -/
def WritesInt (i : Instr) (s : State) (n : Int) : Prop := Writes i s (BitVec.ofInt 64 n)

/-- In s, the command i takes a fault with cause c and does nothing else. -/
def Faults (i : Instr) (s : State) (c : Cause) : Prop :=
  ∃ t, exec i s = .next t ∧ TookFault s t c (encodeHead i)

/-! ## When a command faults -/

/-- The commands that can raise a cause, by the last column of the table of R271. -/
def canRaise (i : Instr) (c : Cause) : Bool :=
  match c, i with
  | .divByZero, .div _ _ _ | .divByZero, .mod _ _ _ | .divByZero, .pow _ _ _ => true
  | .sqrtNeg, .sqrt _ _ => true
  | .logNonpos, .log2 _ _ | .logNonpos, .ln _ _ | .logNonpos, .pow _ _ _ => true
  | .trigDomain, .asin _ _ | .trigDomain, .acos _ _ => true
  | .decRange, .roundd _ _ _ _ => true
  | .convRange, .fromf64 _ _ => true
  | _, _ => false

/-- The table of R272 for a command that has decoded: the cause it raises in s, none where it runs to its end. The
row of FROMF64 is that its operand, scaled and rounded, is no raw value. -/
def faultOf (i : Instr) (s : State) : Option Cause :=
  match i with
  | .fromf64 _ rs1 =>
    match bin64 (s.readX rs1) with
    | none => some .convRange
    | some d => if scaleBinary64 s.cfg d < minRaw ∨ maxRaw < scaleBinary64 s.cfg d then some .convRange else none
  | .div _ _ rs2 => if s.raw rs2 = 0 then some .divByZero else none
  | .mod _ _ rs2 => if s.raw rs2 = 0 then some .divByZero else none
  | .roundd _ _ rs2 _ => if s.raw rs2 < 0 ∨ (s.cfg.maxDecimals : Int) < s.raw rs2 then some .decRange else none
  | .sqrt _ rs1 => if s.raw rs1 < 0 then some .sqrtNeg else none
  | .log2 _ rs1 => if s.raw rs1 ≤ 0 then some .logNonpos else none
  | .ln _ rs1 => if s.raw rs1 ≤ 0 then some .logNonpos else none
  | .pow _ rs1 rs2 =>
    if s.raw rs1 = 0 ∧ s.raw rs2 < 0 then some .divByZero
    else if s.raw rs1 < 0 ∧ s.raw rs2 ≠ 0 then some .logNonpos
    else none
  | .asin _ rs1 => if s.cfg.one < s.raw rs1 ∨ s.raw rs1 < -s.cfg.one then some .trigDomain else none
  | .acos _ rs1 => if s.cfg.one < s.raw rs1 ∨ s.raw rs1 < -s.cfg.one then some .trigDomain else none
  | .ldr _ _ | .ldc _ _ | .mov _ _ | .fromi32 _ _ | .tof64 _ _ | .tof32 _ _ | .toint _ _ => none
  | .add _ _ _ | .sub _ _ _ | .mul _ _ _ | .mulw _ _ _ | .neg _ _ | .abs _ _ | .shl _ _ _ | .shr _ _ _ => none
  | .cmp _ _ _ | .seq _ _ _ | .sne _ _ _ | .slt _ _ _ | .sle _ _ _ | .sgt _ _ _ | .sge _ _ _ | .hash _ _ => none
  | .floor _ _ | .ceil _ _ | .round _ _ _ | .pow2 _ _ => none
  | .sin _ _ | .cos _ _ | .tan _ _ | .atan _ _ | .atan2 _ _ _ => none

/-! ## The invariant of the control state -/

/-- A recorded fault fits its command word: ILLEGAL_CMD stands for a word that does not decode, any other cause for a
command that can raise it (R271). -/
def recordFits (c : Cause) (w0 : CmdWord) : Bool :=
  match decodeHead w0 with
  | .error _ => c = .illegalCmd
  | .ok (.command i) => canRaise i c
  | .ok (.literal _) => false

/-- The control state that the rules allow: the configuration is legal; in RUN, STATUS and FAULTCMD read 0
(10_state.md R25, R26); in FAULTED, no literal is awaited, STATUS holds FAULT = 1 and one of the seven causes and nothing
else, and FAULTCMD is a word that can have caused it (R28, R271, R273). -/
structure State.Inv (s : State) : Prop where
  legal : s.cfg.legal = true
  running : s.runState = .run → s.status = 0#32 ∧ s.faultCmd = 0#32
  halted : s.runState = .faulted →
    s.litPending = 0 ∧ ∃ c, s.status = faultStatus c ∧ recordFits c s.faultCmd = true

/-! ## Programs that read only what they have written (10_state.md R31, 70_reset_and_hazards.md R303) -/

/-- Every source of the command has been written since the last reset. R31 would have a model flag the other reads; this
predicate is the flag (log entry 1). -/
def readsOnlyWritten (i : Instr) (s : State) : Bool := i.sources.all fun r => s.hasWritten r

/-- Two states of one unit that differ at most in registers not written since reset. -/
structure AgreeOnWritten (s t : State) : Prop where
  values : ∀ r, s.hasWritten r = true → t.readX r = s.readX r
  notes : ∀ r, t.hasWritten r = s.hasWritten r
  runState : t.runState = s.runState
  status : t.status = s.status
  faultCmd : t.faultCmd = s.faultCmd
  litPending : t.litPending = s.litPending
  heldRd : t.heldRd = s.heldRd
  heldLow : t.heldLow = s.heldLow
  cfg : t.cfg = s.cfg
  wordsIssued : t.wordsIssued = s.wordsIssued
  inbox : t.inbox = s.inbox
  replies : t.replies = s.replies
  freeNext : t.freeNext = s.freeNext

/-! ## The identity of the sine kernel -/

/-- Constraint (iv) of 44_trigonometric.md R234 at one angle: |Sin² + Cos² − One| ≤ Epsilon·TRIG_K. It holds at every angle
of the sample domain. DESIGN CHOICE: the squares are MUL's and their sum is exact, for want of a rule (log entry 8). -/
def SineIdentityAt (c : Config) (x : Int) : Prop := (identityError c x : Int) ≤ c.epsilon * trigK c

end Sys2Proof.Machine
end

