-- ==== Sys2Proof/Certificates/Slice0/Obligations.lean ====
section
/-! DEFINITION. What is claimed of the machine. `Writes`, `WritesInt` and `Faults` (Safety.lean) say that a command
completes, or faults, and each carries the whole frame. The claims hold for every legal configuration, not only the
reference one. The vocabulary comes first: nearest integers, the IEEE values, and the relations that the iterative rules
define. -/

open Sys2Proof Sys2Proof.Machine

namespace Sys2Proof.Claims

/-! ## Rounding relations -/

/-- n is the integer nearest to p/q, for q > 0, and the even one at a tie (00_scope.md R9). -/
def NearestEven (p q n : Int) : Prop :=
  2 * (p - n * q) ≤ q ∧ -q ≤ 2 * (p - n * q) ∧ (2 * (p - n * q) = q ∨ 2 * (p - n * q) = -q → n % 2 = 0)

/-- n is the integer nearest to p/q, for q > 0, and the one of larger magnitude at a tie (42_rounding.md R180). -/
def NearestAway (p q n : Int) : Prop :=
  2 * (p - n * q) ≤ q ∧ -q ≤ 2 * (p - n * q)
    ∧ (2 * (p - n * q) = q ∨ 2 * (p - n * q) = -q → p.natAbs < (n * q).natAbs)

/-- n is the quotient a/b of two raw values as a raw value, to nearest, ties to even, for b ≠ 0 (41_arithmetic.md R140). -/
def Quotient (c : Config) (a b n : Int) : Prop :=
  NearestEven (if b < 0 then -(a * c.one) else a * c.one) b.natAbs n

/-- n is the rounded product of two raw values: floor(a·b/2^F + 1/2) (41_arithmetic.md R135). -/
def RoundedProduct (c : Config) (a b n : Int) : Prop :=
  n * c.one ≤ a * b + c.half ∧ a * b + c.half < (n + 1) * c.one

/-- r is the integer nearest to √n; there is no tie (43_elementary.md R201). -/
def NearestRoot (n r : Int) : Prop :=
  0 ≤ r ∧ (r = 0 ∨ (2 * r - 1) * (2 * r - 1) < 4 * n) ∧ 4 * n < (2 * r + 1) * (2 * r + 1)

/-! ## IEEE 754 values (00_scope.md R11) -/

/-- The value of a pattern with `eb` exponent bits and `fb` fraction bits below its sign, none for a NaN or an infinity. -/
def ieeeValue (eb fb : Nat) (p : Nat) : Option ℚ :=
  let sign : ℚ := if p / 2 ^ (eb + fb) % 2 = 1 then -1 else 1
  let e := p / 2 ^ fb % 2 ^ eb
  let f : ℚ := (p % 2 ^ fb : Nat)
  let bias : Int := 2 ^ (eb - 1) - 1
  if e = 2 ^ eb - 1 then none
  else if e = 0 then some (sign * (f / 2 ^ fb) * 2 ^ (1 - bias))
  else some (sign * (1 + f / 2 ^ fb) * 2 ^ ((e : Int) - bias))

/-- p encodes the value of the format nearest to x, the one with the even significand at a tie, and the positive zero for
a zero. -/
def RoundsTo (eb fb : Nat) (x : ℚ) (p : Nat) : Prop :=
  ∃ v, ieeeValue eb fb p = some v ∧ (v = 0 → p = 0)
    ∧ ∀ q u, q < 2 ^ (eb + fb + 1) → ieeeValue eb fb q = some u →
      |v - x| ≤ |u - x| ∧ (|v - x| = |u - x| → u ≠ v → p % 2 = 0)

/-! ## The iterative rules as relations -/

/-- The result of LOG2 on a > 0 (43_elementary.md R204): k normalising shifts, then one fraction bit from each of F
squarings. -/
def Log2Is (c : Config) (a y : Int) : Prop :=
  ∃ (k : Int) (z bit : Nat → Int),
    (0 ≤ k → z 0 = a / 2 ^ k.toNat) ∧ (k < 0 → z 0 = a * 2 ^ (-k).toNat)
    ∧ c.one ≤ z 0 ∧ z 0 < c.two
    ∧ (∀ i < c.fracBits, ∃ p, RoundedProduct c (z i) (z i) p
        ∧ (p < c.two ∧ bit i = 0 ∧ z (i + 1) = p ∨ c.two ≤ p ∧ bit i = 1 ∧ z (i + 1) = p / 2))
    ∧ y = k * c.one + ∑ i ∈ Finset.range c.fracBits, bit i * 2 ^ (c.fracBits - 1 - i)

/-- The sum of the Taylor series of 2^f for a fractional part f (43_elementary.md R210): the terms t 0 = One, t 1, … up to
the first that is 0, which is among the first 2^F + 2. -/
def Pow2SeriesIs (c : Config) (f v : Int) : Prop :=
  ∃ (t : Nat → Int) (N : Nat), t 0 = c.one ∧ t N = 0 ∧ N ≤ 2 ^ c.fracBits + 1
    ∧ (∀ n < N, t n ≠ 0 ∧ ∃ p q, RoundedProduct c f (t n) p ∧ RoundedProduct c p c.ln2 q
        ∧ NearestEven q (n + 1) (t (n + 1)))
    ∧ v = ∑ n ∈ Finset.range N, t n

/-- ATAN_SERIES(w) (44_trigonometric.md R246): the alternating sum of the terms t k = p k / (2k+1), k < K, where K is the first
k with t k = 0, and 14 where there is none up to 13. -/
def AtanSeriesIs (c : Config) (w v : Int) : Prop :=
  ∃ (w2 : Int) (p t : Nat → Int) (K : Nat), RoundedProduct c w w w2 ∧ p 0 = w ∧ t 0 = w
    ∧ 1 ≤ K ∧ K ≤ 14
    ∧ (∀ k, 1 ≤ k → k ≤ 13 → RoundedProduct c (p (k - 1)) w2 (p k) ∧ NearestEven (p k) (2 * k + 1) (t k))
    ∧ (∀ k, 1 ≤ k → k < K → t k ≠ 0) ∧ (K = 14 ∨ t K = 0)
    ∧ v = ∑ k ∈ Finset.range K, (-1) ^ k * t k

/-- v is the sine of the angle x (44_trigonometric.md R231 to R234): x lies, up to a multiple of TWO_PI, in one of the four
quarters, and v is the kernel's value at the folded magnitude with the quarter's sign. -/
def SineIs (c : Config) (x v : Int) : Prop :=
  ∃ r, 0 ≤ r ∧ r ≤ c.piOver2
    ∧ (x % c.twoPi = r % c.twoPi ∧ v = sinPoly c r
      ∨ r < c.pi - c.piOver2 ∧ x % c.twoPi = (c.pi - r) % c.twoPi ∧ v = sinPoly c r
      ∨ 0 < r ∧ x % c.twoPi = (-r) % c.twoPi ∧ v = -sinPoly c r
      ∨ 0 < r ∧ r < c.pi - c.piOver2 ∧ x % c.twoPi = (r - c.pi) % c.twoPi ∧ v = -sinPoly c r)

/-- The angle x folds to the magnitude r (44_trigonometric.md R231, R232): up to a multiple of TWO_PI, x is r or PI − r, or
the negative of one of them. -/
def FoldsTo (c : Config) (x r : Int) : Prop :=
  0 ≤ r ∧ r ≤ c.piOver2
    ∧ (x % c.twoPi = r % c.twoPi ∨ x % c.twoPi = (-r) % c.twoPi
      ∨ r < c.pi - c.piOver2 ∧ (x % c.twoPi = (c.pi - r) % c.twoPi ∨ x % c.twoPi = (r - c.pi) % c.twoPi))

/-! ## The encoding tables of 30_encoding.md -/

/-- OP is unassigned (R69 (a)). -/
def UnassignedOp (op : Nat) : Prop :=
  op = 0x00 ∨ (0x09 ≤ op ∧ op ≤ 0x0F) ∨ (0x1A ≤ op ∧ op ≤ 0x1F) ∨ (0x28 ≤ op ∧ op ≤ 0x2F)
    ∨ (0x34 ≤ op ∧ op ≤ 0x3F) ∨ (0x45 ≤ op ∧ op ≤ 0x47) ∨ 0x4F ≤ op

/-- RESERVED_MASK of the format of an assigned OP (R70): L, K, R2M, R3M, R3, and R2 for the rest. -/
def reservedMask (op : Nat) : CmdWord :=
  if op = 0x01 then 0x000FFFFF#32
  else if op = 0x02 then 0x000FFFE0#32
  else if op = 0x32 then 0x0000FBFF#32
  else if op = 0x33 then 0x00000BFF#32
  else if op ∈ [0x10, 0x11, 0x12, 0x13, 0x14, 0x15, 0x18, 0x19, 0x20, 0x21, 0x22, 0x23, 0x24, 0x25, 0x26, 0x44, 0x4E]
    then 0x00000FFF#32
  else 0x0000FFFF#32

/-- The word is illegal as the first word of a command (R69). -/
def IllegalWord (w : CmdWord) : Prop :=
  UnassignedOp (w.toNat / 2 ^ 24) ∨ w &&& reservedMask (w.toNat / 2 ^ 24) ≠ 0#32
    ∨ (w.toNat / 2 ^ 24 = 0x02 ∧ 16 < w.toNat % 2 ^ 5)

/-- The register number in the four bits of a word from `lo` up. -/
def fieldAt (w : CmdWord) (lo : Nat) : Reg := ⟨w.toNat / 2 ^ lo % 16, Nat.mod_lt _ (by decide)⟩

/-- The rows of spec/opcode_table.json with format R3, mask 0xFF000FFF: bits 31:24 of the match, and the command. -/
def rowsR3 : List (Nat × (Reg → Reg → Reg → Instr)) :=
  [(0x10, .add), (0x11, .sub), (0x12, .mul), (0x13, .mulw), (0x14, .div), (0x15, .mod), (0x18, .shl), (0x19, .shr),
    (0x20, .cmp), (0x21, .seq), (0x22, .sne), (0x23, .slt), (0x24, .sle), (0x25, .sgt), (0x26, .sge)]
  ++ [(0x44, .pow), (0x4E, .atan2)]

/-- The rows with format R2, mask 0xFF00FFFF. -/
def rowsR2 : List (Nat × (Reg → Reg → Instr)) :=
  [(0x03, .mov), (0x04, .fromi32), (0x05, .fromf64), (0x06, .tof64), (0x07, .tof32), (0x08, .toint), (0x16, .neg),
    (0x17, .abs), (0x27, .hash), (0x30, .floor), (0x31, .ceil)]
  ++ [(0x40, .sqrt), (0x41, .log2), (0x42, .ln), (0x43, .pow2), (0x48, .sin), (0x49, .cos), (0x4A, .tan), (0x4B, .asin),
    (0x4C, .acos), (0x4D, .atan)]

/-- The seventeen named constants in the order of KIDX (40_representation.md R104). -/
def namedConstants (c : Config) : List Int :=
  [0, 2 ^ c.fracBits, 2 ^ (c.fracBits + 1), 3 * 2 ^ c.fracBits, 2 ^ (c.fracBits - 1), 2 ^ (c.fracBits - 2),
    2 ^ (c.fracBits - 3), 1, 1, 2 ^ 63 - 1, -2 ^ 63]
  ++ [c.pi, c.twoPi, c.piOver2, c.piOver4, c.piOver6, c.ln2]

end Sys2Proof.Claims

open Sys2Proof.Claims

/-! # Encoding -/

/-- R60 to R68, R70: the words of every well-formed command decode to it, whatever follows them. -/
def Obligations.EncodedCommandDecodesBack : Prop :=
  ∀ (i : Instr) (rest : List CmdWord), i.wellFormed = true → decode (encode i ++ rest) = .ok (i, rest)

/-- R69, last sentence: words that decode are exactly the words of one well-formed command. -/
def Obligations.DecodedWordsEncodeOneCommand : Prop :=
  ∀ (ws rest : List CmdWord) (i : Instr), decode ws = .ok (i, rest) → i.wellFormed = true ∧ encode i ++ rest = ws

/-- R41 for command words: the little-endian bytes of a well-formed command decode to it. -/
def Obligations.StoredBytesDecodeBack : Prop :=
  ∀ (i : Instr) (rest : List Byte), i.wellFormed = true → decodeBytes (encodeBytes i ++ rest) = .ok (i, rest)

/-- R69: the decoder refuses exactly the words that R69 calls illegal, and such a word, issued in RUN with no literal
awaited, takes the fault ILLEGAL_CMD and writes no general register. -/
def Obligations.IllegalWordsAreExactlyThoseOfR69 : Prop :=
  (∀ w : CmdWord, (∃ e, decodeHead w = .error e) ↔ IllegalWord w)
  ∧ ∀ (s : State) (w : CmdWord), IllegalWord w → s.runState = .run → s.litPending = 0 →
      ∃ t, issue w s = .next t ∧ TookFault { s with wordsIssued := s.wordsIssued + 1 } t .illegalCmd w

/-- spec/opcode_table.json, row by row: a word that matches a row under its mask decodes to the row's command, with every
operand field where R60 puts it. -/
def Obligations.DecoderFollowsOpcodeTable : Prop :=
  (∀ row ∈ rowsR3, ∀ w : CmdWord, (w &&& 0xFF000FFF#32).toNat = row.1 * 2 ^ 24 →
    decodeHead w = .ok (.command (row.2 (fieldAt w 20) (fieldAt w 16) (fieldAt w 12))))
  ∧ (∀ row ∈ rowsR2, ∀ w : CmdWord, (w &&& 0xFF00FFFF#32).toNat = row.1 * 2 ^ 24 →
    decodeHead w = .ok (.command (row.2 (fieldAt w 20) (fieldAt w 16))))
  ∧ (∀ w : CmdWord, w &&& 0xFF0FFFFF#32 = 0x01000000#32 → decodeHead w = .ok (.literal (fieldAt w 20)))
  ∧ (∀ w : CmdWord, w &&& 0xFF0FFFE0#32 = 0x02000000#32 → w.toNat % 32 ≤ 16 →
    decodeHead w = .ok (.command (.ldc (fieldAt w 20) (BitVec.ofNat 5 w.toNat))))
  ∧ (∀ w : CmdWord, w &&& 0xFF00FBFF#32 = 0x32000000#32 →
    decodeHead w = .ok (.command (.round (fieldAt w 20) (fieldAt w 16) (BitVec.ofNat 2 (w.toNat / 2 ^ 10)))))
  ∧ (∀ w : CmdWord, w &&& 0xFF000BFF#32 = 0x33000000#32 →
    decodeHead w = .ok (.command (.roundd (fieldAt w 20) (fieldAt w 16) (fieldAt w 12)
      (BitVec.ofNat 2 (w.toNat / 2 ^ 10)))))

/-- The encoding examples of R73, and one word of each other family written out from R60 to R68. -/
def Obligations.SampleWordsDecode : Prop :=
  decode [0x10123000#32] = .ok (.add 1 2 3, [])
  ∧ decode [0x32120400#32] = .ok (.round 1 2 1, [])
  ∧ decode [0x0230000B#32] = .ok (.ldc 3 11, [])
  ∧ decode [0x01200000#32, 0xFFFFFFFF#32, 0xFFFFFFFF#32] = .ok (.ldr 2 0xFFFFFFFFFFFFFFFF#64, [])
  ∧ decode [0x4E567000#32] = .ok (.atan2 5 6 7, [])
  ∧ decode [0x44612000#32] = .ok (.pow 6 1 2, [])

/-! # The command port and the host's operations -/

/-- R30, R67, R70: when the words next at the port are those of a command, one step takes them all and is `exec` of that
command; that it is one step is the model's choice (log entry 3). The count of words advances by the command's length
(R22, log entry 13). That an LDR leaves its destination and low word held, where 93 U2 leaves them open, is the model's
choice (log entry 11). -/
def Obligations.StepRunsTheIssuedCommand : Prop :=
  (∀ (s : State) (w : CmdWord) (i : Instr) (rest : List HostOp),
    s.cfg.legal = true → s.runState = .run → s.litPending = 0 → s.inbox = .issue w :: rest →
    decodeHead w = .ok (.command i) →
    step s = exec i { s with inbox := rest, wordsIssued := s.wordsIssued + 1 })
  ∧ ∀ (s : State) (w0 w1 w2 : CmdWord) (rd : Reg) (rest : List HostOp),
    s.cfg.legal = true → s.runState = .run → s.litPending = 0 →
    s.inbox = .issue w0 :: .issue w1 :: .issue w2 :: rest → decodeHead w0 = .ok (.literal rd) →
    step s = exec (.ldr rd (w2 ++ w1))
      { s with inbox := rest, wordsIssued := s.wordsIssued + 3, heldRd := rd, heldLow := w1 }

/-- R23, R42, R66, R105: the three words of an LDR one `Issue` at a time. LIT_PENDING goes 2, 1, 0; no register changes
before the third word; then Xrd holds w2 ++ w1, whatever the two words are, and no other register has changed. -/
def Obligations.LiteralWordsLoadTheRegister : Prop :=
  ∀ (s : State) (w0 w1 w2 : CmdWord) (rd : Reg),
    s.runState = .run → s.litPending = 0 → decodeHead w0 = .ok (.literal rd) →
    ∃ t0 t1 t2, issue w0 s = .next t0 ∧ issue w1 t0 = .next t1 ∧ issue w2 t1 = .next t2
      ∧ t0.litPending = 2 ∧ t1.litPending = 1 ∧ t2.litPending = 0
      ∧ (∀ r, t0.readX r = s.readX r ∧ t1.readX r = s.readX r)
      ∧ t2.readX rd = w2 ++ w1 ∧ (∀ r, r ≠ rd → t2.readX r = s.readX r)
      ∧ t2.runState = .run ∧ t2.status = s.status ∧ t2.faultCmd = s.faultCmd

/-- R274: while FAULTED a step takes an issued word and discards it. The reads work as in RUN. That the count of words goes
on is the model's choice (log entry 13). -/
def Obligations.FaultedUnitDiscardsWords : Prop :=
  ∀ (s : State) (rest : List HostOp), s.Inv → s.runState = .faulted →
    (∀ w, s.inbox = .issue w :: rest →
      step s = .next { s with inbox := rest, wordsIssued := s.wordsIssued + 1 })
    ∧ (∀ r, s.inbox = .readX r :: rest →
      step s = .next { s with inbox := rest, replies := .register (s.readX r) :: s.replies })
    ∧ (∀ a, s.inbox = .readCtl a :: rest →
      step s = .next { s with inbox := rest, replies := .control (s.readCtl a) :: s.replies })

/-- R281: a step that leaves FAULTED serves `Reset()`, and that one clears STATUS and FAULTCMD, returns to RUN, and leaves
each register at a value of which nothing is known. Every other step keeps the fault record and all registers. -/
def Obligations.OnlyResetLeavesFaulted : Prop :=
  ∀ s t : State, s.runState = .faulted → step s = .next t →
    (s.inbox.head? ≠ some .reset →
      t.runState = .faulted ∧ t.status = s.status ∧ t.faultCmd = s.faultCmd ∧ ∀ r, t.readX r = s.readX r)
    ∧ (s.inbox.head? = some .reset →
      t.runState = .run ∧ t.status = 0#32 ∧ t.faultCmd = 0#32
      ∧ ∀ r : Reg, t.readX r = Config.freeWord (s.freeNext + r.val))

/-- R300: `Reset()` in any state, with or without an LDR pending. Nothing is said of the registers, which are
unspecified. The last line has R301's values in the model's state after reset. The clauses on `hasWritten` (log entry 1),
`inbox` and `replies` (log entry 3) and `wordsIssued` (log entry 13) are about the model's own fields and choices. -/
def Obligations.ResetRestoresTheControlState : Prop :=
  (∀ (s : State) (rest : List HostOp), s.cfg.legal = true → s.inbox = .reset :: rest →
    ∃ t, step s = .next t ∧ t.runState = .run ∧ t.status = 0#32 ∧ t.faultCmd = 0#32 ∧ t.litPending = 0
      ∧ t.cfg = s.cfg ∧ t.configReg = s.configReg ∧ t.faultOutput = false ∧ t.wordsIssued = 0
      ∧ (∀ r, t.hasWritten r = false) ∧ t.inbox = rest ∧ t.replies = s.replies)
  ∧ State.reset.runState = .run ∧ State.reset.status = 0#32 ∧ State.reset.faultCmd = 0#32
  ∧ State.reset.litPending = 0 ∧ State.reset.faultOutput = false

/-- R30: `ReadX(i)` answers the pattern of Xi and `ReadCtl(a)` STATUS, FAULTCMD, CONFIG or 0; neither changes the unit. -/
def Obligations.HostReadsAnswerAndChangeNothing : Prop :=
  ∀ (s : State) (rest : List HostOp), s.cfg.legal = true →
    (∀ r, s.inbox = .readX r :: rest →
      step s = .next { s with inbox := rest, replies := .register (s.readX r) :: s.replies })
    ∧ (∀ a, s.inbox = .readCtl a :: rest → ∃ v, step s = .next { s with inbox := rest, replies := .control v :: s.replies }
      ∧ (a = 0x10 → v = s.status) ∧ (a = 0x11 → v = s.faultCmd) ∧ (a = 0x12 → v = s.configReg)
      ∧ (a ≠ 0x10 → a ≠ 0x11 → a ≠ 0x12 → v = 0#32))

/-- R27: the fields of CONFIG, where the host reads it, and that no step changes it or any parameter. -/
def Obligations.ConfigIsHardwired : Prop :=
  (∀ s : State, s.cfg.legal = true →
    (s.configReg.extractLsb' 0 8).toNat = s.cfg.fracBits ∧ (s.configReg.extractLsb' 8 8).toNat = s.cfg.maxDecimals
    ∧ s.configReg.extractLsb' 16 8 = 1#8 ∧ s.configReg.extractLsb' 24 8 = 0#8 ∧ s.readCtl 0x12 = s.configReg)
  ∧ ∀ s t : State, step s = .next t → t.configReg = s.configReg ∧ t.cfg = s.cfg

/-! # Rules about the whole machine -/

/-- The state after reset meets the invariant of the control state. -/
def Obligations.ResetMeetsControlInvariant : Prop := State.reset.Inv

/-- R25, R26, R28, R271: from every state that meets it, a step leads to a state that meets it. In particular STATUS keeps
its reserved bits 0, CAUSE is 0 exactly when FAULT is 0, and a recorded cause fits the recorded command word. -/
def Obligations.StepKeepsControlInvariant : Prop := ∀ s t : State, s.Inv → step s = .next t → t.Inv

/-- R44, R273: a step that serves no `Reset()` changes at most one register, and where it changes the fault record it
changes no register at all. -/
def Obligations.StepWritesOneRegisterOrRecordsAFault : Prop :=
  ∀ s t : State, step s = .next t → s.inbox.head? ≠ some .reset →
    (∃ rd, ∀ r, r ≠ rd → t.readX r = s.readX r)
    ∧ (t.status ≠ s.status ∨ t.faultCmd ≠ s.faultCmd ∨ t.runState ≠ s.runState → ∀ r, t.readX r = s.readX r)

/-- R272: every well-formed command faults exactly under its condition, with its cause, and otherwise completes; and an
illegal word, issued in RUN with no literal awaited, takes ILLEGAL_CMD. -/
def Obligations.CommandsFaultExactlyAsTabled : Prop :=
  (∀ (i : Instr) (s : State), s.cfg.legal = true → i.wellFormed = true →
    (∀ c, faultOf i s = some c → Faults i s c) ∧ (faultOf i s = none → ∃ v, Writes i s v))
  ∧ ∀ (s : State) (w : CmdWord), IllegalWord w → s.runState = .run → s.litPending = 0 →
      ∃ t, issue w s = .next t ∧ TookFault { s with wordsIssued := s.wordsIssued + 1 } t .illegalCmd w

/-- The model's rule for a term of the syntax that no word decodes to (log entry 16): it is an illegal command. -/
def Obligations.IllFormedCommandsAreIllegal : Prop :=
  ∀ (i : Instr) (s : State), i.wellFormed = false → Faults i s .illegalCmd

/-- R26, R273: a word issued in RUN with no literal awaited that leads to FAULTED records a cause and itself, as issued,
and has no other effect. -/
def Obligations.FaultRecordsTheIssuedWord : Prop :=
  ∀ (s t : State) (w : CmdWord), s.runState = .run → s.litPending = 0 → issue w s = .next t → t.runState = .faulted →
    ∃ c, TookFault { s with wordsIssued := s.wordsIssued + 1 } t c w

/-- R2: in RUN, what a command writes, and whether and how it faults, is a function of its source registers and the
configuration. -/
def Obligations.CommandsArePureFunctions : Prop :=
  ∀ (i : Instr) (s t : State), s.runState = .run → t.runState = .run → t.cfg = s.cfg →
    (∀ r ∈ i.sources, t.readX r = s.readX r) →
    (∀ v, Writes i s v ↔ Writes i t v) ∧ (∀ c, Faults i s c ↔ Faults i t c)

/-- R31, R303 step 2: a command that reads only registers written since reset behaves alike in two states that differ
only in the others, so no program that writes before it reads depends on an unspecified register. -/
def Obligations.UnwrittenRegistersStayInvisible : Prop :=
  ∀ (i : Instr) (s t : State), AgreeOnWritten s t → readsOnlyWritten i s = true →
    ∃ s' t', exec i s = .next s' ∧ exec i t = .next t' ∧ AgreeOnWritten s' t'

/-- R72: `nop` is the word 0x03000000 and changes no register and no control state. -/
def Obligations.NopChangesNoRegister : Prop :=
  ∀ (c : Config) (s : State), ∃ i t, expand c .nop = some i ∧ encode i = [0x03000000#32] ∧ exec i s = .next t
    ∧ (∀ r, t.readX r = s.readX r) ∧ t.runState = s.runState ∧ t.status = s.status ∧ t.faultCmd = s.faultCmd

/-- R71 to R73: the encoding examples as the assembler reads them, the four pseudo-instructions, the default rounding
mode, a comment, and an operand that is no register. -/
def Obligations.ExamplesAssemble : Prop :=
  ∀ c : Config, c.fracBits = 10 →
    assembleLine c "add x1, x2, x3" = some [0x10123000#32]
    ∧ assembleLine c "round x1, x2, away" = some [0x32120400#32]
    ∧ assembleLine c "round x1, x2" = assembleLine c "round x1, x2, even"
    ∧ assembleLine c "ldc x3, pi ; π" = some [0x0230000B#32]
    ∧ assembleLine c "ldr x2, -1" = some [0x01200000#32, 0xFFFFFFFF#32, 0xFFFFFFFF#32]
    ∧ assembleLine c "atan2 x5, x6, x7" = some [0x4E567000#32]
    ∧ assembleLine c "nop" = some [0x03000000#32]
    ∧ assembleLine c "li x1, 0x600" = some [0x01100000#32, 0x00000600#32, 0#32]
    ∧ assembleLine c "li.q x1, 1.5" = some [0x01100000#32, 0x00000600#32, 0#32]
    ∧ assembleLine c "clr x15" = some [0x02F00000#32]
    ∧ assembleLine c "neg x4, x16" = none

/-! # Representation and conversions -/

/-- R104: LDC loads the constant of its index. -/
def Obligations.LdcLoadsNamedConstant : Prop :=
  ∀ (s : State) (rd : Reg) (kidx : BitVec 5), s.cfg.legal = true →
    ∀ v, (namedConstants s.cfg)[kidx.toNat]? = some v → WritesInt (.ldc rd kidx) s v

/-- R105, R107: LDR writes its literal and MOV its source, as 64-bit patterns. -/
def Obligations.LdrAndMovCopyPatterns : Prop :=
  ∀ (s : State) (rd rs1 : Reg) (literal : Word),
    Writes (.ldr rd literal) s literal ∧ Writes (.mov rd rs1) s (s.readX rs1)

/-- R106: FROMI32 writes i·2^F, exactly, for the int32 i in the low half of its source. -/
def Obligations.Fromi32ScalesExactly : Prop :=
  ∀ (s : State) (rd rs1 : Reg), s.cfg.legal = true →
    ∃ n : Int, n = ((s.readX rs1).setWidth 32).toInt * 2 ^ s.cfg.fracBits ∧ -2 ^ 61 ≤ n ∧ n ≤ 2 ^ 61
      ∧ WritesInt (.fromi32 rd rs1) s n

/-- R108: FROMF64 writes the integer nearest to d·2^F, a tie to even, and faults with CONV_RANGE for a NaN, an infinity and a
result that is no raw value. -/
def Obligations.Fromf64RoundsToNearestOrFaults : Prop :=
  ∀ (s : State) (rd rs1 : Reg), s.cfg.legal = true →
    (ieeeValue 11 52 (s.readX rs1).toNat = none → Faults (.fromf64 rd rs1) s .convRange)
    ∧ ∀ d, ieeeValue 11 52 (s.readX rs1).toNat = some d →
      ∃ n : Int, |d * 2 ^ s.cfg.fracBits - n| ≤ 1 / 2 ∧ (|d * 2 ^ s.cfg.fracBits - n| = 1 / 2 → n % 2 = 0)
        ∧ (minRaw ≤ n ∧ n ≤ maxRaw → WritesInt (.fromf64 rd rs1) s n)
        ∧ (n < minRaw ∨ maxRaw < n → Faults (.fromf64 rd rs1) s .convRange)

/-- R110: TOF64 writes the binary64 pattern nearest to r/2^F, ties to even, +0.0 for 0. -/
def Obligations.Tof64RoundsToNearest : Prop :=
  ∀ (s : State) (rd rs1 : Reg), s.cfg.legal = true →
    ∃ p : Word, RoundsTo 11 52 ((s.readX rs1).toInt / 2 ^ s.cfg.fracBits) p.toNat ∧ Writes (.tof64 rd rs1) s p

/-- R112: TOF32 writes the binary32 pattern nearest to r/2^F in one rounding, ties to even, zero-extended. -/
def Obligations.Tof32RoundsOnce : Prop :=
  ∀ (s : State) (rd rs1 : Reg), s.cfg.legal = true →
    ∃ p : BitVec 32, RoundsTo 8 23 ((s.readX rs1).toInt / 2 ^ s.cfg.fracBits) p.toNat
      ∧ Writes (.tof32 rd rs1) s (p.setWidth 64)

/-- R109: FROMF64 of TOF64(r) gives r back for |r| ≤ 2^53. -/
def Obligations.Binary64RoundTripBelow53Bits : Prop :=
  ∀ (s s' : State) (rd rs1 rd' rs1' : Reg), s.cfg.legal = true → s'.cfg = s.cfg →
    -2 ^ 53 ≤ (s.readX rs1).toInt → (s.readX rs1).toInt ≤ 2 ^ 53 →
    ∃ p, Writes (.tof64 rd rs1) s p
      ∧ (s'.readX rs1' = p → Writes (.fromf64 rd' rs1') s' (s.readX rs1))

/-- R114: TOINT is the arithmetic right shift by F, all 64 bits kept. -/
def Obligations.TointShiftsRightByF : Prop :=
  ∀ (s : State) (rd rs1 : Reg), s.cfg.legal = true →
    Writes (.toint rd rs1) s ((s.readX rs1).sshiftRight s.cfg.fracBits)

/-! # Arithmetic, compare and hash -/

/-- R131 to R134: ADD and SUB write the saturated exact sum and difference, which is what the sign-bit method on the 64-bit
patterns gives. -/
def Obligations.AddAndSubSaturateBySignBits : Prop :=
  ∀ (s : State) (rd rs1 rs2 : Reg) (a b : Word) (sum diff : Int), a = s.readX rs1 → b = s.readX rs2 →
    sum = a.toInt + b.toInt → diff = a.toInt - b.toInt →
    WritesInt (.add rd rs1 rs2) s (if maxRaw < sum then maxRaw else if sum < minRaw then minRaw else sum)
    ∧ WritesInt (.sub rd rs1 rs2) s (if maxRaw < diff then maxRaw else if diff < minRaw then minRaw else diff)
    ∧ Writes (.add rd rs1 rs2) s
      (if a.msb = b.msb ∧ (a + b).msb ≠ a.msb then (if a.msb then BitVec.intMin 64 else BitVec.intMax 64) else a + b)
    ∧ Writes (.sub rd rs1 rs2) s
      (if a.msb ≠ b.msb ∧ (a - b).msb ≠ a.msb then (if a.msb then BitVec.intMin 64 else BitVec.intMax 64) else a - b)

/-- R135, R136: MUL writes the rounded product, or the limit on whose side it lies. -/
def Obligations.MulSaturatesRoundedProduct : Prop :=
  ∀ (s : State) (rd rs1 rs2 : Reg), s.cfg.legal = true →
    ∃ n, RoundedProduct s.cfg (s.readX rs1).toInt (s.readX rs2).toInt n
      ∧ WritesInt (.mul rd rs1 rs2) s (if maxRaw < n then maxRaw else if n < minRaw then minRaw else n)

/-- R135, R138: MULW writes the rounded product modulo 2^64, which is what the source's four partial products of the
operands split at bit F give, the fraction of low×low rounded half up. -/
def Obligations.MulwWrapsFourPartialProducts : Prop :=
  ∀ (s : State) (rd rs1 rs2 : Reg) (a b : Word), s.cfg.legal = true → a = s.readX rs1 → b = s.readX rs2 →
    (∃ n, RoundedProduct s.cfg a.toInt b.toInt n ∧ WritesInt (.mulw rd rs1 rs2) s n)
    ∧ let F := s.cfg.fracBits
      let ah := a.sshiftRight F
      let bh := b.sshiftRight F
      let al := a &&& BitVec.ofNat 64 (2 ^ F - 1)
      let bl := b &&& BitVec.ofNat 64 (2 ^ F - 1)
      Writes (.mulw rd rs1 rs2) s
        ((ah * bh) <<< F + ah * bl + al * bh + (al * bl + BitVec.ofNat 64 (2 ^ (F - 1))) >>> F)

/-- R140: DIV faults on a zero divisor, else writes the nearest quotient, ties to even, saturated. -/
def Obligations.DivRoundsQuotientToNearestEven : Prop :=
  ∀ (s : State) (rd rs1 rs2 : Reg), s.cfg.legal = true →
    ((s.readX rs2).toInt = 0 → Faults (.div rd rs1 rs2) s .divByZero)
    ∧ ((s.readX rs2).toInt ≠ 0 → ∃ n, Quotient s.cfg (s.readX rs1).toInt (s.readX rs2).toInt n
      ∧ WritesInt (.div rd rs1 rs2) s (if maxRaw < n then maxRaw else if n < minRaw then minRaw else n))

/-- R142: MOD faults on a zero divisor, else writes the remainder of the truncated division of the patterns (0 for
MinValue and −1). -/
def Obligations.ModIsTruncatedRemainder : Prop :=
  ∀ (s : State) (rd rs1 rs2 : Reg),
    (s.readX rs2 = 0#64 → Faults (.mod rd rs1 rs2) s .divByZero)
    ∧ (s.readX rs2 ≠ 0#64 → Writes (.mod rd rs1 rs2) s ((s.readX rs1).srem (s.readX rs2)))

/-- R144, R146: NEG and ABS on the patterns, MinValue giving MaxValue. -/
def Obligations.NegAndAbsSaturateMinValue : Prop :=
  ∀ (s : State) (rd rs1 : Reg) (a : Word), a = s.readX rs1 →
    Writes (.neg rd rs1) s (if a = BitVec.intMin 64 then BitVec.intMax 64 else -a)
    ∧ Writes (.abs rd rs1) s
      (if a = BitVec.intMin 64 then BitVec.intMax 64 else if a.msb then -a else a)

/-- R148, R150: SHL and SHR shift the pattern by the low six bits of the count register. -/
def Obligations.ShiftsUseSixCountBits : Prop :=
  ∀ (s : State) (rd rs1 rs2 : Reg),
    Writes (.shl rd rs1 rs2) s (s.readX rs1 <<< ((s.readX rs2).toNat % 64))
    ∧ Writes (.shr rd rs1 rs2) s ((s.readX rs1).sshiftRight ((s.readX rs2).toNat % 64))

/-- R152 to R158: the compares by the signed order of the patterns. -/
def Obligations.ComparesFollowSignedOrder : Prop :=
  ∀ (s : State) (rd rs1 rs2 : Reg) (a b : Word), a = s.readX rs1 → b = s.readX rs2 →
    Writes (.cmp rd rs1 rs2) s (if b.slt a then 1#64 else if a.slt b then -1#64 else 0#64)
    ∧ Writes (.seq rd rs1 rs2) s (if a = b then 1#64 else 0#64)
    ∧ Writes (.sne rd rs1 rs2) s (if a = b then 0#64 else 1#64)
    ∧ Writes (.slt rd rs1 rs2) s (if a.slt b then 1#64 else 0#64)
    ∧ Writes (.sle rd rs1 rs2) s (if b.slt a then 0#64 else 1#64)
    ∧ Writes (.sgt rd rs1 rs2) s (if b.slt a then 1#64 else 0#64)
    ∧ Writes (.sge rd rs1 rs2) s (if a.slt b then 0#64 else 1#64)

/-- R159: how the compares determine one another, and that CMP follows the order of the denoted values r/2^F. -/
def Obligations.CompareResultsAgree : Prop :=
  ∀ (s : State) (rd ra rb : Reg), ∃ m lt eq le : Int,
    WritesInt (.cmp rd ra rb) s m ∧ WritesInt (.cmp rd rb ra) s (-m)
    ∧ WritesInt (.seq rd ra rb) s eq ∧ (eq = 1 ↔ m = 0) ∧ (eq = 0 ∨ eq = 1)
    ∧ WritesInt (.slt rd ra rb) s lt ∧ (lt = 1 ↔ m = -1) ∧ (lt = 0 ∨ lt = 1)
    ∧ WritesInt (.sle rd ra rb) s le ∧ (le = 1 ↔ lt = 1 ∨ eq = 1) ∧ (le = 0 ∨ le = 1)
    ∧ WritesInt (.sgt rd rb ra) s lt ∧ WritesInt (.sge rd rb ra) s le
    ∧ (m = -1 ∨ m = 0 ∨ m = 1)
    ∧ (m = -1 ↔ ((s.readX ra).toInt : ℚ) / 2 ^ s.cfg.fracBits < (s.readX rb).toInt / 2 ^ s.cfg.fracBits)

/-- R160: bit k of HASH, for k < 32, is bit k XOR bit k + 32 of the source, and the bits above copy bit 31. -/
def Obligations.HashFoldsTheHalves : Prop :=
  ∀ (s : State) (rd rs1 : Reg), ∃ h : Word, Writes (.hash rd rs1) s h
    ∧ (∀ k < 32, h.getLsbD k = ((s.readX rs1).getLsbD k ^^ (s.readX rs1).getLsbD (k + 32)))
    ∧ (∀ k, 32 ≤ k → k < 64 → h.getLsbD k = h.getLsbD 31)

/-! # Rounding -/

/-- R181, R183: FLOOR clears the fractional bits, which gives the greatest multiple of One at or below its operand; CEIL
writes the least multiple of One at or above its operand, saturated. -/
def Obligations.FloorMasksAndCeilRoundsUp : Prop :=
  ∀ (s : State) (rd rs1 : Reg) (a : Word), s.cfg.legal = true → a = s.readX rs1 →
    Writes (.floor rd rs1) s (a &&& ~~~BitVec.ofNat 64 (2 ^ s.cfg.fracBits - 1))
    ∧ (∃ n : Int, n * s.cfg.one ≤ a.toInt ∧ a.toInt < (n + 1) * s.cfg.one ∧ WritesInt (.floor rd rs1) s (n * s.cfg.one))
    ∧ ∃ n : Int, (n - 1) * s.cfg.one < a.toInt ∧ a.toInt ≤ n * s.cfg.one
      ∧ WritesInt (.ceil rd rs1) s (if maxRaw < n * s.cfg.one then maxRaw else n * s.cfg.one)

/-- R180, R185: ROUND writes the nearest multiple of One, saturated, a tie by the rule that RM selects. -/
def Obligations.RoundFollowsTieRule : Prop :=
  ∀ (s : State) (rd rs1 : Reg) (rm : BitVec 2) (a : Int), s.cfg.legal = true → a = (s.readX rs1).toInt →
    (rm = 0#2 → ∃ n, NearestEven a s.cfg.one n
      ∧ WritesInt (.round rd rs1 rm) s (if maxRaw < n * s.cfg.one then maxRaw else n * s.cfg.one))
    ∧ (rm = 1#2 → ∃ n, NearestAway a s.cfg.one n
      ∧ WritesInt (.round rd rs1 rm) s (if maxRaw < n * s.cfg.one then maxRaw else n * s.cfg.one))

/-- R188: ROUNDD scales by 10^d with saturation, rounds to a multiple of One by the tie rule, and divides by 10^d to nearest,
ties to even; d outside 0 to MAX_DECIMALS faults. -/
def Obligations.RounddScalesRoundsAndDivides : Prop :=
  ∀ (s : State) (rd rs1 rs2 : Reg) (rm : BitVec 2) (a d : Int), s.cfg.legal = true →
    a = (s.readX rs1).toInt → d = (s.readX rs2).toInt →
    (rm.toNat ≤ 1 → d < 0 ∨ (s.cfg.maxDecimals : Int) < d → Faults (.roundd rd rs1 rs2 rm) s .decRange)
    ∧ (rm.toNat ≤ 1 → 0 ≤ d → d ≤ s.cfg.maxDecimals →
      ∃ y k z n : Int, y = (if maxRaw < a * 10 ^ d.toNat then maxRaw
          else if a * 10 ^ d.toNat < minRaw then minRaw else a * 10 ^ d.toNat)
        ∧ (rm = 0#2 → NearestEven y s.cfg.one k) ∧ (rm = 1#2 → NearestAway y s.cfg.one k)
        ∧ z = (if maxRaw < k * s.cfg.one then maxRaw else k * s.cfg.one)
        ∧ NearestEven z (10 ^ d.toNat) n ∧ WritesInt (.roundd rd rs1 rs2 rm) s n)

/-- R189: FLOOR(a) ≤ a ≤ CEIL(a), and the difference is 0 or One but at the top of the range, where it is 2^F − 1. -/
def Obligations.FloorAndCeilBracketTheOperand : Prop :=
  ∀ (s : State) (rd rs1 : Reg) (a : Int), s.cfg.legal = true → a = (s.readX rs1).toInt →
    ∃ fl ce : Int, WritesInt (.floor rd rs1) s fl ∧ WritesInt (.ceil rd rs1) s ce
      ∧ minRaw ≤ fl ∧ fl ≤ a ∧ a ≤ ce ∧ ce ≤ maxRaw
      ∧ (fl = 2 ^ 63 - 2 ^ s.cfg.fracBits ∧ a ≠ fl → ce = maxRaw ∧ ce - fl = 2 ^ s.cfg.fracBits - 1)
      ∧ (¬(fl = 2 ^ 63 - 2 ^ s.cfg.fracBits ∧ a ≠ fl) → ce - fl = 0 ∨ ce - fl = 2 ^ s.cfg.fracBits)

/-! # Square root, logarithm and exponential -/

/-- R201: SQRT faults on a negative operand, else writes the integer nearest to √(a·2^F). -/
def Obligations.SqrtIsNearestRoot : Prop :=
  ∀ (s : State) (rd rs1 : Reg) (a : Int), s.cfg.legal = true → a = (s.readX rs1).toInt →
    (a < 0 → Faults (.sqrt rd rs1) s .sqrtNeg)
    ∧ (0 ≤ a → ∃ r, NearestRoot (a * s.cfg.one) r ∧ r ≤ maxRaw ∧ WritesInt (.sqrt rd rs1) s r)

/-- R204: LOG2 faults on a non-positive operand, else writes the logarithm of the algorithm, within
[−F·One, (63 − F)·One). -/
def Obligations.Log2NormalisesAndSquares : Prop :=
  ∀ (s : State) (rd rs1 : Reg) (a : Int), s.cfg.legal = true → a = (s.readX rs1).toInt →
    (a ≤ 0 → Faults (.log2 rd rs1) s .logNonpos)
    ∧ (0 < a → ∃ y, Log2Is s.cfg a y ∧ -(s.cfg.fracBits * s.cfg.one) ≤ y ∧ y < (63 - s.cfg.fracBits) * s.cfg.one
      ∧ WritesInt (.log2 rd rs1) s y)

/-- R207: LN is the rounded product of what LOG2 writes and CONST_LN2, never saturated. -/
def Obligations.LnScalesLog2 : Prop :=
  ∀ (s : State) (rd rs1 : Reg) (a : Int), s.cfg.legal = true → a = (s.readX rs1).toInt →
    (a ≤ 0 → Faults (.ln rd rs1) s .logNonpos)
    ∧ (0 < a → ∃ y n, Log2Is s.cfg a y ∧ RoundedProduct s.cfg y s.cfg.ln2 n ∧ minRaw ≤ n ∧ n ≤ maxRaw
      ∧ WritesInt (.ln rd rs1) s n)

/-- R210, R211: POW2 is One at 0, saturates from LOG2MAX on, and else is the series shifted by the integral part, or the
reciprocal of that for a negative operand. -/
def Obligations.Pow2SumsItsSeries : Prop :=
  ∀ (s : State) (rd rs1 : Reg) (a m : Int), s.cfg.legal = true → a = (s.readX rs1).toInt →
    m = (if a = minRaw then maxRaw else a.natAbs) →
    (a = 0 → WritesInt (.pow2 rd rs1) s s.cfg.one)
    ∧ (0 < a → s.cfg.log2Max ≤ m → WritesInt (.pow2 rd rs1) s maxRaw)
    ∧ (a < 0 → s.cfg.log2Max ≤ m → WritesInt (.pow2 rd rs1) s 0)
    ∧ (a ≠ 0 → m < s.cfg.log2Max → ∃ v w, Pow2SeriesIs s.cfg (m % s.cfg.one) v
      ∧ w = wrap64 (v * 2 ^ (m / s.cfg.one).toNat) ∧ w ≠ 0
      ∧ (0 < a → WritesInt (.pow2 rd rs1) s w)
      ∧ (a < 0 → ∃ n, Quotient s.cfg s.cfg.one w n ∧ WritesInt (.pow2 rd rs1) s (sat64 n)))

/-- R210, corner cases: POW2 is exact at every integral exponent below LOG2MAX; below −F the result is 0. -/
def Obligations.Pow2IsExactAtIntegers : Prop :=
  ∀ (s : State) (rd rs1 : Reg) (k : Nat), s.cfg.legal = true → k * s.cfg.one < s.cfg.log2Max →
    ((s.readX rs1).toInt = k * s.cfg.one → WritesInt (.pow2 rd rs1) s (2 ^ k * s.cfg.one))
    ∧ ((s.readX rs1).toInt = -(k * s.cfg.one) →
      WritesInt (.pow2 rd rs1) s (if k ≤ s.cfg.fracBits then 2 ^ (s.cfg.fracBits - k) else 0))

/-- R213: POW's shortcuts, e = 0 first, its two faults, and else what POW2 writes for the saturated product of the exponent
and the base's logarithm. -/
def Obligations.PowGoesThroughTheLogarithm : Prop :=
  ∀ (s : State) (rd rs1 rs2 : Reg) (b e : Int), s.cfg.legal = true →
    b = (s.readX rs1).toInt → e = (s.readX rs2).toInt →
    (e = 0 → WritesInt (.pow rd rs1 rs2) s s.cfg.one)
    ∧ (b = 0 → 0 < e → WritesInt (.pow rd rs1 rs2) s 0)
    ∧ (b = 0 → e < 0 → Faults (.pow rd rs1 rs2) s .divByZero)
    ∧ (b < 0 → e ≠ 0 → Faults (.pow rd rs1 rs2) s .logNonpos)
    ∧ (0 < b → e ≠ 0 → ∃ y n, Log2Is s.cfg b y ∧ RoundedProduct s.cfg e y n
      ∧ ∀ (s' : State) (r : Reg), s'.cfg = s.cfg → (s'.readX r).toInt = sat64 n →
        ∃ v, Writes (.pow2 rd r) s' v ∧ Writes (.pow rd rs1 rs2) s v)

/-! # Trigonometric functions -/

/-- R231 to R234: SIN completes at every angle with the kernel's value at the folded angle, in [−One, One]; it is 0 at 0 and
at multiples of PI, One at PI_2. The kernel between its fixed points is free: log entry 5. -/
def Obligations.SineFoldsTheAngle : Prop :=
  ∀ (s : State) (rd rs1 : Reg) (a : Int), s.cfg.legal = true → a = (s.readX rs1).toInt →
    ∃ v, SineIs s.cfg a v ∧ -s.cfg.one ≤ v ∧ v ≤ s.cfg.one ∧ WritesInt (.sin rd rs1) s v
      ∧ (a % s.cfg.pi = 0 → v = 0) ∧ (a % s.cfg.twoPi = s.cfg.piOver2 → v = s.cfg.one)
      ∧ (a % s.cfg.twoPi = s.cfg.twoPi - s.cfg.piOver2 → v = -s.cfg.one)

/-- R236, R237: COS(a) is the sine of the exact integer a + PI_2, even where that exceeds MaxValue; COS(0) is One. -/
def Obligations.CosineIsShiftedSine : Prop :=
  ∀ (s : State) (rd rs1 : Reg) (a : Int), s.cfg.legal = true → a = (s.readX rs1).toInt →
    ∃ v, SineIs s.cfg (a + s.cfg.piOver2) v ∧ WritesInt (.cos rd rs1) s v ∧ (a = 0 → v = s.cfg.one)

/-- R231, R238: TAN writes the free kernel's value at the reduced angle r: r is a modulo TWO_PI in [−PI, PI], with a's sign at
the ends. -/
def Obligations.TangentReducesTheAngle : Prop :=
  ∀ (s : State) (rd rs1 : Reg) (a : Int), s.cfg.legal = true → a = (s.readX rs1).toInt →
    ∃ r : Int, -s.cfg.pi ≤ r ∧ r ≤ s.cfg.pi ∧ a % s.cfg.twoPi = r % s.cfg.twoPi
      ∧ (r = s.cfg.pi → 0 < a) ∧ (r = -s.cfg.pi → a < 0)
      ∧ Writes (.tan rd rs1) s (Config.tanKernel s.cfg (BitVec.ofInt 64 r))

/-- R241: ASIN's domain, shortcuts, free kernel below Half, and above Half PI_2 minus what ACOS writes for |a|, mirrored. -/
def Obligations.ArcsineShortcutsKernelAndIdentity : Prop :=
  ∀ (s : State) (rd rs1 : Reg) (a : Int), s.cfg.legal = true → a = (s.readX rs1).toInt →
    (s.cfg.one < a ∨ a < -s.cfg.one → Faults (.asin rd rs1) s .trigDomain)
    ∧ (a = 0 → WritesInt (.asin rd rs1) s 0)
    ∧ (a = s.cfg.half → WritesInt (.asin rd rs1) s s.cfg.piOver6)
    ∧ (a = -s.cfg.half → WritesInt (.asin rd rs1) s (-s.cfg.piOver6))
    ∧ (a = s.cfg.one → WritesInt (.asin rd rs1) s s.cfg.piOver2)
    ∧ (a = -s.cfg.one → WritesInt (.asin rd rs1) s (-s.cfg.piOver2))
    ∧ (-s.cfg.half < a → a < s.cfg.half → a ≠ 0 →
      Writes (.asin rd rs1) s (Config.asinKernel s.cfg (BitVec.ofInt 64 a)))
    ∧ (∀ (s' : State) (r : Reg), s.cfg.half < |a| → |a| < s.cfg.one → s'.cfg = s.cfg → (s'.readX r).toInt = |a| →
      ∃ w : Word, Writes (.acos rd r) s' w
        ∧ WritesInt (.asin rd rs1) s
          (if a < 0 then sat64 (-sat64 (s.cfg.piOver2 - w.toInt)) else sat64 (s.cfg.piOver2 - w.toInt)))

/-- R243: ACOS's domain, shortcuts, and else the arctangent of √(1 − a²)/a, with PI added for a negative operand. -/
def Obligations.ArccosineThroughArctangent : Prop :=
  ∀ (s : State) (rd rs1 : Reg) (a : Int), s.cfg.legal = true → a = (s.readX rs1).toInt →
    (s.cfg.one < a ∨ a < -s.cfg.one → Faults (.acos rd rs1) s .trigDomain)
    ∧ (a = 0 → WritesInt (.acos rd rs1) s s.cfg.piOver2)
    ∧ (a = s.cfg.one → WritesInt (.acos rd rs1) s 0)
    ∧ (a = -s.cfg.one → WritesInt (.acos rd rs1) s s.cfg.pi)
    ∧ (-s.cfg.one < a → a < s.cfg.one → a ≠ 0 →
      ∃ m q n, RoundedProduct s.cfg a a m ∧ m ≤ s.cfg.one ∧ NearestRoot ((s.cfg.one - m) * s.cfg.one) q
        ∧ Quotient s.cfg q a n
        ∧ ∀ (s' : State) (r : Reg), s'.cfg = s.cfg → (s'.readX r).toInt = sat64 n →
          ∃ w : Word, Writes (.atan rd r) s' w
            ∧ WritesInt (.acos rd rs1) s (if a < 0 then sat64 (w.toInt + s.cfg.pi) else w.toInt))

/-- R245, R246: ATAN is 0 at 0, the series up to Half, PI_4 minus the series at (One − z)/(One + z) above it, and odd. -/
def Obligations.ArctangentSeriesAndIdentity : Prop :=
  ∀ (s : State) (rd rs1 : Reg) (a z : Int), s.cfg.legal = true → a = (s.readX rs1).toInt →
    z = (if a = minRaw then maxRaw else a.natAbs) →
    (a = 0 → WritesInt (.atan rd rs1) s 0)
    ∧ (a ≠ 0 → ∃ v, (z ≤ s.cfg.half → AtanSeriesIs s.cfg z v)
      ∧ (s.cfg.half < z → ∃ w u, Quotient s.cfg (s.cfg.one - z) (sat64 (s.cfg.one + z)) w ∧ AtanSeriesIs s.cfg w u
        ∧ v = sat64 (s.cfg.piOver4 - u))
      ∧ WritesInt (.atan rd rs1) s (if a < 0 then sat64 (-v) else v))

/-- R249: ATAN2 on the y axis, and else the arctangent of the saturated quotient, moved by ±PI to the left half-plane. -/
def Obligations.Arctangent2PicksTheQuadrant : Prop :=
  ∀ (s : State) (rd rs1 rs2 : Reg) (y x : Int), s.cfg.legal = true →
    y = (s.readX rs1).toInt → x = (s.readX rs2).toInt →
    (x = 0 → WritesInt (.atan2 rd rs1 rs2) s (if 0 < y then s.cfg.piOver2 else if y < 0 then -s.cfg.piOver2 else 0))
    ∧ (x ≠ 0 → ∃ n, Quotient s.cfg y x n
      ∧ ∀ (s' : State) (r : Reg), s'.cfg = s.cfg → (s'.readX r).toInt = sat64 n →
        ∃ w : Word, Writes (.atan rd r) s' w
          ∧ WritesInt (.atan2 rd rs1 rs2) s
            (if 0 < x then w.toInt else if 0 ≤ y then sat64 (w.toInt + s.cfg.pi) else sat64 (w.toInt - s.cfg.pi)))

/-- R234, R236, R250: SIN and COS write, up to sign, the kernel's values at the magnitudes to which a and a + PI_2 fold, and
the error of the identity sin² + cos² ≈ 1 at a is that of these two values. Modulo TWO_PI, it is 0 at 0 and at −PI_2, and,
when PI_2 is PI/2 rounded down, at PI and at PI − PI_2 too. That the squares are rounded products and their sum is exact
is the model's choice (log entry 8). -/
def Obligations.IdentityErrorIsTheKernelsAtFoldedAngles : Prop :=
  ∀ (s : State) (rd rd' rs1 : Reg) (a : Int), s.cfg.legal = true → a = (s.readX rs1).toInt →
    ∃ v w p q r r', WritesInt (.sin rd rs1) s v ∧ WritesInt (.cos rd' rs1) s w
      ∧ FoldsTo s.cfg a r ∧ v.natAbs = (sinPoly s.cfg r).natAbs
      ∧ FoldsTo s.cfg (a + s.cfg.piOver2) r' ∧ w.natAbs = (sinPoly s.cfg r').natAbs
      ∧ RoundedProduct s.cfg v v p ∧ RoundedProduct s.cfg w w q
      ∧ (identityError s.cfg a : Int) = |p + q - s.cfg.one|
      ∧ (a % s.cfg.twoPi = 0 ∨ a % s.cfg.twoPi = (-s.cfg.piOver2) % s.cfg.twoPi → p + q = s.cfg.one)
      ∧ (a % s.cfg.pi = 0 ∨ a % s.cfg.twoPi = (s.cfg.pi - s.cfg.piOver2) % s.cfg.twoPi →
          s.cfg.pi = 2 * s.cfg.piOver2 ∨ s.cfg.pi = 2 * s.cfg.piOver2 + 1 → p + q = s.cfg.one)
end

