-- ==== Sys2Proof/Laws/Decode.lean ====
section
/-! SUPPORT. The fields and the reserved bits of a packed command word, format by format (30_encoding.md R61 to R66):
every field reads back as it was packed, and the reserved bits are 0. -/

namespace Sys2Proof

/-- A field above the low part of a concatenation. -/
theorem field_above {a m : Nat} (x : BitVec a) (y : BitVec m) (k n : Nat) :
    (x ++ y).extractLsb' (m + k) n = x.extractLsb' k n := by
  apply BitVec.eq_of_getLsbD_eq
  intro i hi
  simp [BitVec.getLsbD_extractLsb', BitVec.getLsbD_append, Nat.add_assoc]

/-- The low part of a concatenation. -/
theorem field_here {a m : Nat} (x : BitVec a) (y : BitVec m) : (x ++ y).extractLsb' 0 m = y := by
  apply BitVec.eq_of_getLsbD_eq
  intro i hi
  simp [BitVec.getLsbD_append, hi]

theorem field_whole {a : Nat} (x : BitVec a) : x.extractLsb' 0 a = x := by simp

/-- A register field holds the register that was packed into it. -/
theorem toFin_of_field {w : CmdWord} {start : Nat} {r : Reg} (h : w.extractLsb' start 4 = BitVec.ofFin (w := 4) r) :
    (w.extractLsb' start 4).toFin = r := by rw [h]

/-! ## Format L -/

@[simp] theorem opOf_packL (op : BitVec 8) (rd : Reg) : opOf (packL op rd) = op :=
  (field_above (op ++ BitVec.ofFin (w := 4) rd) (0#20) 4 8).trans
    ((field_above (op) (BitVec.ofFin (w := 4) rd) 0 8).trans
    (field_whole op))

@[simp] theorem rdOf_packL (op : BitVec 8) (rd : Reg) : rdOf (packL op rd) = rd :=
  toFin_of_field (start := 20) ((field_above (op ++ BitVec.ofFin (w := 4) rd) (0#20) 0 4).trans
    (field_here (op) (BitVec.ofFin (w := 4) rd)))

@[simp] theorem reserved_packL (op : BitVec 8) (rd : Reg) : packL op rd &&& 0x000FFFFF#32 = 0#32 := by
  have hm : (0x000FFFFF#32 : CmdWord) = (0#8 ++ 0#4 ++ 0xFFFFF#20 : BitVec (8 + 4 + 20)) := by decide
  rw [hm]
  change ((op ++ BitVec.ofFin (w := 4) rd ++ 0#20) &&& (0#8 ++ 0#4 ++ 0xFFFFF#20) : BitVec (8 + 4 + 20)) = 0
  simp only [BitVec.and_append]
  simp

/-! ## Format K -/

@[simp] theorem opOf_packK (op : BitVec 8) (rd : Reg) (kidx : BitVec 5) : opOf (packK op rd kidx) = op :=
  (field_above (op ++ BitVec.ofFin (w := 4) rd ++ 0#15) (kidx) 19 8).trans
    ((field_above (op ++ BitVec.ofFin (w := 4) rd) (0#15) 4 8).trans
    ((field_above (op) (BitVec.ofFin (w := 4) rd) 0 8).trans
    (field_whole op)))

@[simp] theorem rdOf_packK (op : BitVec 8) (rd : Reg) (kidx : BitVec 5) : rdOf (packK op rd kidx) = rd :=
  toFin_of_field (start := 20) ((field_above (op ++ BitVec.ofFin (w := 4) rd ++ 0#15) (kidx) 15 4).trans
    ((field_above (op ++ BitVec.ofFin (w := 4) rd) (0#15) 0 4).trans
    (field_here (op) (BitVec.ofFin (w := 4) rd))))

@[simp] theorem kidxOf_packK (op : BitVec 8) (rd : Reg) (kidx : BitVec 5) : kidxOf (packK op rd kidx) = kidx :=
  field_here (op ++ BitVec.ofFin (w := 4) rd ++ 0#15) (kidx)

@[simp] theorem reserved_packK (op : BitVec 8) (rd : Reg) (kidx : BitVec 5) : packK op rd kidx &&& 0x000FFFE0#32 = 0#32 := by
  have hm : (0x000FFFE0#32 : CmdWord) = (0#8 ++ 0#4 ++ 0x7FFF#15 ++ 0#5 : BitVec (8 + 4 + 15 + 5)) := by decide
  rw [hm]
  change ((op ++ BitVec.ofFin (w := 4) rd ++ 0#15 ++ kidx) &&& (0#8 ++ 0#4 ++ 0x7FFF#15 ++ 0#5) : BitVec (8 + 4 + 15 + 5)) = 0
  simp only [BitVec.and_append]
  simp

/-! ## Format R2 -/

@[simp] theorem opOf_packR2 (op : BitVec 8) (rd : Reg) (rs1 : Reg) : opOf (packR2 op rd rs1) = op :=
  (field_above (op ++ BitVec.ofFin (w := 4) rd ++ BitVec.ofFin (w := 4) rs1) (0#16) 8 8).trans
    ((field_above (op ++ BitVec.ofFin (w := 4) rd) (BitVec.ofFin (w := 4) rs1) 4 8).trans
    ((field_above (op) (BitVec.ofFin (w := 4) rd) 0 8).trans
    (field_whole op)))

@[simp] theorem rdOf_packR2 (op : BitVec 8) (rd : Reg) (rs1 : Reg) : rdOf (packR2 op rd rs1) = rd :=
  toFin_of_field (start := 20) ((field_above (op ++ BitVec.ofFin (w := 4) rd ++ BitVec.ofFin (w := 4) rs1) (0#16) 4 4).trans
    ((field_above (op ++ BitVec.ofFin (w := 4) rd) (BitVec.ofFin (w := 4) rs1) 0 4).trans
    (field_here (op) (BitVec.ofFin (w := 4) rd))))

@[simp] theorem rs1Of_packR2 (op : BitVec 8) (rd : Reg) (rs1 : Reg) : rs1Of (packR2 op rd rs1) = rs1 :=
  toFin_of_field (start := 16) ((field_above (op ++ BitVec.ofFin (w := 4) rd ++ BitVec.ofFin (w := 4) rs1) (0#16) 0 4).trans
    (field_here (op ++ BitVec.ofFin (w := 4) rd) (BitVec.ofFin (w := 4) rs1)))

@[simp] theorem reserved_packR2 (op : BitVec 8) (rd : Reg) (rs1 : Reg) : packR2 op rd rs1 &&& 0x0000FFFF#32 = 0#32 := by
  have hm : (0x0000FFFF#32 : CmdWord) = (0#8 ++ 0#4 ++ 0#4 ++ 0xFFFF#16 : BitVec (8 + 4 + 4 + 16)) := by decide
  rw [hm]
  change ((op ++ BitVec.ofFin (w := 4) rd ++ BitVec.ofFin (w := 4) rs1 ++ 0#16) &&& (0#8 ++ 0#4 ++ 0#4 ++ 0xFFFF#16) : BitVec (8 + 4 + 4 + 16)) = 0
  simp only [BitVec.and_append]
  simp

/-! ## Format R3 -/

@[simp] theorem opOf_packR3 (op : BitVec 8) (rd : Reg) (rs1 : Reg) (rs2 : Reg) : opOf (packR3 op rd rs1 rs2) = op :=
  (field_above (op ++ BitVec.ofFin (w := 4) rd ++ BitVec.ofFin (w := 4) rs1 ++ BitVec.ofFin (w := 4) rs2) (0#12) 12 8).trans
    ((field_above (op ++ BitVec.ofFin (w := 4) rd ++ BitVec.ofFin (w := 4) rs1) (BitVec.ofFin (w := 4) rs2) 8 8).trans
    ((field_above (op ++ BitVec.ofFin (w := 4) rd) (BitVec.ofFin (w := 4) rs1) 4 8).trans
    ((field_above (op) (BitVec.ofFin (w := 4) rd) 0 8).trans
    (field_whole op))))

@[simp] theorem rdOf_packR3 (op : BitVec 8) (rd : Reg) (rs1 : Reg) (rs2 : Reg) : rdOf (packR3 op rd rs1 rs2) = rd :=
  toFin_of_field (start := 20) ((field_above (op ++ BitVec.ofFin (w := 4) rd ++ BitVec.ofFin (w := 4) rs1 ++ BitVec.ofFin (w := 4) rs2) (0#12) 8 4).trans
    ((field_above (op ++ BitVec.ofFin (w := 4) rd ++ BitVec.ofFin (w := 4) rs1) (BitVec.ofFin (w := 4) rs2) 4 4).trans
    ((field_above (op ++ BitVec.ofFin (w := 4) rd) (BitVec.ofFin (w := 4) rs1) 0 4).trans
    (field_here (op) (BitVec.ofFin (w := 4) rd)))))

@[simp] theorem rs1Of_packR3 (op : BitVec 8) (rd : Reg) (rs1 : Reg) (rs2 : Reg) : rs1Of (packR3 op rd rs1 rs2) = rs1 :=
  toFin_of_field (start := 16) ((field_above (op ++ BitVec.ofFin (w := 4) rd ++ BitVec.ofFin (w := 4) rs1 ++ BitVec.ofFin (w := 4) rs2) (0#12) 4 4).trans
    ((field_above (op ++ BitVec.ofFin (w := 4) rd ++ BitVec.ofFin (w := 4) rs1) (BitVec.ofFin (w := 4) rs2) 0 4).trans
    (field_here (op ++ BitVec.ofFin (w := 4) rd) (BitVec.ofFin (w := 4) rs1))))

@[simp] theorem rs2Of_packR3 (op : BitVec 8) (rd : Reg) (rs1 : Reg) (rs2 : Reg) : rs2Of (packR3 op rd rs1 rs2) = rs2 :=
  toFin_of_field (start := 12) ((field_above (op ++ BitVec.ofFin (w := 4) rd ++ BitVec.ofFin (w := 4) rs1 ++ BitVec.ofFin (w := 4) rs2) (0#12) 0 4).trans
    (field_here (op ++ BitVec.ofFin (w := 4) rd ++ BitVec.ofFin (w := 4) rs1) (BitVec.ofFin (w := 4) rs2)))

@[simp] theorem reserved_packR3 (op : BitVec 8) (rd : Reg) (rs1 : Reg) (rs2 : Reg) : packR3 op rd rs1 rs2 &&& 0x00000FFF#32 = 0#32 := by
  have hm : (0x00000FFF#32 : CmdWord) = (0#8 ++ 0#4 ++ 0#4 ++ 0#4 ++ 0xFFF#12 : BitVec (8 + 4 + 4 + 4 + 12)) := by decide
  rw [hm]
  change ((op ++ BitVec.ofFin (w := 4) rd ++ BitVec.ofFin (w := 4) rs1 ++ BitVec.ofFin (w := 4) rs2 ++ 0#12) &&& (0#8 ++ 0#4 ++ 0#4 ++ 0#4 ++ 0xFFF#12) : BitVec (8 + 4 + 4 + 4 + 12)) = 0
  simp only [BitVec.and_append]
  simp

/-! ## Format R2M -/

@[simp] theorem opOf_packR2M (op : BitVec 8) (rd : Reg) (rs1 : Reg) (rm : BitVec 2) : opOf (packR2M op rd rs1 rm) = op :=
  (field_above (op ++ BitVec.ofFin (w := 4) rd ++ BitVec.ofFin (w := 4) rs1 ++ 0#4 ++ rm) (0#10) 14 8).trans
    ((field_above (op ++ BitVec.ofFin (w := 4) rd ++ BitVec.ofFin (w := 4) rs1 ++ 0#4) (rm) 12 8).trans
    ((field_above (op ++ BitVec.ofFin (w := 4) rd ++ BitVec.ofFin (w := 4) rs1) (0#4) 8 8).trans
    ((field_above (op ++ BitVec.ofFin (w := 4) rd) (BitVec.ofFin (w := 4) rs1) 4 8).trans
    ((field_above (op) (BitVec.ofFin (w := 4) rd) 0 8).trans
    (field_whole op)))))

@[simp] theorem rdOf_packR2M (op : BitVec 8) (rd : Reg) (rs1 : Reg) (rm : BitVec 2) : rdOf (packR2M op rd rs1 rm) = rd :=
  toFin_of_field (start := 20) ((field_above (op ++ BitVec.ofFin (w := 4) rd ++ BitVec.ofFin (w := 4) rs1 ++ 0#4 ++ rm) (0#10) 10 4).trans
    ((field_above (op ++ BitVec.ofFin (w := 4) rd ++ BitVec.ofFin (w := 4) rs1 ++ 0#4) (rm) 8 4).trans
    ((field_above (op ++ BitVec.ofFin (w := 4) rd ++ BitVec.ofFin (w := 4) rs1) (0#4) 4 4).trans
    ((field_above (op ++ BitVec.ofFin (w := 4) rd) (BitVec.ofFin (w := 4) rs1) 0 4).trans
    (field_here (op) (BitVec.ofFin (w := 4) rd))))))

@[simp] theorem rs1Of_packR2M (op : BitVec 8) (rd : Reg) (rs1 : Reg) (rm : BitVec 2) : rs1Of (packR2M op rd rs1 rm) = rs1 :=
  toFin_of_field (start := 16) ((field_above (op ++ BitVec.ofFin (w := 4) rd ++ BitVec.ofFin (w := 4) rs1 ++ 0#4 ++ rm) (0#10) 6 4).trans
    ((field_above (op ++ BitVec.ofFin (w := 4) rd ++ BitVec.ofFin (w := 4) rs1 ++ 0#4) (rm) 4 4).trans
    ((field_above (op ++ BitVec.ofFin (w := 4) rd ++ BitVec.ofFin (w := 4) rs1) (0#4) 0 4).trans
    (field_here (op ++ BitVec.ofFin (w := 4) rd) (BitVec.ofFin (w := 4) rs1)))))

@[simp] theorem rmOf_packR2M (op : BitVec 8) (rd : Reg) (rs1 : Reg) (rm : BitVec 2) : rmOf (packR2M op rd rs1 rm) = rm :=
  (field_above (op ++ BitVec.ofFin (w := 4) rd ++ BitVec.ofFin (w := 4) rs1 ++ 0#4 ++ rm) (0#10) 0 2).trans
    (field_here (op ++ BitVec.ofFin (w := 4) rd ++ BitVec.ofFin (w := 4) rs1 ++ 0#4) (rm))

theorem reserved_packR2M (op : BitVec 8) (rd : Reg) (rs1 : Reg) (rm : BitVec 2) (h : rmLegal rm = true) :
    packR2M op rd rs1 rm &&& 0x0000FBFF#32 = 0#32 := by
  have hm : (0x0000FBFF#32 : CmdWord) = (0#8 ++ 0#4 ++ 0#4 ++ 0xF#4 ++ 2#2 ++ 0x3FF#10 : BitVec (8 + 4 + 4 + 4 + 2 + 10)) := by decide
  have hr : rm &&& 2#2 = 0#2 := by revert h; revert rm; decide
  rw [hm]
  change ((op ++ BitVec.ofFin (w := 4) rd ++ BitVec.ofFin (w := 4) rs1 ++ 0#4 ++ rm ++ 0#10) &&& (0#8 ++ 0#4 ++ 0#4 ++ 0xF#4 ++ 2#2 ++ 0x3FF#10) : BitVec (8 + 4 + 4 + 4 + 2 + 10)) = 0
  simp only [BitVec.and_append, hr]
  simp

/-! ## Format R3M -/

@[simp] theorem opOf_packR3M (op : BitVec 8) (rd : Reg) (rs1 : Reg) (rs2 : Reg) (rm : BitVec 2) : opOf (packR3M op rd rs1 rs2 rm) = op :=
  (field_above (op ++ BitVec.ofFin (w := 4) rd ++ BitVec.ofFin (w := 4) rs1 ++ BitVec.ofFin (w := 4) rs2 ++ rm) (0#10) 14 8).trans
    ((field_above (op ++ BitVec.ofFin (w := 4) rd ++ BitVec.ofFin (w := 4) rs1 ++ BitVec.ofFin (w := 4) rs2) (rm) 12 8).trans
    ((field_above (op ++ BitVec.ofFin (w := 4) rd ++ BitVec.ofFin (w := 4) rs1) (BitVec.ofFin (w := 4) rs2) 8 8).trans
    ((field_above (op ++ BitVec.ofFin (w := 4) rd) (BitVec.ofFin (w := 4) rs1) 4 8).trans
    ((field_above (op) (BitVec.ofFin (w := 4) rd) 0 8).trans
    (field_whole op)))))

@[simp] theorem rdOf_packR3M (op : BitVec 8) (rd : Reg) (rs1 : Reg) (rs2 : Reg) (rm : BitVec 2) : rdOf (packR3M op rd rs1 rs2 rm) = rd :=
  toFin_of_field (start := 20) ((field_above (op ++ BitVec.ofFin (w := 4) rd ++ BitVec.ofFin (w := 4) rs1 ++ BitVec.ofFin (w := 4) rs2 ++ rm) (0#10) 10 4).trans
    ((field_above (op ++ BitVec.ofFin (w := 4) rd ++ BitVec.ofFin (w := 4) rs1 ++ BitVec.ofFin (w := 4) rs2) (rm) 8 4).trans
    ((field_above (op ++ BitVec.ofFin (w := 4) rd ++ BitVec.ofFin (w := 4) rs1) (BitVec.ofFin (w := 4) rs2) 4 4).trans
    ((field_above (op ++ BitVec.ofFin (w := 4) rd) (BitVec.ofFin (w := 4) rs1) 0 4).trans
    (field_here (op) (BitVec.ofFin (w := 4) rd))))))

@[simp] theorem rs1Of_packR3M (op : BitVec 8) (rd : Reg) (rs1 : Reg) (rs2 : Reg) (rm : BitVec 2) : rs1Of (packR3M op rd rs1 rs2 rm) = rs1 :=
  toFin_of_field (start := 16) ((field_above (op ++ BitVec.ofFin (w := 4) rd ++ BitVec.ofFin (w := 4) rs1 ++ BitVec.ofFin (w := 4) rs2 ++ rm) (0#10) 6 4).trans
    ((field_above (op ++ BitVec.ofFin (w := 4) rd ++ BitVec.ofFin (w := 4) rs1 ++ BitVec.ofFin (w := 4) rs2) (rm) 4 4).trans
    ((field_above (op ++ BitVec.ofFin (w := 4) rd ++ BitVec.ofFin (w := 4) rs1) (BitVec.ofFin (w := 4) rs2) 0 4).trans
    (field_here (op ++ BitVec.ofFin (w := 4) rd) (BitVec.ofFin (w := 4) rs1)))))

@[simp] theorem rs2Of_packR3M (op : BitVec 8) (rd : Reg) (rs1 : Reg) (rs2 : Reg) (rm : BitVec 2) : rs2Of (packR3M op rd rs1 rs2 rm) = rs2 :=
  toFin_of_field (start := 12) ((field_above (op ++ BitVec.ofFin (w := 4) rd ++ BitVec.ofFin (w := 4) rs1 ++ BitVec.ofFin (w := 4) rs2 ++ rm) (0#10) 2 4).trans
    ((field_above (op ++ BitVec.ofFin (w := 4) rd ++ BitVec.ofFin (w := 4) rs1 ++ BitVec.ofFin (w := 4) rs2) (rm) 0 4).trans
    (field_here (op ++ BitVec.ofFin (w := 4) rd ++ BitVec.ofFin (w := 4) rs1) (BitVec.ofFin (w := 4) rs2))))

@[simp] theorem rmOf_packR3M (op : BitVec 8) (rd : Reg) (rs1 : Reg) (rs2 : Reg) (rm : BitVec 2) : rmOf (packR3M op rd rs1 rs2 rm) = rm :=
  (field_above (op ++ BitVec.ofFin (w := 4) rd ++ BitVec.ofFin (w := 4) rs1 ++ BitVec.ofFin (w := 4) rs2 ++ rm) (0#10) 0 2).trans
    (field_here (op ++ BitVec.ofFin (w := 4) rd ++ BitVec.ofFin (w := 4) rs1 ++ BitVec.ofFin (w := 4) rs2) (rm))

theorem reserved_packR3M (op : BitVec 8) (rd : Reg) (rs1 : Reg) (rs2 : Reg) (rm : BitVec 2) (h : rmLegal rm = true) :
    packR3M op rd rs1 rs2 rm &&& 0x00000BFF#32 = 0#32 := by
  have hm : (0x00000BFF#32 : CmdWord) = (0#8 ++ 0#4 ++ 0#4 ++ 0#4 ++ 2#2 ++ 0x3FF#10 : BitVec (8 + 4 + 4 + 4 + 2 + 10)) := by decide
  have hr : rm &&& 2#2 = 0#2 := by revert h; revert rm; decide
  rw [hm]
  change ((op ++ BitVec.ofFin (w := 4) rd ++ BitVec.ofFin (w := 4) rs1 ++ BitVec.ofFin (w := 4) rs2 ++ rm ++ 0#10) &&& (0#8 ++ 0#4 ++ 0#4 ++ 0#4 ++ 2#2 ++ 0x3FF#10) : BitVec (8 + 4 + 4 + 4 + 2 + 10)) = 0
  simp only [BitVec.and_append, hr]
  simp

end Sys2Proof
end

