-- ==== Sys2Proof/Laws/State.lean ====
section
/-! SUPPORT. One lemma for each field of State under each named update, and what a register reads as after a write. -/

namespace Sys2Proof.Machine

/-! ## writeX -/

@[simp] theorem State.writeX_x (s : State) (rd : Reg) (v : Word) : (s.writeX rd v).x = s.x.set rd v := rfl
@[simp] theorem State.writeX_runState (s : State) (rd : Reg) (v : Word) : (s.writeX rd v).runState = s.runState := rfl
@[simp] theorem State.writeX_status (s : State) (rd : Reg) (v : Word) : (s.writeX rd v).status = s.status := rfl
@[simp] theorem State.writeX_faultCmd (s : State) (rd : Reg) (v : Word) : (s.writeX rd v).faultCmd = s.faultCmd := rfl
@[simp] theorem State.writeX_litPending (s : State) (rd : Reg) (v : Word) : (s.writeX rd v).litPending = s.litPending := rfl
@[simp] theorem State.writeX_heldRd (s : State) (rd : Reg) (v : Word) : (s.writeX rd v).heldRd = s.heldRd := rfl
@[simp] theorem State.writeX_heldLow (s : State) (rd : Reg) (v : Word) : (s.writeX rd v).heldLow = s.heldLow := rfl
@[simp] theorem State.writeX_cfg (s : State) (rd : Reg) (v : Word) : (s.writeX rd v).cfg = s.cfg := rfl
@[simp] theorem State.writeX_wordsIssued (s : State) (rd : Reg) (v : Word) : (s.writeX rd v).wordsIssued = s.wordsIssued := rfl
@[simp] theorem State.writeX_written (s : State) (rd : Reg) (v : Word) : (s.writeX rd v).written = s.written.set rd true := rfl
@[simp] theorem State.writeX_inbox (s : State) (rd : Reg) (v : Word) : (s.writeX rd v).inbox = s.inbox := rfl
@[simp] theorem State.writeX_replies (s : State) (rd : Reg) (v : Word) : (s.writeX rd v).replies = s.replies := rfl
@[simp] theorem State.writeX_freeNext (s : State) (rd : Reg) (v : Word) : (s.writeX rd v).freeNext = s.freeNext := rfl

/-! ## faultEntry -/

@[simp] theorem faultEntry_x (c : Cause) (w0 : CmdWord) (s : State) : (faultEntry c w0 s).x = s.x := rfl
@[simp] theorem faultEntry_runState (c : Cause) (w0 : CmdWord) (s : State) : (faultEntry c w0 s).runState = .faulted := rfl
@[simp] theorem faultEntry_status (c : Cause) (w0 : CmdWord) (s : State) : (faultEntry c w0 s).status = faultStatus c := rfl
@[simp] theorem faultEntry_faultCmd (c : Cause) (w0 : CmdWord) (s : State) : (faultEntry c w0 s).faultCmd = w0 := rfl
@[simp] theorem faultEntry_litPending (c : Cause) (w0 : CmdWord) (s : State) : (faultEntry c w0 s).litPending = 0 := rfl
@[simp] theorem faultEntry_heldRd (c : Cause) (w0 : CmdWord) (s : State) : (faultEntry c w0 s).heldRd = s.heldRd := rfl
@[simp] theorem faultEntry_heldLow (c : Cause) (w0 : CmdWord) (s : State) : (faultEntry c w0 s).heldLow = s.heldLow := rfl
@[simp] theorem faultEntry_cfg (c : Cause) (w0 : CmdWord) (s : State) : (faultEntry c w0 s).cfg = s.cfg := rfl
@[simp] theorem faultEntry_wordsIssued (c : Cause) (w0 : CmdWord) (s : State) : (faultEntry c w0 s).wordsIssued = s.wordsIssued := rfl
@[simp] theorem faultEntry_written (c : Cause) (w0 : CmdWord) (s : State) : (faultEntry c w0 s).written = s.written := rfl
@[simp] theorem faultEntry_inbox (c : Cause) (w0 : CmdWord) (s : State) : (faultEntry c w0 s).inbox = s.inbox := rfl
@[simp] theorem faultEntry_replies (c : Cause) (w0 : CmdWord) (s : State) : (faultEntry c w0 s).replies = s.replies := rfl
@[simp] theorem faultEntry_freeNext (c : Cause) (w0 : CmdWord) (s : State) : (faultEntry c w0 s).freeNext = s.freeNext := rfl

/-! ## hostReset -/

@[simp] theorem hostReset_x (s : State) : (hostReset s).x = Vector.ofFn fun r : Fin 16 => Config.freeWord (s.freeNext + r.val) := rfl
@[simp] theorem hostReset_runState (s : State) : (hostReset s).runState = .run := rfl
@[simp] theorem hostReset_status (s : State) : (hostReset s).status = 0#32 := rfl
@[simp] theorem hostReset_faultCmd (s : State) : (hostReset s).faultCmd = 0#32 := rfl
@[simp] theorem hostReset_litPending (s : State) : (hostReset s).litPending = 0 := rfl
@[simp] theorem hostReset_heldRd (s : State) : (hostReset s).heldRd = s.heldRd := rfl
@[simp] theorem hostReset_heldLow (s : State) : (hostReset s).heldLow = s.heldLow := rfl
@[simp] theorem hostReset_cfg (s : State) : (hostReset s).cfg = s.cfg := rfl
@[simp] theorem hostReset_wordsIssued (s : State) : (hostReset s).wordsIssued = 0 := rfl
@[simp] theorem hostReset_written (s : State) : (hostReset s).written = Vector.replicate 16 false := rfl
@[simp] theorem hostReset_inbox (s : State) : (hostReset s).inbox = s.inbox := rfl
@[simp] theorem hostReset_replies (s : State) : (hostReset s).replies = s.replies := rfl
@[simp] theorem hostReset_freeNext (s : State) : (hostReset s).freeNext = s.freeNext + 16 := rfl

/-! ## placeWords -/

@[simp] theorem placeWords_x (s : State) (ws : List CmdWord) : (placeWords s ws).x = s.x := rfl
@[simp] theorem placeWords_runState (s : State) (ws : List CmdWord) : (placeWords s ws).runState = .run := rfl
@[simp] theorem placeWords_status (s : State) (ws : List CmdWord) : (placeWords s ws).status = 0#32 := rfl
@[simp] theorem placeWords_faultCmd (s : State) (ws : List CmdWord) : (placeWords s ws).faultCmd = 0#32 := rfl
@[simp] theorem placeWords_litPending (s : State) (ws : List CmdWord) : (placeWords s ws).litPending = 0 := rfl
@[simp] theorem placeWords_heldRd (s : State) (ws : List CmdWord) : (placeWords s ws).heldRd = s.heldRd := rfl
@[simp] theorem placeWords_heldLow (s : State) (ws : List CmdWord) : (placeWords s ws).heldLow = s.heldLow := rfl
@[simp] theorem placeWords_cfg (s : State) (ws : List CmdWord) : (placeWords s ws).cfg = s.cfg := rfl
@[simp] theorem placeWords_wordsIssued (s : State) (ws : List CmdWord) : (placeWords s ws).wordsIssued = s.wordsIssued := rfl
@[simp] theorem placeWords_written (s : State) (ws : List CmdWord) : (placeWords s ws).written = s.written := rfl
@[simp] theorem placeWords_inbox (s : State) (ws : List CmdWord) : (placeWords s ws).inbox = ws.map HostOp.issue ++ s.inbox := rfl
@[simp] theorem placeWords_replies (s : State) (ws : List CmdWord) : (placeWords s ws).replies = s.replies := rfl
@[simp] theorem placeWords_freeNext (s : State) (ws : List CmdWord) : (placeWords s ws).freeNext = s.freeNext := rfl

/-! ## Registers -/

@[simp] theorem readX_writeX_same (s : State) (rd : Reg) (v : Word) : (s.writeX rd v).readX rd = v := by
  simp [State.readX]

theorem readX_writeX_other (s : State) {rd r : Reg} (v : Word) (h : r ≠ rd) :
    (s.writeX rd v).readX r = s.readX r := by
  have h' : (rd : Nat) ≠ r := fun e => h (Fin.ext e.symm)
  simp [State.readX, h']

@[simp] theorem hasWritten_writeX_same (s : State) (rd : Reg) (v : Word) :
    (s.writeX rd v).hasWritten rd = true := by
  simp [State.hasWritten]

theorem hasWritten_writeX_other (s : State) {rd r : Reg} (v : Word) (h : r ≠ rd) :
    (s.writeX rd v).hasWritten r = s.hasWritten r := by
  have h' : (rd : Nat) ≠ r := fun e => h (Fin.ext e.symm)
  simp [State.hasWritten, h']

@[simp] theorem readX_faultEntry (c : Cause) (w0 : CmdWord) (s : State) (r : Reg) :
    (faultEntry c w0 s).readX r = s.readX r := rfl

@[simp] theorem hasWritten_faultEntry (c : Cause) (w0 : CmdWord) (s : State) (r : Reg) :
    (faultEntry c w0 s).hasWritten r = s.hasWritten r := rfl

/-- After `Reset()` a register holds a free value. -/
@[simp] theorem readX_hostReset (s : State) (r : Reg) :
    (hostReset s).readX r = Config.freeWord (s.freeNext + r.val) := by
  simp [State.readX]

@[simp] theorem hasWritten_hostReset (s : State) (r : Reg) : (hostReset s).hasWritten r = false := by
  simp [State.hasWritten]

end Sys2Proof.Machine
end

