-- ==== Sys2Proof/Laws/Ops.lean ====
section
/-! SUPPORT. What each shared operation of the machine does, said once: the two endings of a command with their frames,
and that every command ends in one of them. -/

namespace Sys2Proof.Machine

/-! ## The two endings -/

/-- The frame of `writeX`. -/
theorem wrote_writeX (s : State) (rd : Reg) (v : Word) : Wrote s (s.writeX rd v) rd v where
  value := readX_writeX_same s rd v
  otherRegisters _ h := readX_writeX_other s v h
  noted := hasWritten_writeX_same s rd v
  otherNotes _ h := hasWritten_writeX_other s v h
  runState := rfl
  status := rfl
  faultCmd := rfl
  litPending := rfl
  heldRd := rfl
  heldLow := rfl
  cfg := rfl
  wordsIssued := rfl
  inbox := rfl
  replies := rfl
  freeNext := rfl

@[simp] theorem statusFault_faultStatus (c : Cause) : statusFault (faultStatus c) = 1#1 := by
  cases c <;> decide

@[simp] theorem statusCause_faultStatus (c : Cause) : statusCause (faultStatus c) = c.code := by
  cases c <;> decide

theorem faultStatus_reservedLow (c : Cause) : (faultStatus c).extractLsb' 1 7 = 0#7 := by
  cases c <;> decide

theorem faultStatus_reservedHigh (c : Cause) : (faultStatus c).extractLsb' 16 16 = 0#16 := by
  cases c <;> decide

/-- The frame of fault entry (R273). -/
theorem tookFault_faultEntry (s : State) (c : Cause) (w0 : CmdWord) : TookFault s (faultEntry c w0 s) c w0 where
  fault := statusFault_faultStatus c
  cause := statusCause_faultStatus c
  reservedLow := faultStatus_reservedLow c
  reservedHigh := faultStatus_reservedHigh c
  faultCmd := rfl
  litPending := rfl
  runState := rfl
  registers _ := rfl
  notes _ := rfl
  heldRd := rfl
  heldLow := rfl
  cfg := rfl
  wordsIssued := rfl
  inbox := rfl
  replies := rfl
  freeNext := rfl

@[simp] theorem complete_ok (i : Instr) (rd : Reg) (v : Int) (s : State) :
    complete i rd (.ok v) s = .next (s.writeX rd (BitVec.ofInt 64 v)) := rfl

@[simp] theorem complete_error (i : Instr) (rd : Reg) (c : Cause) (s : State) :
    complete i rd (.error c) s = .next (faultEntry c (encodeHead i) s) := rfl

@[simp] theorem finish_eq (rd : Reg) (v : Int) (s : State) :
    finish rd v s = .next (s.writeX rd (BitVec.ofInt 64 v)) := rfl

/-- Everything `complete` can do. -/
theorem complete_cases (i : Instr) (rd : Reg) (result : Result) (s : State) :
    (∃ v, result = .ok v ∧ complete i rd result s = .next (s.writeX rd (BitVec.ofInt 64 v)))
      ∨ ∃ c, result = .error c ∧ complete i rd result s = .next (faultEntry c (encodeHead i) s) := by
  cases result with
  | ok v => exact .inl ⟨v, rfl, rfl⟩
  | error c => exact .inr ⟨c, rfl, rfl⟩

/-- What `WritesInt` needs of a command that ends in `complete`. -/
theorem writesInt_of_complete {i : Instr} {s : State} {n : Int} (result : Result)
    (he : exec i s = complete i i.dest result s) (h : result = .ok n) : WritesInt i s n :=
  ⟨_, by rw [he, h]; rfl, wrote_writeX s i.dest _⟩

/-- What `Faults` needs of a command that ends in `complete`. -/
theorem faults_of_complete {i : Instr} {s : State} {c : Cause} (result : Result)
    (he : exec i s = complete i i.dest result s) (h : result = .error c) : Faults i s c :=
  ⟨_, by rw [he, h]; rfl, tookFault_faultEntry s c _⟩

/-- What `Writes` needs of a command that only writes. -/
theorem writes_of_writeX {i : Instr} {s : State} {v : Word} (he : exec i s = .next (s.writeX i.dest v)) :
    Writes i s v :=
  ⟨_, he, wrote_writeX s i.dest v⟩

/-! ## Every command ends in one of the two ways -/

/-- The inversion of `exec`: a command writes its destination, or takes fault entry with its own first word. -/
theorem exec_cases (i : Instr) (s : State) :
    (∃ v, exec i s = .next (s.writeX i.dest v)) ∨ ∃ c, exec i s = .next (faultEntry c (encodeHead i) s) := by
  have key : ∀ result : Result, exec i s = complete i i.dest result s →
      (∃ v, exec i s = .next (s.writeX i.dest v)) ∨ ∃ c, exec i s = .next (faultEntry c (encodeHead i) s) := by
    intro result he
    obtain ⟨v, -, h⟩ | ⟨c, -, h⟩ := complete_cases i i.dest result s
    · exact .inl ⟨_, he.trans h⟩
    · exact .inr ⟨c, he.trans h⟩
  cases i <;> first | exact .inl ⟨_, rfl⟩ | exact key _ rfl

end Sys2Proof.Machine
end

