-- ==== Sys2Proof/Laws/PerInstr.lean ====
section
/-! SUPPORT. The families of statements made instruction by instruction (LAWS.json). `HeadRoundTrip`: the first word of a
well-formed command decodes to that command (30_encoding.md R70), LDR's to its wait for a literal. -/

namespace Sys2Proof.Laws.HeadRoundTrip

/-- What the first word of the command says. -/
def headOf : Instr → Head
  | .ldr rd _ => .literal rd
  | i => .command i

/-- The first word of a well-formed command decodes to it. -/
def Statement (i : Instr) : Prop := i.wellFormed = true → decodeHead (encodeHead i) = .ok (headOf i)

theorem ldr (rd : Reg) (literal : Word) : Statement (.ldr rd literal) := by
  intro _
  simp [decodeHead, encodeHead, decodeL, headOf]

theorem ldc (rd : Reg) (kidx : BitVec 5) : Statement (.ldc rd kidx) := by
  intro h
  have h' : kidxLegal kidx = true := h
  simp [decodeHead, encodeHead, decodeK, headOf, h']

theorem mov (rd rs1 : Reg) : Statement (.mov rd rs1) := by
  intro _
  simp [decodeHead, encodeHead, decodeR2, headOf]

theorem fromi32 (rd rs1 : Reg) : Statement (.fromi32 rd rs1) := by
  intro _
  simp [decodeHead, encodeHead, decodeR2, headOf]

theorem fromf64 (rd rs1 : Reg) : Statement (.fromf64 rd rs1) := by
  intro _
  simp [decodeHead, encodeHead, decodeR2, headOf]

theorem tof64 (rd rs1 : Reg) : Statement (.tof64 rd rs1) := by
  intro _
  simp [decodeHead, encodeHead, decodeR2, headOf]

theorem tof32 (rd rs1 : Reg) : Statement (.tof32 rd rs1) := by
  intro _
  simp [decodeHead, encodeHead, decodeR2, headOf]

theorem toint (rd rs1 : Reg) : Statement (.toint rd rs1) := by
  intro _
  simp [decodeHead, encodeHead, decodeR2, headOf]

theorem add (rd rs1 rs2 : Reg) : Statement (.add rd rs1 rs2) := by
  intro _
  simp [decodeHead, encodeHead, decodeR3, headOf]

theorem sub (rd rs1 rs2 : Reg) : Statement (.sub rd rs1 rs2) := by
  intro _
  simp [decodeHead, encodeHead, decodeR3, headOf]

theorem mul (rd rs1 rs2 : Reg) : Statement (.mul rd rs1 rs2) := by
  intro _
  simp [decodeHead, encodeHead, decodeR3, headOf]

theorem mulw (rd rs1 rs2 : Reg) : Statement (.mulw rd rs1 rs2) := by
  intro _
  simp [decodeHead, encodeHead, decodeR3, headOf]

theorem div (rd rs1 rs2 : Reg) : Statement (.div rd rs1 rs2) := by
  intro _
  simp [decodeHead, encodeHead, decodeR3, headOf]

theorem mod (rd rs1 rs2 : Reg) : Statement (.mod rd rs1 rs2) := by
  intro _
  simp [decodeHead, encodeHead, decodeR3, headOf]

theorem neg (rd rs1 : Reg) : Statement (.neg rd rs1) := by
  intro _
  simp [decodeHead, encodeHead, decodeR2, headOf]

theorem abs (rd rs1 : Reg) : Statement (.abs rd rs1) := by
  intro _
  simp [decodeHead, encodeHead, decodeR2, headOf]

theorem shl (rd rs1 rs2 : Reg) : Statement (.shl rd rs1 rs2) := by
  intro _
  simp [decodeHead, encodeHead, decodeR3, headOf]

theorem shr (rd rs1 rs2 : Reg) : Statement (.shr rd rs1 rs2) := by
  intro _
  simp [decodeHead, encodeHead, decodeR3, headOf]

theorem cmp (rd rs1 rs2 : Reg) : Statement (.cmp rd rs1 rs2) := by
  intro _
  simp [decodeHead, encodeHead, decodeR3, headOf]

theorem seq (rd rs1 rs2 : Reg) : Statement (.seq rd rs1 rs2) := by
  intro _
  simp [decodeHead, encodeHead, decodeR3, headOf]

theorem sne (rd rs1 rs2 : Reg) : Statement (.sne rd rs1 rs2) := by
  intro _
  simp [decodeHead, encodeHead, decodeR3, headOf]

theorem slt (rd rs1 rs2 : Reg) : Statement (.slt rd rs1 rs2) := by
  intro _
  simp [decodeHead, encodeHead, decodeR3, headOf]

theorem sle (rd rs1 rs2 : Reg) : Statement (.sle rd rs1 rs2) := by
  intro _
  simp [decodeHead, encodeHead, decodeR3, headOf]

theorem sgt (rd rs1 rs2 : Reg) : Statement (.sgt rd rs1 rs2) := by
  intro _
  simp [decodeHead, encodeHead, decodeR3, headOf]

theorem sge (rd rs1 rs2 : Reg) : Statement (.sge rd rs1 rs2) := by
  intro _
  simp [decodeHead, encodeHead, decodeR3, headOf]

theorem hash (rd rs1 : Reg) : Statement (.hash rd rs1) := by
  intro _
  simp [decodeHead, encodeHead, decodeR2, headOf]

theorem floor (rd rs1 : Reg) : Statement (.floor rd rs1) := by
  intro _
  simp [decodeHead, encodeHead, decodeR2, headOf]

theorem ceil (rd rs1 : Reg) : Statement (.ceil rd rs1) := by
  intro _
  simp [decodeHead, encodeHead, decodeR2, headOf]

theorem round (rd rs1 : Reg) (rm : BitVec 2) : Statement (.round rd rs1 rm) := by
  intro h
  simp [decodeHead, encodeHead, decodeR2M, headOf, reserved_packR2M 0x32#8 rd rs1 rm h]

theorem roundd (rd rs1 rs2 : Reg) (rm : BitVec 2) : Statement (.roundd rd rs1 rs2 rm) := by
  intro h
  simp [decodeHead, encodeHead, decodeR3M, headOf, reserved_packR3M 0x33#8 rd rs1 rs2 rm h]

theorem sqrt (rd rs1 : Reg) : Statement (.sqrt rd rs1) := by
  intro _
  simp [decodeHead, encodeHead, decodeR2, headOf]

theorem log2 (rd rs1 : Reg) : Statement (.log2 rd rs1) := by
  intro _
  simp [decodeHead, encodeHead, decodeR2, headOf]

theorem ln (rd rs1 : Reg) : Statement (.ln rd rs1) := by
  intro _
  simp [decodeHead, encodeHead, decodeR2, headOf]

theorem pow2 (rd rs1 : Reg) : Statement (.pow2 rd rs1) := by
  intro _
  simp [decodeHead, encodeHead, decodeR2, headOf]

theorem pow (rd rs1 rs2 : Reg) : Statement (.pow rd rs1 rs2) := by
  intro _
  simp [decodeHead, encodeHead, decodeR3, headOf]

theorem sin (rd rs1 : Reg) : Statement (.sin rd rs1) := by
  intro _
  simp [decodeHead, encodeHead, decodeR2, headOf]

theorem cos (rd rs1 : Reg) : Statement (.cos rd rs1) := by
  intro _
  simp [decodeHead, encodeHead, decodeR2, headOf]

theorem tan (rd rs1 : Reg) : Statement (.tan rd rs1) := by
  intro _
  simp [decodeHead, encodeHead, decodeR2, headOf]

theorem asin (rd rs1 : Reg) : Statement (.asin rd rs1) := by
  intro _
  simp [decodeHead, encodeHead, decodeR2, headOf]

theorem acos (rd rs1 : Reg) : Statement (.acos rd rs1) := by
  intro _
  simp [decodeHead, encodeHead, decodeR2, headOf]

theorem atan (rd rs1 : Reg) : Statement (.atan rd rs1) := by
  intro _
  simp [decodeHead, encodeHead, decodeR2, headOf]

theorem atan2 (rd rs1 rs2 : Reg) : Statement (.atan2 rd rs1 rs2) := by
  intro _
  simp [decodeHead, encodeHead, decodeR3, headOf]

end Sys2Proof.Laws.HeadRoundTrip
end

