-- ==== Sys2Proof/Laws/Prim.lean ====
section
/-! SUPPORT. What the integer primitives of 00_scope.md R9 give, said once: the range and the fixed points of `sat64` and
`wrap64`, the nearest quotient, and the integer square root. -/

namespace Sys2Proof.Machine

theorem pow2_pos (n : Nat) : 0 < pow2 n := by
  unfold pow2; positivity

theorem pow2_succ (n : Nat) : pow2 (n + 1) = 2 * pow2 n := by
  simp only [pow2, pow_succ]; ring

/-! ## Saturation and wrapping -/

theorem sat64_range (v : Int) : minRaw ≤ sat64 v ∧ sat64 v ≤ maxRaw := by
  simp only [sat64, minRaw, maxRaw]; split_ifs <;> omega

theorem sat64_of_range {v : Int} (h : minRaw ≤ v) (h' : v ≤ maxRaw) : sat64 v = v := by
  simp only [sat64]; split_ifs <;> omega

theorem wrap64_range (v : Int) : minRaw ≤ wrap64 v ∧ wrap64 v ≤ maxRaw := by
  simp only [wrap64, Int.bmod_def, minRaw, maxRaw]; split_ifs <;> omega

theorem wrap64_of_range {v : Int} (h : minRaw ≤ v) (h' : v ≤ maxRaw) : wrap64 v = v := by
  simp only [minRaw, maxRaw] at h h'
  simp only [wrap64, Int.bmod_def]; split_ifs <;> omega

/-- A raw value survives its way through a register. -/
theorem toInt_ofInt_of_range {v : Int} (h : minRaw ≤ v) (h' : v ≤ maxRaw) : (BitVec.ofInt 64 v).toInt = v := by
  rw [BitVec.toInt_ofInt]
  exact wrap64_of_range h h'

/-- The pattern of a value and of its wrapped value are the same. -/
theorem ofInt_wrap64 (v : Int) : BitVec.ofInt 64 (wrap64 v) = BitVec.ofInt 64 v := by
  apply BitVec.eq_of_toInt_eq
  rw [toInt_ofInt_of_range (wrap64_range v).1 (wrap64_range v).2, BitVec.toInt_ofInt]
  rfl

/-! ## The nearest quotient -/

/-- `rneDiv n d` is the integer nearest to n/d, and even at a tie. -/
theorem rneDiv_nearest (n : Int) {d : Int} (hd : 0 < d) :
    2 * (n - rneDiv n d * d) ≤ d ∧ -d ≤ 2 * (n - rneDiv n d * d)
      ∧ (2 * (n - rneDiv n d * d) = d ∨ 2 * (n - rneDiv n d * d) = -d → rneDiv n d % 2 = 0) := by
  have hm : n % d + d * (n / d) = n := Int.emod_add_mul_ediv n d
  have h0 := Int.emod_nonneg n hd.ne'
  have h1 := Int.emod_lt_of_pos n hd
  have hq : n = n / d * d + n % d := by rw [Int.mul_comm]; omega
  simp only [rneDiv]
  generalize n / d = q at *
  generalize n % d = r at *
  have e1 : n - q * d = r := by omega
  have e2 : n - (q + 1) * d = r - d := by rw [Int.add_mul]; omega
  split_ifs <;> simp only [e1, e2] <;> omega

/-- Nothing else is nearest, and even at a tie. -/
theorem rneDiv_unique {n d q : Int} (hd : 0 < d) (h1 : 2 * (n - q * d) ≤ d) (h2 : -d ≤ 2 * (n - q * d))
    (h3 : 2 * (n - q * d) = d ∨ 2 * (n - q * d) = -d → q % 2 = 0) : q = rneDiv n d := by
  obtain ⟨g1, g2, g3⟩ := rneDiv_nearest n hd
  generalize rneDiv n d = p at *
  have hle : ∀ k : Int, q = p + k → k = 0 := by
    intro k hk
    subst hk
    have e : n - (p + k) * d = (n - p * d) - k * d := by ring
    rw [e] at h1 h2 h3
    have hk1 : k * d ≤ d := by omega
    have hk2 : -d ≤ k * d := by omega
    have u1 : k ≤ 1 := by
      by_contra hc
      have : 2 * d ≤ k * d := Int.mul_le_mul_of_nonneg_right (by omega) hd.le
      omega
    have u2 : -1 ≤ k := by
      by_contra hc
      have : k * d ≤ -2 * d := Int.mul_le_mul_of_nonneg_right (by omega) hd.le
      omega
    have : k = -1 ∨ k = 0 ∨ k = 1 := by omega
    rcases this with rfl | rfl | rfl
    · omega
    · rfl
    · omega
  have := hle (q - p) (by omega)
  omega

/-! ## The integer square root -/

theorem isqrtBits_spec (n : Nat) : ∀ k r : Nat, r * r ≤ n → n < (r + 2 ^ k) * (r + 2 ^ k) →
    isqrtBits n k r * isqrtBits n k r ≤ n ∧ n < (isqrtBits n k r + 1) * (isqrtBits n k r + 1)
  | 0, r, h, h' => by simpa [isqrtBits] using ⟨h, h'⟩
  | k + 1, r, h, h' => by
    simp only [isqrtBits]
    split_ifs with hc
    · refine isqrtBits_spec n k _ hc ?_
      rw [Nat.add_assoc, ← Nat.two_mul, ← Nat.pow_succ']; exact h'
    · exact isqrtBits_spec n k _ h (by omega)

/-- `isqrt n` is floor(sqrt n). -/
theorem isqrt_spec (n : Nat) : isqrt n * isqrt n ≤ n ∧ n < (isqrt n + 1) * (isqrt n + 1) := by
  refine isqrtBits_spec n _ 0 (by simp) ?_
  have h : n < 2 ^ (n.log2 + 1) := Nat.lt_log2_self
  have : 2 ^ (n.log2 + 1) ≤ 2 ^ ((n.log2 / 2 + 1) + (n.log2 / 2 + 1)) := Nat.pow_le_pow_right (by decide) (by omega)
  rw [Nat.zero_add, ← Nat.pow_add]
  omega

end Sys2Proof.Machine
end

