-- ==== Sys2Proof/Laws/Trigonometric.lean ====
section
/-! SUPPORT. Constraint (iv) of 44_trigonometric.md R234: the kernel meets it on the sample domain with TRIG_K, the form of
`trigK` shuts out no tolerance that the kernel meets it with, and the angle 0 costs nothing. -/

namespace Sys2Proof.Machine

theorem identityError_le_worst (c : Config) {x : Word} {xs : List Word} (h : x ∈ xs) :
    identityError c (rawOf x) ≤ worstIdentityError c xs := by
  induction xs with
  | nil => cases h
  | cons y ys ih =>
    rcases List.mem_cons.mp h with rfl | h
    · exact Nat.le_max_left _ _
    · exact (ih h).trans (Nat.le_max_right _ _)

theorem worst_le_of_forall (c : Config) (k : Nat) {xs : List Word} (h : ∀ x ∈ xs, identityError c (rawOf x) ≤ k) :
    worstIdentityError c xs ≤ k := by
  induction xs with
  | nil => exact Nat.zero_le k
  | cons y ys ih =>
    exact Nat.max_le.mpr ⟨h y List.mem_cons_self, ih fun x hx => h x (List.mem_cons_of_mem _ hx)⟩

/-- The kernel meets (iv) at every angle of the sample domain. -/
theorem sineIdentityAt_of_sample (c : Config) {x : Word} (h : x ∈ trigSamples c) : SineIdentityAt c (rawOf x) := by
  have := identityError_le_worst c h
  simp only [SineIdentityAt, Config.epsilon, trigK]
  omega

/-- A tolerance with which the kernel meets (iv) on the sample domain is the worst error there and some slack, as `trigK`
is. -/
theorem exists_slack_of_tolerance (c : Config) (k : Nat)
    (h : ∀ x ∈ trigSamples c, identityError c (rawOf x) ≤ k) :
    ∃ slack, k = worstIdentityError c (trigSamples c) + slack :=
  Nat.exists_eq_add_of_le (worst_le_of_forall c k h)

/-- MUL is exact at 0 and at One. -/
theorem fxMul_zero_one (c : Config) (h : c.legal = true) : fxMul c 0 0 = 0 ∧ fxMul c c.one c.one = c.one := by
  simp only [Config.legal, decide_eq_true_eq] at h
  obtain ⟨f, hf⟩ : ∃ f, c.fracBits = f + 1 := ⟨c.fracBits - 1, by omega⟩
  have hf' : f ≤ 29 := by omega
  have h1 := pow2_pos f
  have h2 : pow2 f ≤ 2 ^ 29 := by simpa [pow2] using pow_le_pow_right₀ (by norm_num : (1 : ℤ) ≤ 2) hf'
  simp only [fxMul, roundedProduct, Config.one, Config.half, hf, Nat.add_sub_cancel, pow2_succ]
  have e0 : (0 * 0 + pow2 f) / (2 * pow2 f) = 0 := Int.ediv_eq_zero_of_lt (by omega) (by omega)
  have e1 : (2 * pow2 f * (2 * pow2 f) + pow2 f) / (2 * pow2 f) = 2 * pow2 f := by
    rw [Int.add_comm, Int.add_mul_ediv_right _ _ (by omega), Int.ediv_eq_zero_of_lt (by omega) (by omega), Int.zero_add]
  rw [e0, e1]
  constructor <;> exact sat64_of_range (by simp only [minRaw]; omega) (by simp only [maxRaw]; omega)

/-- Properties (i) and (ii) seen through the wrappers: SIN(0) is 0 and COS(0) is One. -/
theorem sinCore_zero_fxCos_zero (c : Config) (h : c.legal = true) : sinCore c 0 = 0 ∧ fxCos c 0 = c.one := by
  simp only [Config.legal, decide_eq_true_eq] at h
  obtain ⟨-, -, hp, -, h0, h1, -⟩ := h
  have hr : c.piOver2.tmod c.twoPi = c.piOver2 := Int.tmod_eq_of_lt (by omega) (by omega)
  constructor
  · have e : trigReduce c 0 = 0 := by simp only [trigReduce, Int.zero_tmod]; split_ifs <;> omega
    simp [sinCore, trigFold, e, sinPoly, show ¬c.piOver2 < 0 by omega]
  · have e : trigReduce c c.piOver2 = c.piOver2 := by simp only [trigReduce, hr]; split_ifs <;> omega
    simp [fxCos, sinCore, trigFold, e, sinPoly, show ¬c.piOver2 < 0 by omega, show c.piOver2 ≠ 0 by omega]

/-- In a legal configuration the identity is exact at 0, so that angle shuts out no kernel and no tolerance. -/
theorem identityError_zero (c : Config) (h : c.legal = true) : identityError c 0 = 0 := by
  simp [identityError, sinCore_zero_fxCos_zero c h, fxMul_zero_one c h]

end Sys2Proof.Machine
end

