-- ==== Sys2Proof/Tests/Slice0.lean ====
section
/-! SUPPORT. Tests of the model: the checks of WellFormed, a word of every command written out from 30_encoding.md, one step
of each command with the result that 95_test_vectors.md or the command's rule gives, and for every claim with hypotheses a
witness that meets them, clause by clause. -/

open Sys2Proof Sys2Proof.Machine Sys2Proof.Claims

namespace Sys2Proof.Tests

/-! ## WellFormed refuses -/

theorem test_wellFormed_ldc_index_17 : (Instr.ldc 1 17#5).wellFormed = false := by decide
theorem test_wellFormed_ldc_index_16 : (Instr.ldc 1 16#5).wellFormed = true := by decide
theorem test_wellFormed_round_rm_2 : (Instr.round 1 2 2#2).wellFormed = false := by decide
theorem test_wellFormed_roundd_rm_3 : (Instr.roundd 1 2 3 3#2).wellFormed = false := by decide

/-! ## A word of every command, from the tables of 30_encoding.md R61 to R68, and the words of 95_test_vectors.md -/

theorem test_decode_ldr :
    decode [0x01100000#32, 0x00000001#32, 0x00000002#32, 0x03210000#32]
      = .ok (.ldr 1 0x0000000200000001#64, [0x03210000#32]) := by decide
theorem test_decode_representation :
    decode [0x02100004#32] = .ok (.ldc 1 4, []) ∧ decode [0x03210000#32] = .ok (.mov 2 1, [])
    ∧ decode [0x04120000#32] = .ok (.fromi32 1 2, []) ∧ decode [0x05120000#32] = .ok (.fromf64 1 2, [])
    ∧ decode [0x06630000#32] = .ok (.tof64 6 3, []) ∧ decode [0x07120000#32] = .ok (.tof32 1 2, [])
    ∧ decode [0x08EF0000#32] = .ok (.toint 14 15, []) := by decide
theorem test_decode_arithmetic :
    decode [0x10123000#32] = .ok (.add 1 2 3, []) ∧ decode [0x11123000#32] = .ok (.sub 1 2 3, [])
    ∧ decode [0x12423000#32] = .ok (.mul 4 2 3, []) ∧ decode [0x13744000#32] = .ok (.mulw 7 4 4, [])
    ∧ decode [0x14312000#32] = .ok (.div 3 1 2, []) ∧ decode [0x15123000#32] = .ok (.mod 1 2 3, [])
    ∧ decode [0x16540000#32] = .ok (.neg 5 4, []) ∧ decode [0x17640000#32] = .ok (.abs 6 4, [])
    ∧ decode [0x18123000#32] = .ok (.shl 1 2 3, []) ∧ decode [0x19123000#32] = .ok (.shr 1 2 3, []) := by decide
theorem test_decode_compare :
    decode [0x20123000#32] = .ok (.cmp 1 2 3, []) ∧ decode [0x21756000#32] = .ok (.seq 7 5 6, [])
    ∧ decode [0x22123000#32] = .ok (.sne 1 2 3, []) ∧ decode [0x23123000#32] = .ok (.slt 1 2 3, [])
    ∧ decode [0x24123000#32] = .ok (.sle 1 2 3, []) ∧ decode [0x25123000#32] = .ok (.sgt 1 2 3, [])
    ∧ decode [0x26123000#32] = .ok (.sge 1 2 3, []) ∧ decode [0x27120000#32] = .ok (.hash 1 2, []) := by decide
theorem test_decode_rounding :
    decode [0x30120000#32] = .ok (.floor 1 2, []) ∧ decode [0x31120000#32] = .ok (.ceil 1 2, [])
    ∧ decode [0x32120400#32] = .ok (.round 1 2 1, []) ∧ decode [0x33312000#32] = .ok (.roundd 3 1 2 0, [])
    ∧ decode [0x33412400#32] = .ok (.roundd 4 1 2 1, []) := by decide
theorem test_decode_elementary :
    decode [0x40110000#32] = .ok (.sqrt 1 1, []) ∧ decode [0x41310000#32] = .ok (.log2 3 1, [])
    ∧ decode [0x42120000#32] = .ok (.ln 1 2, []) ∧ decode [0x43540000#32] = .ok (.pow2 5 4, [])
    ∧ decode [0x44612000#32] = .ok (.pow 6 1 2, []) := by decide
theorem test_decode_trigonometric :
    decode [0x48120000#32] = .ok (.sin 1 2, []) ∧ decode [0x49120000#32] = .ok (.cos 1 2, [])
    ∧ decode [0x4A120000#32] = .ok (.tan 1 2, []) ∧ decode [0x4B120000#32] = .ok (.asin 1 2, [])
    ∧ decode [0x4C120000#32] = .ok (.acos 1 2, []) ∧ decode [0x4D120000#32] = .ok (.atan 1 2, [])
    ∧ decode [0x4E567000#32] = .ok (.atan2 5 6 7, []) := by decide
theorem test_decode_refuses :
    decode [0x00000000#32] = .error .unassignedOpcode ∧ decode [0x4F000000#32] = .error .unassignedOpcode
    ∧ decode [0x10123001#32] = .error .reservedBits ∧ decode [0x32120800#32] = .error .reservedBits
    ∧ decode [0x0110000F#32] = .error .reservedBits ∧ decode [0x02100011#32] = .error .constantIndex
    ∧ decode [0x01100000#32, 1#32] = .error .truncated := by decide
theorem test_encode_words :
    encode (.round 1 2 1) = [0x32120400#32] ∧ encode (.ldc 3 11) = [0x0230000B#32]
    ∧ encode (.ldr 2 (-1024#64)) = [0x01200000#32, 0xFFFFFC00#32, 0xFFFFFFFF#32]
    ∧ encode (.atan2 5 6 7) = [0x4E567000#32] := by decide
theorem test_decode_table_word :
    decodeTableWord 32 0x10123000 = some (.add 1 2 3) ∧ decodeTableWord 32 0x01200000 = some (.ldr 2 0#64)
    ∧ decodeTableWord 96 0x00000002_00000001_01200000 = some (.ldr 2 0x0000000200000001#64)
    ∧ decodeTableWord 32 0x10123001 = none := by decide
theorem test_bytes_little_endian :
    bytesOfPattern 0x0102030405060708#64 = [8#8, 7#8, 6#8, 5#8, 4#8, 3#8, 2#8, 1#8] := by decide

/-! ## One step of each command -/

/-- After reset with X2 = a and X3 = b. -/
def regs (a b : Int) : State := (State.reset.writeRaw 2 a).writeRaw 3 b

/-- X1 after the step that runs the command word w there; none if it ends in FAULTED. -/
def runs (w : CmdWord) (a b : Int) : Option Int :=
  match step (placeWords (regs a b) [w]) with
  | .next t => if t.runState = .run then some (t.raw 1) else none
  | _ => none

/-- STATUS and FAULTCMD after that step, and whether X1 still has its old value. -/
def faults (w : CmdWord) (a b : Int) : Option (CmdWord × CmdWord × Bool) :=
  match step (placeWords (regs a b) [w]) with
  | .next t => some (t.status, t.faultCmd, t.readX 1 = (regs a b).readX 1)
  | _ => none

-- 95_test_vectors.md 2.1
theorem test_ldr :
    (match step (placeWords State.reset [0x01100000#32, 0x00000001#32, 0x00000002#32]) with
      | .next t => some (t.readX 1, t.litPending, t.wordsIssued) | _ => none)
    = some (0x0000000200000001#64, 0, 3) := by decide
theorem test_ldr_pending :
    (match step (placeWords State.reset [0x01100000#32, 0x00000001#32]) with
      | .next t => some (t.readX 1, t.litPending, t.wordsIssued) | _ => none) = some (0#64, 1, 2) := by decide
theorem test_ldc : runs 0x0210000B#32 0 0 = some 3217 := by decide
theorem test_mov : runs 0x03120000#32 (-5) 0 = some (-5) := by decide
theorem test_fromi32_ignores_high_half : runs 0x04120000#32 0x123456780000000A 0 = some 10240 := by decide
theorem test_fromi32_negative : runs 0x04120000#32 (-2) 0 = some (-2048) := by decide
theorem test_fromf64_tie : runs 0x05120000#32 0x3F58000000000000 0 = some 2 := by decide
theorem test_fromf64_range :
    faults 0x05120000#32 0x4340000000000000 0 = some (0x00000701#32, 0x05120000#32, true) := by decide
theorem test_tof64_rounds : runs 0x06120000#32 9223372036854775807 0 = some 0x4340000000000000 := by decide
theorem test_tof32_rounds : runs 0x07120000#32 (2 ^ 34 + 1) 0 = some 0x4B800000 := by decide
theorem test_tof32_negative : runs 0x07120000#32 (-1024) 0 = some 0xBF800000 := by decide
theorem test_toint_floor : runs 0x08120000#32 (-1536) 0 = some (-2) := by decide
-- 95_test_vectors.md 2.2
theorem test_add_saturates : runs 0x10123000#32 9223372036854775807 1 = some 9223372036854775807 := by decide
theorem test_sub_minvalue : runs 0x11123000#32 0 (-9223372036854775808) = some 9223372036854775807 := by decide
theorem test_mul_tie_up : runs 0x12123000#32 (-3) 512 = some (-1) := by decide
theorem test_mul_overflow : runs 0x12123000#32 (2 ^ 42) (2 ^ 42) = some 9223372036854775807 := by decide
theorem test_mulw_wraps : runs 0x13123000#32 9223372036854775807 2048 = some (-2) := by decide
theorem test_div_tie_even : runs 0x14123000#32 7 (-2048) = some (-4) := by decide
theorem test_div_by_zero : faults 0x14123000#32 1024 0 = some (0x00000201#32, 0x14123000#32, true) := by decide
theorem test_mod_sign : runs 0x15123000#32 (-5632) 2048 = some (-1536) := by decide
theorem test_mod_minvalue : runs 0x15123000#32 (-9223372036854775808) (-1) = some 0 := by decide
theorem test_neg_minvalue : runs 0x16120000#32 (-9223372036854775808) 0 = some 9223372036854775807 := by decide
theorem test_abs_minvalue : runs 0x17120000#32 (-9223372036854775808) 0 = some 9223372036854775807 := by decide
theorem test_shl_count_masked : runs 0x18123000#32 1 (-1) = some (-9223372036854775808) := by decide
theorem test_shr_floor : runs 0x19123000#32 (-3) 1 = some (-2) := by decide
theorem test_cmp : runs 0x20123000#32 (-9223372036854775808) 9223372036854775807 = some (-1) := by decide
theorem test_seq : runs 0x21123000#32 512 512 = some 1 := by decide
theorem test_sne : runs 0x22123000#32 512 513 = some 1 := by decide
theorem test_slt_signed : runs 0x23123000#32 (-9223372036854775808) 0 = some 1 := by decide
theorem test_sle_equal : runs 0x24123000#32 7 7 = some 1 := by decide
theorem test_sgt : runs 0x25123000#32 0 (-1) = some 1 := by decide
theorem test_sge : runs 0x26123000#32 (-1) 0 = some 0 := by decide
theorem test_hash : runs 0x27120000#32 9223372036854775807 0 = some (-2147483648) := by decide
-- 95_test_vectors.md 2.3
theorem test_floor : runs 0x30120000#32 (-1280) 0 = some (-2048) := by decide
theorem test_ceil_saturates : runs 0x31120000#32 9223372036854775807 0 = some 9223372036854775807 := by decide
theorem test_round_even : runs 0x32120000#32 (-2560) 0 = some (-2048) := by decide
theorem test_round_away : runs 0x32120400#32 (-2560) 0 = some (-3072) := by decide
theorem test_roundd : runs 0x33123400#32 1280 1 = some 1331 := by decide
theorem test_roundd_range : faults 0x33123000#32 1264 10 = some (0x00000601#32, 0x33123000#32, true) := by decide
-- 95_test_vectors.md 2.4
theorem test_sqrt : runs 0x40120000#32 9223372036854775807 0 = some 97184015999 := by decide +kernel
theorem test_sqrt_negative : faults 0x40120000#32 (-1) 0 = some (0x00000301#32, 0x40120000#32, true) := by decide
theorem test_log2 : runs 0x41120000#32 9223372036854775807 0 = some 54271 := by decide +kernel
theorem test_log2_small : runs 0x41120000#32 1 0 = some (-10240) := by decide +kernel
theorem test_ln : runs 0x42120000#32 10240 0 = some 2358 := by decide +kernel
theorem test_ln_zero : faults 0x42120000#32 0 0 = some (0x00000401#32, 0x42120000#32, true) := by decide +kernel
theorem test_pow2 : runs 0x43120000#32 54271 0 = some 9218868437227405312 := by decide +kernel
theorem test_pow2_negative : runs 0x43120000#32 (-512) 0 = some 724 := by decide +kernel
theorem test_pow : runs 0x44123000#32 3072 2048 = some 9200 := by decide +kernel
theorem test_pow_zero_negative :
    faults 0x44123000#32 0 (-1024) = some (0x00000201#32, 0x44123000#32, true) := by decide +kernel
-- 95_test_vectors.md 2.5
theorem test_reduce_and_fold :
    trigReduce Config.reference 3218 = -3216 ∧ trigReduce Config.reference (-9223372036854775808) = -2224
    ∧ trigFold Config.reference 10000 = (true, 349) ∧ trigFold Config.reference 1609 = (false, 1608) := by decide
theorem test_sin : runs 0x48120000#32 (-1608) 0 = some (-1024) := by decide +kernel
theorem test_cos : runs 0x49120000#32 3217 0 = some (-1024) := by decide +kernel
/-- The example of R238; the kernel stays free. -/
theorem test_tan :
    step (placeWords (regs 6534 0) [0x4A120000#32])
      = .next ({ regs 6534 0 with wordsIssued := 1 }.writeRaw 1 (tanCf Config.reference 100)) := by rfl
theorem test_asin : runs 0x4B120000#32 900 0 = some 1099 := by decide +kernel
theorem test_asin_domain : faults 0x4B120000#32 (-1025) 0 = some (0x00000501#32, 0x4B120000#32, true) := by decide +kernel
theorem test_acos : runs 0x4C120000#32 (-1023) 0 = some 3172 := by decide +kernel
theorem test_atan : runs 0x4D120000#32 (-9223372036854775808) 0 = some (-1591) := by decide +kernel
theorem test_atan2 : runs 0x4E123000#32 (-1) (-1024) = some (-3216) := by decide +kernel
theorem test_atan2_zero_zero : runs 0x4E123000#32 0 0 = some 0 := by decide +kernel

/-! ## The port, faults and the host's operations (95_test_vectors.md 2.6, P3; 10_state.md R30) -/

theorem test_illegal_word : faults 0x10123001#32 0 0 = some (0x00000101#32, 0x10123001#32, true) := by decide
theorem test_faulted_discards :
    (match Host.Core.run core 2 { State.reset with inbox := [.issue 0x00000000#32, .issue 0x02100001#32] } with
      | .next t => some (t.readX 1, t.status, t.faultCmd, t.faultOutput, t.wordsIssued) | _ => none)
    = some (0#64, 0x00000101#32, 0x00000000#32, true, 2) := by decide
theorem test_reset_clears_fault :
    (match Host.Core.run core 2 { State.reset with inbox := [.issue 0x4F000000#32, .reset] } with
      | .next t => some (t.runState, t.status, t.faultCmd, t.wordsIssued) | _ => none)
    = some (.run, 0#32, 0#32, 0) := by decide
theorem test_read_config :
    (match step { State.reset with inbox := [.readCtl 0x12] } with | .next t => t.replies | _ => [])
    = [.control 0x0001090A#32] := by decide
theorem test_reads_of_unwritten_registers :
    readsOnlyWritten (.add 1 2 3) State.reset = false ∧ readsOnlyWritten (.add 1 2 3) (regs 0 0) = true := by decide
theorem test_illegal_configuration_refused :
    (match step { State.reset with cfg := { Config.reference with fracBits := 31 } } with
      | .refused r => some r | _ => none) = some .illegalConfiguration := by decide
theorem test_pseudo_instructions :
    expand Config.reference .nop = some (.mov 0 0) ∧ expand Config.reference (.li 1 (-1)) = some (.ldr 1 0xFFFFFFFFFFFFFFFF#64)
    ∧ expand Config.reference (.liq 1 (-15) 1) = some (.ldr 1 (-1536#64))
    ∧ expand Config.reference (.clr 3) = some (.ldc 3 0) := by decide

theorem test_assembler :
    assemble Config.reference ["round x1, x2, away ; to the larger magnitude", "  roundd x1 , x2, x3", "", "ldc x3, pi", "ldr x2, -1"]
      = some [0x32120400#32, 0x33123000#32, 0x0230000B#32, 0x01200000#32, 0xFFFFFFFF#32, 0xFFFFFFFF#32]
    ∧ assembleLine Config.reference "li.q x1, -1.5" = some [0x01100000#32, 0xFFFFFA00#32, 0xFFFFFFFF#32] := by decide
theorem test_assembler_rejects :
    assembleLine Config.reference "add x1, x2, x16" = none ∧ assembleLine Config.reference "ADD x1, x2, x3" = none
    ∧ assembleLine Config.reference "ldc x1, tau" = none ∧ assembleLine Config.reference "li.q x1, 9007199254740992" = none
    ∧ assembleLine Config.reference "li.q x1, .-5" = none ∧ assembleLine Config.reference "li.q x1, 1.-5" = none := by
  decide

/-! ## Witnesses: for every claim with hypotheses, states and operands that meet them, clause by clause -/

/-- A unit with F = 3, the least legal value, with the nearest raw values of its constants. -/
def configF3 : Config where
  fracBits := 3
  pi := 25
  twoPi := 50
  piOver2 := 13
  piOver4 := 6
  piOver6 := 4
  ln2 := 6
  log2Max := 480
  maxDecimals := 18

/-- A unit with F = 30, the greatest legal value. -/
def configF30 : Config where
  fracBits := 30
  pi := 3373259426
  twoPi := 6746518852
  piOver2 := 1686629713
  piOver4 := 843314857
  piOver6 := 562209904
  ln2 := 744261118
  log2Max := 35433480192
  maxDecimals := 9

/-- The legal configurations, at both ends of F; every claim that assumes `legal` has these.
They are the witness of the claims whose only hypothesis is `legal`, beside names for what a register holds:
Fromi32ScalesExactly, Tof64RoundsToNearest, Tof32RoundsOnce, TointShiftsRightByF, MulSaturatesRoundedProduct,
MulwWrapsFourPartialProducts, FloorMasksAndCeilRoundsUp. -/
theorem witness_legal :
    State.reset.cfg.legal = true ∧ configF3.legal = true ∧ configF30.legal = true ∧ (regs 0 0).cfg.legal = true := by
  decide

theorem witness_EncodedCommandDecodesBack :
    (Instr.roundd 15 0 15 1).wellFormed = true ∧ (Instr.ldc 15 16).wellFormed = true
    ∧ (Instr.ldr 0 0xFFFFFFFFFFFFFFFF#64).wellFormed = true := by decide

theorem witness_DecodedWordsEncodeOneCommand :
    decode [0x33FFF400#32, 0#32] = .ok (.roundd 15 15 15 1, [0#32])
    ∧ decode [0x01F00000#32, 1#32, 2#32, 3#32] = .ok (.ldr 15 0x0000000200000001#64, [3#32]) := by decide

theorem witness_StoredBytesDecodeBack : (Instr.round 15 0 1).wellFormed = true := by decide

theorem witness_IllegalWordsAreExactlyThoseOfR69 :
    IllegalWord 0x00000000#32 ∧ IllegalWord 0x4F000000#32 ∧ IllegalWord 0x10123001#32 ∧ IllegalWord 0x32120800#32
    ∧ IllegalWord 0x02100011#32 ∧ ¬IllegalWord 0x02100010#32 ∧ State.reset.runState = .run ∧ State.reset.litPending = 0 := by
  refine ⟨.inl ?_, .inl ?_, .inr (.inl ?_), .inr (.inl ?_), .inr (.inr ?_), ?_, rfl, rfl⟩
  · unfold UnassignedOp; decide
  · unfold UnassignedOp; decide
  · decide
  · decide
  · decide
  · unfold IllegalWord UnassignedOp; decide

theorem witness_DecoderFollowsOpcodeTable :
    ((0x4E, Instr.atan2) ∈ rowsR3 ∧ (0x4E567000#32 &&& 0xFF000FFF#32).toNat = 0x4E * 2 ^ 24)
    ∧ ((0x4D, Instr.atan) ∈ rowsR2 ∧ (0x4D120000#32 &&& 0xFF00FFFF#32).toNat = 0x4D * 2 ^ 24)
    ∧ 0x01F00000#32 &&& 0xFF0FFFFF#32 = 0x01000000#32
    ∧ (0x02F00010#32 &&& 0xFF0FFFE0#32 = 0x02000000#32 ∧ (0x02F00010#32 : CmdWord).toNat % 32 ≤ 16)
    ∧ 0x32120400#32 &&& 0xFF00FBFF#32 = 0x32000000#32 ∧ 0x33412400#32 &&& 0xFF000BFF#32 = 0x33000000#32 := by
  refine ⟨⟨by simp [rowsR3], by decide⟩, ⟨by simp [rowsR2], by decide⟩, by decide, by decide, by decide, by decide⟩

theorem witness_StepRunsTheIssuedCommand :
    ((placeWords State.reset [0x10123000#32]).cfg.legal = true ∧ (placeWords State.reset [0x10123000#32]).runState = .run
      ∧ (placeWords State.reset [0x10123000#32]).litPending = 0
      ∧ (placeWords State.reset [0x10123000#32]).inbox = [.issue 0x10123000#32]
      ∧ decodeHead 0x10123000#32 = .ok (.command (.add 1 2 3)))
    ∧ (placeWords State.reset [0x01200000#32, 1#32, 2#32]).inbox = [.issue 0x01200000#32, .issue 1#32, .issue 2#32]
    ∧ decodeHead 0x01200000#32 = .ok (.literal 2) := by decide

theorem witness_LiteralWordsLoadTheRegister :
    State.reset.runState = .run ∧ State.reset.litPending = 0 ∧ decodeHead 0x01F00000#32 = .ok (.literal 15) := by decide

/-- A unit that has divided by zero, with one host operation waiting. -/
def halted (op : HostOp) : State := { faultEntry .divByZero 0x14312000#32 State.reset with inbox := [op] }

theorem halted_inv (op : HostOp) : (halted op).Inv where
  legal := (by decide : State.reset.cfg.legal = true)
  running h := nomatch h
  halted _ := ⟨rfl, .divByZero, rfl, (by decide : recordFits .divByZero 0x14312000#32 = true)⟩

theorem witness_FaultedUnitDiscardsWords (op : HostOp) :
    (halted op).Inv ∧ (halted op).runState = .faulted ∧ (halted op).inbox = [op] := ⟨halted_inv op, rfl, rfl⟩

theorem witness_OnlyResetLeavesFaulted :
    (halted (.issue 0x02100001#32)).runState = .faulted ∧ (∃ t, step (halted (.issue 0x02100001#32)) = .next t)
    ∧ (halted (.issue 0x02100001#32)).inbox.head? ≠ some .reset
    ∧ (∃ t, step (halted .reset) = .next t) ∧ (halted .reset).inbox.head? = some .reset :=
  ⟨rfl, ⟨_, rfl⟩, by decide, ⟨_, rfl⟩, rfl⟩

theorem witness_ResetRestoresTheControlState :
    (halted .reset).cfg.legal = true ∧ (halted .reset).inbox = [.reset] := by decide

theorem witness_HostReadsAnswerAndChangeNothing :
    (halted (.readX 15)).inbox = [.readX 15] ∧ (halted (.readCtl 0x10)).inbox = [.readCtl 0x10]
    ∧ (halted (.readCtl 0x12)).inbox = [.readCtl 0x12] ∧ (halted (.readCtl 0x13)).inbox = [.readCtl 0x13]
    ∧ (halted (.readX 15)).cfg.legal = true := by decide

theorem witness_ConfigIsHardwired :
    State.reset.cfg.legal = true ∧ ∃ t, step (halted .reset) = .next t := ⟨by decide, _, rfl⟩

theorem witness_StepKeepsControlInvariant :
    (halted (.issue 0#32)).Inv ∧ ∃ t, step (halted (.issue 0#32)) = .next t := ⟨halted_inv _, _, rfl⟩

theorem witness_StepWritesOneRegisterOrRecordsAFault :
    ∃ t, step (placeWords State.reset [0x14312000#32]) = .next t
      ∧ (placeWords State.reset [0x14312000#32]).inbox.head? ≠ some .reset
      ∧ t.status ≠ (placeWords State.reset [0x14312000#32]).status := ⟨_, rfl, by decide, by decide⟩

theorem witness_CommandsFaultExactlyAsTabled :
    faultOf (.div 1 2 3) (regs 1 0) = some .divByZero ∧ faultOf (.mod 1 2 3) (regs 1 0) = some .divByZero
    ∧ faultOf (.sqrt 1 2) (regs (-1) 0) = some .sqrtNeg ∧ faultOf (.log2 1 2) (regs 0 0) = some .logNonpos
    ∧ faultOf (.ln 1 2) (regs 0 0) = some .logNonpos ∧ faultOf (.pow 1 2 3) (regs 0 (-1)) = some .divByZero
    ∧ faultOf (.pow 1 2 3) (regs (-1) 1) = some .logNonpos ∧ faultOf (.asin 1 2) (regs 1025 0) = some .trigDomain
    ∧ faultOf (.acos 1 2) (regs (-1025) 0) = some .trigDomain ∧ faultOf (.roundd 1 2 3 0) (regs 1 10) = some .decRange
    ∧ faultOf (.fromf64 1 2) (regs 0x7FF0000000000000 0) = some .convRange
    ∧ faultOf (.acos 1 2) (regs 1024 0) = none ∧ faultOf (.roundd 1 2 3 1) (regs 1 9) = none
    ∧ faultOf (.pow 1 2 3) (regs 0 0) = none ∧ (Instr.pow 1 2 3).wellFormed = true := by decide

theorem witness_FaultRecordsTheIssuedWord :
    State.reset.runState = .run ∧ State.reset.litPending = 0
    ∧ (∃ t, issue 0x14312000#32 State.reset = .next t ∧ t.runState = .faulted)
    ∧ ∃ t, issue 0x4F000000#32 State.reset = .next t ∧ t.runState = .faulted :=
  ⟨rfl, rfl, ⟨_, rfl, rfl⟩, ⟨_, rfl, rfl⟩⟩

theorem witness_IllFormedCommandsAreIllegal :
    (Instr.ldc 1 17).wellFormed = false ∧ (Instr.round 1 2 2).wellFormed = false
    ∧ (Instr.roundd 1 2 3 3).wellFormed = false := by decide

theorem witness_CommandsArePureFunctions :
    (regs 1 2).runState = .run ∧ ((regs 1 2).writeRaw 7 9).runState = .run
    ∧ ((regs 1 2).writeRaw 7 9).cfg = (regs 1 2).cfg
    ∧ ∀ r ∈ (Instr.add 1 2 3).sources, ((regs 1 2).writeRaw 7 9).readX r = (regs 1 2).readX r := by decide

theorem witness_UnwrittenRegistersStayInvisible :
    AgreeOnWritten (regs 1 2) { (regs 1 2) with x := (regs 1 2).x.set 7 9#64 }
    ∧ readsOnlyWritten (.add 1 2 3) (regs 1 2) = true := by
  refine ⟨⟨by decide, by decide, rfl, rfl, rfl, rfl, rfl, rfl, rfl, rfl, rfl, rfl, rfl⟩, by decide⟩

theorem witness_ExamplesAssemble : Config.reference.fracBits = 10 := rfl

theorem witness_LdcLoadsNamedConstant :
    (namedConstants Config.reference)[(16#5 : BitVec 5).toNat]? = some 710
    ∧ (namedConstants Config.reference)[(0#5 : BitVec 5).toNat]? = some 0 := by decide

theorem witness_Fromf64RoundsToNearestOrFaults :
    ieeeValue 11 52 0x7FF0000000000000 = none ∧ ieeeValue 11 52 0x3FF8000000000000 = some (3 / 2)
    ∧ ieeeValue 11 52 0x4340000000000000 = some (2 ^ 53) := by
  refine ⟨?_, ?_, ?_⟩ <;> norm_num [ieeeValue]

theorem witness_Binary64RoundTripBelow53Bits :
    (regs (2 ^ 53) (-2 ^ 53)).cfg.legal = true ∧ ((regs (2 ^ 53) (-2 ^ 53)).readX 2).toInt = 2 ^ 53
    ∧ ((regs (2 ^ 53) (-2 ^ 53)).readX 3).toInt = -2 ^ 53
    ∧ (regs 0x4290000000000000 0).cfg = (regs (2 ^ 53) (-2 ^ 53)).cfg
    ∧ (regs 0x4290000000000000 0).readX 2 = fxToF64 Config.reference (2 ^ 52) := by decide

theorem witness_DivRoundsQuotientToNearestEven :
    ((regs 7 0).readX 3).toInt = 0 ∧ ((regs 7 (-1)).readX 3).toInt ≠ 0 ∧ ((regs 7 1).readX 3).toInt ≠ 0 := by decide

theorem witness_ModIsTruncatedRemainder :
    (regs 7 0).readX 3 = 0#64 ∧ (regs (-9223372036854775808) (-1)).readX 3 ≠ 0#64 := by decide

theorem witness_RoundFollowsTieRule : (0#2 : BitVec 2) = 0#2 ∧ (1#2 : BitVec 2) = 1#2 ∧ (regs 512 0).cfg.legal = true := by
  decide

theorem witness_RounddScalesRoundsAndDivides :
    (0#2 : BitVec 2).toNat ≤ 1 ∧ (1#2 : BitVec 2).toNat ≤ 1
    ∧ ((regs 1264 (-1)).readX 3).toInt < 0 ∧ ((regs 1264 10).cfg.maxDecimals : Int) < ((regs 1264 10).readX 3).toInt
    ∧ ((regs 1264 0).readX 3).toInt = 0 ∧ ((regs 1264 9).readX 3).toInt = (regs 1264 9).cfg.maxDecimals := by decide

theorem witness_FloorAndCeilBracketTheOperand :
    ((regs 9223372036854775807 9223372036854774784).readX 2).toInt ≠ 2 ^ 63 - 2 ^ 10
    ∧ ((regs 9223372036854775807 9223372036854774784).readX 3).toInt = 2 ^ 63 - 2 ^ 10 := by decide

theorem witness_SqrtIsNearestRoot :
    ((regs (-1) 0).readX 2).toInt < 0 ∧ 0 ≤ ((regs (-1) 0).readX 3).toInt := by decide

theorem witness_Log2NormalisesAndSquares :
    ((regs 0 1).readX 2).toInt ≤ 0 ∧ 0 < ((regs 0 1).readX 3).toInt := by decide

theorem witness_LnScalesLog2 : ((regs 0 1).readX 2).toInt ≤ 0 ∧ 0 < ((regs 0 1).readX 3).toInt := by decide

theorem witness_Pow2SumsItsSeries :
    ((regs 0 54271).readX 2).toInt = 0 ∧ ((regs 0 54271).readX 3).toInt < Config.reference.log2Max
    ∧ Config.reference.log2Max ≤ ((regs 54272 (-54272)).readX 2).toInt
    ∧ ((regs 54272 (-54272)).readX 3).toInt = -Config.reference.log2Max
    ∧ ((regs (-1) (-9223372036854775808)).readX 2).toInt < 0
    ∧ ((regs (-1) (-9223372036854775808)).readX 3).toInt = minRaw := by decide

theorem witness_Pow2IsExactAtIntegers :
    (52 : Int) * (regs 53248 (-53248)).cfg.one < (regs 53248 (-53248)).cfg.log2Max
    ∧ ((regs 53248 (-53248)).readX 2).toInt = 52 * (regs 53248 (-53248)).cfg.one
    ∧ ((regs 53248 (-53248)).readX 3).toInt = -(52 * (regs 53248 (-53248)).cfg.one)
    ∧ (0 : Int) * (regs 0 0).cfg.one < (regs 0 0).cfg.log2Max := by decide

/-- Bases 0, −1 and 1 against exponents 0, 1 and −1; 2048 = MUL(1024, LOG2(4096)) is the operand POW2 then gets. -/
theorem witness_PowGoesThroughTheLogarithm :
    ((regs 0 0).readX 3).toInt = 0 ∧ (((regs 0 1).readX 2).toInt = 0 ∧ 0 < ((regs 0 1).readX 3).toInt)
    ∧ ((regs 0 (-1)).readX 3).toInt < 0 ∧ ((regs (-1) 1).readX 2).toInt < 0
    ∧ 0 < ((regs 4096 1024).readX 2).toInt ∧ (regs 2048 0).cfg = (regs 4096 1024).cfg
    ∧ ((regs 2048 0).readX 2).toInt = sat64 2048 := by decide

theorem witness_SineFoldsTheAngle :
    ((regs 6434 1608).readX 2).toInt % Config.reference.pi = 0
    ∧ ((regs 6434 1608).readX 3).toInt % Config.reference.twoPi = Config.reference.piOver2
    ∧ ((regs (-1608) 0).readX 2).toInt % Config.reference.twoPi = Config.reference.twoPi - Config.reference.piOver2 := by
  decide

theorem witness_CosineIsShiftedSine : ((regs 0 1).readX 2).toInt = 0 ∧ (regs 0 1).cfg.legal = true := by decide

theorem witness_TangentReducesTheAngle : (regs 3217 (-3217)).cfg.legal = true := by decide

theorem witness_ArcsineShortcutsKernelAndIdentity :
    (regs 1025 0).cfg.one < ((regs 1025 0).readX 2).toInt ∧ ((regs 0 (-1025)).readX 3).toInt < -(regs 0 (-1025)).cfg.one
    ∧ ((regs 0 512).readX 2).toInt = 0 ∧ ((regs 0 512).readX 3).toInt = (regs 0 512).cfg.half
    ∧ ((regs (-512) 1024).readX 2).toInt = -(regs (-512) 1024).cfg.half
    ∧ ((regs (-512) 1024).readX 3).toInt = (regs (-512) 1024).cfg.one
    ∧ ((regs (-1024) 511).readX 2).toInt = -(regs (-1024) 511).cfg.one
    ∧ (((regs (-1024) 511).readX 3).toInt < (regs (-1024) 511).cfg.half ∧ ((regs (-1024) 511).readX 3).toInt ≠ 0)
    ∧ (513 = (regs 513 (-513)).cfg.half + 1 ∧ ((regs 513 (-513)).readX 2).toInt = 513
      ∧ ((regs 513 (-513)).readX 3).toInt = -513) := by decide

theorem witness_ArccosineThroughArctangent :
    ((regs 1 (-1023)).readX 2).toInt ≠ 0 ∧ -(regs 1 (-1023)).cfg.one < ((regs 1 (-1023)).readX 3).toInt
    ∧ ((regs 1 1023).readX 3).toInt < (regs 1 1023).cfg.one
    ∧ (regs 1048576 0).cfg = (regs 1 1023).cfg ∧ ((regs 1048576 0).readX 2).toInt = sat64 1048576 := by decide

theorem witness_ArctangentSeriesAndIdentity :
    ((regs 0 512).readX 2).toInt = 0 ∧ ((regs 0 512).readX 3).toInt ≤ (regs 0 512).cfg.half
    ∧ (regs 513 (-9223372036854775808)).cfg.half < ((regs 513 (-9223372036854775808)).readX 2).toInt
    ∧ ((regs 513 (-9223372036854775808)).readX 3).toInt = minRaw := by decide

theorem witness_Arctangent2PicksTheQuadrant :
    ((regs 1 0).readX 3).toInt = 0 ∧ ((regs 0 (-1024)).readX 3).toInt ≠ 0 ∧ ((regs 0 (-1024)).readX 2).toInt = 0
    ∧ (regs 0 0).cfg = (regs 0 (-1024)).cfg ∧ ((regs 0 0).readX 2).toInt = sat64 0 := by decide

theorem witness_IdentityErrorIsTheKernelsAtFoldedAngles :
    ((regs 6434 (-3217)).readX 2).toInt % Config.reference.twoPi = 0
    ∧ ((regs (-1608) 1609).readX 2).toInt % Config.reference.twoPi = (-Config.reference.piOver2) % Config.reference.twoPi
    ∧ ((regs 6434 (-3217)).readX 3).toInt % Config.reference.pi = 0
    ∧ ((regs (-1608) 1609).readX 3).toInt % Config.reference.twoPi
      = (Config.reference.pi - Config.reference.piOver2) % Config.reference.twoPi
    ∧ Config.reference.pi = 2 * Config.reference.piOver2 + 1 ∧ configF30.pi = 2 * configF30.piOver2
    ∧ (regs 6434 (-3217)).cfg.legal = true ∧ configF30.legal = true := by decide

end Sys2Proof.Tests
end

section
/-! PROOF. R2: what a command does depends on its source registers and the configuration only. The two endings of a
command are first told apart (in RUN a write is no fault entry, and each names its value or cause); then every command is
shown to end alike from two states that agree on what it reads. -/

namespace Sys2Proof.Machine

/-! ## The endings told apart -/

theorem code_injective : Function.Injective Cause.code := by
  intro c d h
  revert h
  cases c <;> cases d <;> decide

theorem writes_iff_of_writeX {i : Instr} {s : State} {v w : Word} (he : exec i s = .next (s.writeX i.dest v)) :
    Writes i s w ↔ v = w := by
  constructor
  · rintro ⟨t, ht, hw⟩
    obtain rfl : s.writeX i.dest v = t := by simpa [he] using ht
    exact (readX_writeX_same s i.dest v).symm.trans hw.value
  · rintro rfl
    exact writes_of_writeX he

theorem faults_iff_of_faultEntry {i : Instr} {s : State} {c d : Cause}
    (he : exec i s = .next (faultEntry c (encodeHead i) s)) : Faults i s d ↔ c = d := by
  constructor
  · rintro ⟨t, ht, hf⟩
    obtain rfl : faultEntry c (encodeHead i) s = t := by simpa [he] using ht
    exact code_injective ((statusCause_faultStatus c).symm.trans hf.cause)
  · rintro rfl
    exact ⟨_, he, tookFault_faultEntry s c _⟩

theorem not_faults_of_writeX {i : Instr} {s : State} {v : Word} {c : Cause} (hrun : s.runState = .run)
    (he : exec i s = .next (s.writeX i.dest v)) : ¬ Faults i s c := by
  rintro ⟨t, ht, hf⟩
  obtain rfl : s.writeX i.dest v = t := by simpa [he] using ht
  simpa [hrun] using hf.runState

theorem not_writes_of_faultEntry {i : Instr} {s : State} {c : Cause} {v : Word} (hrun : s.runState = .run)
    (he : exec i s = .next (faultEntry c (encodeHead i) s)) : ¬ Writes i s v := by
  rintro ⟨t, ht, hw⟩
  obtain rfl : faultEntry c (encodeHead i) s = t := by simpa [he] using ht
  simpa [hrun] using hw.runState

/-! ## Ending alike -/

/-- From s and from t the command i ends in the same way: it writes the same value, or takes the same fault. -/
def EndsAlike (i : Instr) (s t : State) : Prop :=
  (∃ v, exec i s = .next (s.writeX i.dest v) ∧ exec i t = .next (t.writeX i.dest v))
    ∨ ∃ c, exec i s = .next (faultEntry c (encodeHead i) s) ∧ exec i t = .next (faultEntry c (encodeHead i) t)

theorem EndsAlike.writes_iff {i : Instr} {s t : State} (h : EndsAlike i s t) (hs : s.runState = .run)
    (ht : t.runState = .run) (v : Word) : Writes i s v ↔ Writes i t v := by
  obtain ⟨w, hes, het⟩ | ⟨c, hes, het⟩ := h
  · rw [writes_iff_of_writeX hes, writes_iff_of_writeX het]
  · exact iff_of_false (not_writes_of_faultEntry hs hes) (not_writes_of_faultEntry ht het)

theorem EndsAlike.faults_iff {i : Instr} {s t : State} (h : EndsAlike i s t) (hs : s.runState = .run)
    (ht : t.runState = .run) (c : Cause) : Faults i s c ↔ Faults i t c := by
  obtain ⟨w, hes, het⟩ | ⟨d, hes, het⟩ := h
  · exact iff_of_false (not_faults_of_writeX hs hes) (not_faults_of_writeX ht het)
  · rw [faults_iff_of_faultEntry hes, faults_iff_of_faultEntry het]

/-- A command that cannot raise ends alike where the value it computes is the same. -/
theorem endsAlike_of_writeX {i : Instr} {s t : State} {value : State → Word}
    (he : ∀ u, exec i u = .next (u.writeX i.dest (value u))) (hv : value t = value s) : EndsAlike i s t :=
  .inl ⟨value s, he s, hv ▸ he t⟩

/-- A command that can raise ends alike where what it computes is the same. -/
theorem endsAlike_of_complete {i : Instr} {s t : State} {result : State → Result}
    (he : ∀ u, exec i u = complete i i.dest (result u) u) (hr : result t = result s) : EndsAlike i s t := by
  have het := he t
  rw [hr] at het
  obtain ⟨v, hv, hes⟩ | ⟨c, hc, hes⟩ := complete_cases i i.dest (result s) s
  · exact .inl ⟨_, (he s).trans hes, by rw [het, hv, complete_ok]⟩
  · exact .inr ⟨c, (he s).trans hes, by rw [het, hc, complete_error]⟩

/-- Two states that agree on the configuration and on a command's source registers are alike to it, whatever its
destination, the other registers and the run state hold. -/
theorem exec_endsAlike (i : Instr) {s t : State} (hcfg : t.cfg = s.cfg)
    (hread : ∀ r ∈ i.sources, t.readX r = s.readX r) : EndsAlike i s t := by
  have hraw : ∀ r ∈ i.sources, t.raw r = s.raw r := fun r hr => congrArg rawOf (hread r hr)
  cases i with
  | ldr | mov | fromi32 | tof64 | tof32 | toint | add | sub | mul | mulw | neg | abs | shl | shr | cmp | seq | sne
  | slt | sle | sgt | sge | hash | floor | ceil | sin | cos | tan =>
    refine endsAlike_of_writeX (fun _ => rfl) ?_
    simp_all [Instr.sources]
  | ldc | fromf64 | div | mod | round | roundd | sqrt | log2 | ln | pow2 | pow | asin | acos | atan | atan2 =>
    refine endsAlike_of_complete (fun _ => rfl) ?_
    simp_all [Instr.sources]

end Sys2Proof.Machine

namespace Sys2Proof.Claims

open Sys2Proof.Machine

/-- Settles O20: from states that agree on what the command reads it ends alike, and in RUN the two endings exclude
each other and name their value or cause. -/
theorem commandsArePureFunctions : Obligations.CommandsArePureFunctions := by
  intro i s t hs ht hcfg hread
  have halike := exec_endsAlike i hcfg hread
  exact ⟨halike.writes_iff hs ht, halike.faults_iff hs ht⟩

end Sys2Proof.Claims
end

section
/-! PROOF. R69, R70: what `decodeHead` answers. Format by format it accepts a word exactly when the reserved bits are 0, and
the command it answers is well-formed, is no LDR, and is packed into a first word that decodes to it again. -/

namespace Sys2Proof

open Sys2Proof.Laws.HeadRoundTrip (headOf)

/-! ## The formats -/

theorem decodeL_eq_ok {w : CmdWord} {x : Head} :
    decodeL w = .ok x ↔ w &&& 0x000FFFFF#32 = 0#32 ∧ x = .literal (rdOf w) := by
  unfold decodeL
  split_ifs with h <;> simp [h, eq_comm]

theorem decodeK_eq_ok {w : CmdWord} {k : Reg → BitVec 5 → Instr} {x : Head} :
    decodeK w k = .ok x
      ↔ w &&& 0x000FFFE0#32 = 0#32 ∧ kidxLegal (kidxOf w) = true ∧ x = .command (k (rdOf w) (kidxOf w)) := by
  unfold decodeK
  by_cases h : w &&& 0x000FFFE0#32 = 0#32 <;> by_cases hk : kidxLegal (kidxOf w) = true <;> simp [h, hk, eq_comm]

theorem decodeR2_eq_ok {w : CmdWord} {k : Reg → Reg → Instr} {x : Head} :
    decodeR2 w k = .ok x ↔ w &&& 0x0000FFFF#32 = 0#32 ∧ x = .command (k (rdOf w) (rs1Of w)) := by
  unfold decodeR2
  split_ifs with h <;> simp [h, eq_comm]

theorem decodeR3_eq_ok {w : CmdWord} {k : Reg → Reg → Reg → Instr} {x : Head} :
    decodeR3 w k = .ok x ↔ w &&& 0x00000FFF#32 = 0#32 ∧ x = .command (k (rdOf w) (rs1Of w) (rs2Of w)) := by
  unfold decodeR3
  split_ifs with h <;> simp [h, eq_comm]

theorem decodeR2M_eq_ok {w : CmdWord} {k : Reg → Reg → BitVec 2 → Instr} {x : Head} :
    decodeR2M w k = .ok x ↔ w &&& 0x0000FBFF#32 = 0#32 ∧ x = .command (k (rdOf w) (rs1Of w) (rmOf w)) := by
  unfold decodeR2M
  split_ifs with h <;> simp [h, eq_comm]

theorem decodeR3M_eq_ok {w : CmdWord} {k : Reg → Reg → Reg → BitVec 2 → Instr} {x : Head} :
    decodeR3M w k = .ok x
      ↔ w &&& 0x00000BFF#32 = 0#32 ∧ x = .command (k (rdOf w) (rs1Of w) (rs2Of w) (rmOf w)) := by
  unfold decodeR3M
  split_ifs with h <;> simp [h, eq_comm]

/-! ## RM's upper bit is reserved (R63) -/

theorem rmLegal_of_bit11 {w : CmdWord} (h : w.getLsbD 11 = false) : rmLegal (rmOf w) = true := by
  have hb : (rmOf w).getLsbD 1 = false := by simpa [rmOf] using h
  revert hb
  generalize rmOf w = rm
  revert rm
  decide

/-- A word is 0 at a bit of a mask that it meets in 0. -/
theorem bit_of_masked {w mask : CmdWord} (h : w &&& mask = 0#32) {n : Nat} (hn : mask.getLsbD n = true) :
    w.getLsbD n = false := by
  simpa [hn] using congrArg (·.getLsbD n) h

/-! ## The answers -/

/-- What `decodeHead` can answer: a well-formed command whose first word says all of it, or the start of an LDR. -/
def Head.Legal : Head → Prop
  | .command i => i.wellFormed = true ∧ headOf i = .command i
  | .literal _ => True

theorem legal_of_decodeHead {w : CmdWord} {x : Head} (h : decodeHead w = .ok x) : x.Legal := by
  unfold decodeHead at h
  split at h
  case h_1 =>
    obtain ⟨-, rfl⟩ := decodeL_eq_ok.mp h
    trivial
  case h_2 =>
    obtain ⟨-, hk, rfl⟩ := decodeK_eq_ok.mp h
    exact ⟨hk, rfl⟩
  case h_29 =>
    obtain ⟨hmask, rfl⟩ := decodeR2M_eq_ok.mp h
    exact ⟨rmLegal_of_bit11 (bit_of_masked hmask (by decide)), rfl⟩
  case h_30 =>
    obtain ⟨hmask, rfl⟩ := decodeR3M_eq_ok.mp h
    exact ⟨rmLegal_of_bit11 (bit_of_masked hmask (by decide)), rfl⟩
  case h_43 => cases h
  all_goals
    simp only [decodeR2_eq_ok, decodeR3_eq_ok] at h
    obtain ⟨-, rfl⟩ := h
    exact ⟨rfl, rfl⟩

theorem legal_of_decodeHead_command {w : CmdWord} {i : Instr} (h : decodeHead w = .ok (.command i)) :
    i.wellFormed = true ∧ headOf i = .command i := legal_of_decodeHead h

end Sys2Proof

namespace Sys2Proof.Laws.HeadRoundTrip

/-- The family as one statement. -/
theorem decodeHead_encodeHead : ∀ i : Instr, i.wellFormed = true → decodeHead (encodeHead i) = .ok (headOf i)
  | .ldr rd literal => ldr rd literal | .ldc rd kidx => ldc rd kidx | .mov rd rs1 => mov rd rs1
  | .fromi32 rd rs1 => fromi32 rd rs1 | .fromf64 rd rs1 => fromf64 rd rs1 | .tof64 rd rs1 => tof64 rd rs1
  | .tof32 rd rs1 => tof32 rd rs1 | .toint rd rs1 => toint rd rs1 | .add rd rs1 rs2 => add rd rs1 rs2
  | .sub rd rs1 rs2 => sub rd rs1 rs2 | .mul rd rs1 rs2 => mul rd rs1 rs2 | .mulw rd rs1 rs2 => mulw rd rs1 rs2
  | .div rd rs1 rs2 => div rd rs1 rs2 | .mod rd rs1 rs2 => mod rd rs1 rs2 | .neg rd rs1 => neg rd rs1
  | .abs rd rs1 => abs rd rs1 | .shl rd rs1 rs2 => shl rd rs1 rs2 | .shr rd rs1 rs2 => shr rd rs1 rs2
  | .cmp rd rs1 rs2 => cmp rd rs1 rs2 | .seq rd rs1 rs2 => seq rd rs1 rs2 | .sne rd rs1 rs2 => sne rd rs1 rs2
  | .slt rd rs1 rs2 => slt rd rs1 rs2 | .sle rd rs1 rs2 => sle rd rs1 rs2 | .sgt rd rs1 rs2 => sgt rd rs1 rs2
  | .sge rd rs1 rs2 => sge rd rs1 rs2 | .hash rd rs1 => hash rd rs1 | .floor rd rs1 => floor rd rs1
  | .ceil rd rs1 => ceil rd rs1 | .round rd rs1 rm => round rd rs1 rm | .roundd rd rs1 rs2 rm => roundd rd rs1 rs2 rm
  | .sqrt rd rs1 => sqrt rd rs1 | .log2 rd rs1 => log2 rd rs1 | .ln rd rs1 => ln rd rs1 | .pow2 rd rs1 => pow2 rd rs1
  | .pow rd rs1 rs2 => pow rd rs1 rs2 | .sin rd rs1 => sin rd rs1 | .cos rd rs1 => cos rd rs1
  | .tan rd rs1 => tan rd rs1 | .asin rd rs1 => asin rd rs1 | .acos rd rs1 => acos rd rs1
  | .atan rd rs1 => atan rd rs1 | .atan2 rd rs1 rs2 => atan2 rd rs1 rs2

end Sys2Proof.Laws.HeadRoundTrip
end

section
/-! PROOF. R272: which cause a well-formed command raises in a legal configuration, block by block. The argument that is not a
case split is POW2's: its series divides by n·One only, and its sum stays below 4·One, so the last quotient One / 2^m never
divides by 0. -/

namespace Sys2Proof.Machine

/-! ## Legal configurations -/

theorem fracBits_range {c : Config} (h : c.legal = true) : 3 ≤ c.fracBits ∧ c.fracBits ≤ 30 := by
  simp only [Config.legal, decide_eq_true_eq] at h
  exact ⟨h.1, h.2.1⟩

theorem ln2_range {c : Config} (h : c.legal = true) : 0 ≤ c.ln2 ∧ c.ln2 < c.one := by
  simp only [Config.legal, decide_eq_true_eq] at h
  obtain ⟨-, -, -, -, -, -, -, -, -, -, -, h0, h1, -⟩ := h
  exact ⟨h0, h1⟩

theorem log2Max_le {c : Config} (h : c.legal = true) : c.log2Max ≤ (63 - c.fracBits) * c.one := by
  simp only [Config.legal, decide_eq_true_eq] at h
  obtain ⟨-, -, -, -, -, -, -, -, -, -, -, -, -, h0, -⟩ := h
  exact h0

theorem one_pos (c : Config) : 0 < c.one := pow2_pos _

theorem pow10_pos (c : Config) (d : Nat) : 0 < c.pow10 d :=
  mul_pos (by positivity) (pow2_pos _)

theorem half_pos (c : Config) : 0 < c.half := pow2_pos _

theorem one_eq_two_mul_half {c : Config} (h : c.legal = true) : c.one = 2 * c.half := by
  obtain ⟨hf, -⟩ := fracBits_range h
  rw [Config.one, Config.half, ← pow2_succ, Nat.sub_add_cancel (by omega)]

theorem one_range {c : Config} (h : c.legal = true) : 8 ≤ c.one ∧ c.one ≤ 2 ^ 30 := by
  obtain ⟨h3, h30⟩ := fracBits_range h
  exact ⟨pow_le_pow_right₀ (by norm_num : (1 : ℤ) ≤ 2) h3, pow_le_pow_right₀ (by norm_num) h30⟩

/-! ## The cause of a result -/

/-- The cause that a command's pseudocode raises, if it raises one. -/
def causeOf : Result → Option Cause
  | .ok _ => none
  | .error c => some c

@[simp] theorem causeOf_ok (v : Int) : causeOf (.ok v) = none := rfl

@[simp] theorem causeOf_error (c : Cause) : causeOf (.error c) = some c := rfl

/-- What follows a result that raises nothing further raises what the result raises. -/
theorem causeOf_bind {x : Result} {f : Int → Result} (hf : ∀ v, x = .ok v → causeOf (f v) = none) :
    causeOf (x >>= f) = causeOf x := by
  cases x with
  | ok v => exact hf v rfl
  | error c => rfl

/-- A test between two results that raise nothing. -/
theorem causeOf_ite {p : Prop} [Decidable p] {x y : Result} (hx : p → causeOf x = none)
    (hy : ¬p → causeOf y = none) :
    causeOf (if p then x else y) = none := by
  split_ifs with h
  · exact hx h
  · exact hy h

/-! ## Products that stay below One -/

/-- The rounded product of two factors that are not negative, the second at most One, is at most the first. -/
theorem roundedProduct_range {c : Config} (h : c.legal = true) {a b : Int} (ha : 0 ≤ a) (hb : 0 ≤ b) (hb1 : b ≤ c.one) :
    0 ≤ roundedProduct c a b ∧ roundedProduct c a b ≤ a := by
  have h1 := one_eq_two_mul_half h
  have hh := half_pos c
  have hab : a * b ≤ a * c.one := Int.mul_le_mul_of_nonneg_left hb1 ha
  have h0 : 0 ≤ a * b := Int.mul_nonneg ha hb
  refine ⟨Int.ediv_nonneg (by omega) (by omega), Int.lt_add_one_iff.mp (Int.ediv_lt_of_lt_mul (one_pos c) ?_)⟩
  rw [Int.add_mul]
  omega

theorem fxMulw_range {c : Config} (h : c.legal = true) {a b : Int} (ha : 0 ≤ a) (ha1 : a ≤ maxRaw) (hb : 0 ≤ b)
    (hb1 : b ≤ c.one) : 0 ≤ fxMulw c a b ∧ fxMulw c a b ≤ a := by
  obtain ⟨h0, h1⟩ := roundedProduct_range h ha hb hb1
  rw [fxMulw, wrap64_of_range (by simp only [minRaw]; omega) (by omega)]
  exact ⟨h0, h1⟩

/-! ## Division -/

@[simp] theorem causeOf_fxDiv (c : Config) (a b : Int) :
    causeOf (fxDiv c a b) = if b = 0 then some .divByZero else none := by
  unfold fxDiv
  split_ifs <;> rfl

theorem causeOf_fxDiv_of_ne (c : Config) (a : Int) {b : Int} (hb : b ≠ 0) : causeOf (fxDiv c a b) = none := by
  simp [hb]

@[simp] theorem causeOf_fxMod (a b : Int) : causeOf (fxMod a b) = if b = 0 then some .divByZero else none := by
  unfold fxMod
  split_ifs <;> rfl

/-- Dividing a value in [0, One] by n·One: the integer nearest to x / n. -/
theorem fxDiv_mul_one {c : Config} (h : c.legal = true) {x n : Int} (hx : 0 ≤ x) (hx1 : x ≤ c.one) (hn : 0 < n) :
    ∃ q, fxDiv c x (n * c.one) = .ok q ∧ 2 * (x - q * n) ≤ n ∧ -n ≤ 2 * (x - q * n) ∧ 0 ≤ q ∧ q ≤ x := by
  have h1 := one_pos c
  have hd : 0 < n * c.one := Int.mul_pos hn h1
  obtain ⟨hlo, hhi, -⟩ := rneDiv_nearest (x * c.one) hd
  set q := rneDiv (x * c.one) (n * c.one) with hq
  have e : 2 * (x * c.one - q * (n * c.one)) = 2 * (x - q * n) * c.one := by ring
  rw [e] at hlo hhi
  have hlo' : 2 * (x - q * n) ≤ n := le_of_mul_le_mul_right hlo h1
  have hhi' : -n ≤ 2 * (x - q * n) := le_of_mul_le_mul_right (by linarith) h1
  have hq0 : 0 ≤ q := by
    by_contra hneg
    have : q * n ≤ -1 * n := Int.mul_le_mul_of_nonneg_right (by omega) hn.le
    omega
  have hqx : q ≤ x := by
    by_contra hgt
    have h2 : (x + 1) * n ≤ q * n := Int.mul_le_mul_of_nonneg_right (by omega) hn.le
    have h3 : x * 1 ≤ x * n := Int.mul_le_mul_of_nonneg_left (by omega) hx
    rw [Int.add_mul] at h2
    omega
  refine ⟨q, ?_, hlo', hhi', hq0, hqx⟩
  have hone := one_range h
  have hs : sat64 q = q := sat64_of_range (by simp only [minRaw]; omega) (by simp only [maxRaw]; omega)
  simp [fxDiv, hd.ne', iabs, not_lt.mpr hx, not_lt.mpr hd.le, ← hq, hs]

/-! ## POW2 -/

/-- By how much the sum of R210 can still exceed the sum and the term at hand, when the term of index n is next: the first
term is at most One, the second half of that rounded up, and each later one at most half of the one before it. -/
def pow2Slack (c : Config) (n : Nat) : Int := if n = 1 then c.one + 1 else if n = 2 then 1 else 0

theorem pow2Slack_nonneg (c : Config) (n : Nat) : 0 ≤ pow2Slack c n := by
  have := one_pos c
  unfold pow2Slack
  split_ifs <;> omega

/-- One term of the series: it completes, and twice the new term is paid for by the old one and the slack. -/
theorem pow2Term_range {c : Config} (h : c.legal = true) {f term : Int} {n : Nat} (hf : 0 ≤ f) (hf1 : f < c.one)
    (hn : 1 ≤ n) (ht : 0 ≤ term) (ht1 : term ≤ c.one) :
    ∃ q, fxDiv c (fxMulw c (fxMulw c f term) c.ln2) (n * c.one) = .ok q ∧ 0 ≤ q ∧ q ≤ c.one
      ∧ 2 * q + pow2Slack c (n + 1) ≤ term + pow2Slack c n := by
  have hone := one_range h
  obtain ⟨hl, hl1⟩ := ln2_range h
  have hcomm : fxMulw c f term = fxMulw c term f := by simp only [fxMulw, roundedProduct, Int.mul_comm]
  obtain ⟨h0, h1⟩ := fxMulw_range h ht (by simp only [maxRaw]; omega) hf hf1.le
  obtain ⟨hx, hx1⟩ := fxMulw_range h h0 (by simp only [maxRaw]; omega) hl hl1.le
  rw [hcomm]
  generalize fxMulw c (fxMulw c term f) c.ln2 = x at *
  obtain ⟨q, hq, -, hlo, hq0, hqx⟩ := fxDiv_mul_one h hx (by omega) (by omega : (0 : Int) < n)
  refine ⟨q, hq, hq0, by omega, ?_⟩
  obtain rfl | rfl | hn3 : n = 1 ∨ n = 2 ∨ 3 ≤ n := by omega
  · norm_num [pow2Slack]; omega
  · norm_num [pow2Slack]; omega
  · have hhalf : 2 * q ≤ x := by
      obtain rfl | hq1 := hq0.eq_or_lt
      · omega
      · have : (2 * q - 1) * 3 ≤ (2 * q - 1) * (n : Int) := Int.mul_le_mul_of_nonneg_left (by omega) (by omega)
        have e : (2 * q - 1) * (n : Int) = 2 * (q * n) - n := by ring
        omega
    simp only [pow2Slack]
    split_ifs <;> omega

/-- The series completes, with a sum in (0, 4·One). -/
theorem pow2Series_range {c : Config} (h : c.legal = true) {f : Int} (hf : 0 ≤ f) (hf1 : f < c.one) (fuel : Nat) :
    ∀ (n : Nat) (term result : Int), 1 ≤ n → 0 ≤ term → term ≤ c.one → 0 < result →
      result + term + pow2Slack c n < 4 * c.one →
      ∃ v, pow2Series c f fuel n term result = .ok v ∧ 0 < v ∧ v < 4 * c.one := by
  induction fuel with
  | zero =>
    intro n term result _ ht _ hr hb
    have := pow2Slack_nonneg c n
    exact ⟨result, rfl, hr, by omega⟩
  | succ fuel ih =>
    intro n term result hn ht ht1 hr hb
    have hs := pow2Slack_nonneg c n
    have hs' := pow2Slack_nonneg c (n + 1)
    have hone := one_range h
    by_cases hzero : term = 0
    · exact ⟨result, by simp [pow2Series, hzero], hr, by omega⟩
    · obtain ⟨q, hq, hq0, hq1, hpay⟩ := pow2Term_range h hf hf1 hn ht ht1
      have hadd : fxAdd result q = result + q :=
        sat64_of_range (by simp only [minRaw]; omega) (by simp only [maxRaw]; omega)
      obtain ⟨v, hv, hrange⟩ := ih (n + 1) q (result + q) (by omega) hq0 hq1 (by omega) (by omega)
      refine ⟨v, ?_, hrange⟩
      simp only [pow2Series, if_neg hzero, hq, ← hadd] at hv ⊢
      exact hv

theorem wrap64_ne_zero {v : Int} (h : 0 < v) (h' : v < 2 ^ 64) : wrap64 v ≠ 0 := by
  simp only [wrap64, Int.bmod_def]
  split_ifs <;> omega

/-- A sum below 4·One, shifted by the integer part of a magnitude below LOG2MAX, does not wrap to 0 (R211). -/
theorem pow2Scaled_ne_zero {c : Config} (h : c.legal = true) {m v : Int} (hm : m < c.log2Max) (hv : 0 < v)
    (hv4 : v < 4 * c.one) : wrap64 (v * pow2 (asr m c.fracBits).toNat) ≠ 0 := by
  obtain ⟨-, h30⟩ := fracBits_range h
  have hip : asr m c.fracBits < 63 - c.fracBits := Int.ediv_lt_of_lt_mul (one_pos c) (hm.trans_le (log2Max_le h))
  have hp := pow2_pos (asr m c.fracBits).toNat
  refine wrap64_ne_zero (Int.mul_pos hv hp) ?_
  calc v * pow2 (asr m c.fracBits).toNat < 4 * c.one * pow2 (asr m c.fracBits).toNat := Int.mul_lt_mul_of_pos_right hv4 hp
    _ = 2 ^ (2 + c.fracBits + (asr m c.fracBits).toNat) := by rw [pow_add, pow_add]; rfl
    _ ≤ 2 ^ 64 := pow_le_pow_right₀ (by norm_num) (by omega)

@[simp] theorem causeOf_fxPow2 {c : Config} (h : c.legal = true) (a : Int) : causeOf (fxPow2 c a) = none := by
  have hone := one_range h
  unfold fxPow2
  by_cases ha : a = 0
  · rw [if_pos ha, causeOf_ok]
  rw [if_neg ha]
  extract_lets neg m ip f
  by_cases hm : c.log2Max ≤ m
  · rw [if_pos hm, causeOf_ok]
  rw [if_neg hm]
  obtain ⟨v, hv, hv0, hv4⟩ := pow2Series_range h (Int.emod_nonneg m (one_pos c).ne') (Int.emod_lt_of_pos m (one_pos c))
    (2 ^ c.fracBits + 1) 1 c.one c.one le_rfl (by omega) le_rfl (by omega) (by simp only [pow2Slack]; omega)
  have hne := pow2Scaled_ne_zero h (not_le.mp hm) hv0 hv4
  rw [hv]
  change causeOf (if neg = true then fxDiv c c.one _ else pure _) = none
  split_ifs
  · exact causeOf_fxDiv_of_ne c _ hne
  · rfl

/-! ## The other commands that can raise, or divide on the way -/

/-- FROMF64 raises as its row says, which `faultOf` spells out. -/
theorem causeOf_fxFromF64 (rd rs1 : Reg) (s : State) :
    causeOf (fxFromF64 s.cfg (s.readX rs1)) = faultOf (.fromf64 rd rs1) s := by
  simp only [fxFromF64, faultOf]
  cases bin64 (s.readX rs1) with
  | none => rfl
  | some d => exact apply_ite causeOf _ _ _

@[simp] theorem causeOf_fxRoundDecimals (c : Config) (rule : TieRule) (a d : Int) :
    causeOf (fxRoundDecimals c rule a d)
      = if d < 0 ∨ (c.maxDecimals : Int) < d then some .decRange else none := by
  unfold fxRoundDecimals
  split_ifs
  · rfl
  · exact causeOf_fxDiv_of_ne c _ (pow10_pos c _).ne'

@[simp] theorem causeOf_fxSqrt (c : Config) (a : Int) :
    causeOf (fxSqrt c a) = if a < 0 then some .sqrtNeg else none := by
  unfold fxSqrt
  split_ifs <;> rfl

@[simp] theorem causeOf_fxLog2 (c : Config) (a : Int) :
    causeOf (fxLog2 c a) = if a ≤ 0 then some .logNonpos else none := by
  unfold fxLog2
  split_ifs <;> rfl

@[simp] theorem causeOf_fxLn (c : Config) (a : Int) :
    causeOf (fxLn c a) = if a ≤ 0 then some .logNonpos else none :=
  (causeOf_bind fun _ _ => rfl).trans (causeOf_fxLog2 c a)

/-- POW raises for a zero base with a negative exponent, and for a negative base unless the exponent is 0. -/
@[simp] theorem causeOf_fxPow {c : Config} (h : c.legal = true) (b e : Int) :
    causeOf (fxPow c b e)
      = if b = 0 ∧ e < 0 then some .divByZero else if b < 0 ∧ e ≠ 0 then some .logNonpos else none := by
  unfold fxPow
  by_cases he : e = 0
  · simp [he]
  by_cases hb : b = 0
  · by_cases hneg : e < 0 <;> simp [he, hb, hneg]
  · rw [if_neg he, if_neg hb, causeOf_bind fun _ _ => causeOf_fxPow2 h _, causeOf_fxLog2]
    have hle : b ≤ 0 ↔ b < 0 := by omega
    simp [hle, he, hb]

/-! ## Inverse trigonometric functions -/

theorem causeOf_atanTerms (c : Config) (w2 : Int) (fuel : Nat) :
    ∀ (k : Nat) (p sum : Int), causeOf (atanTerms c w2 fuel k p sum) = none := by
  induction fuel with
  | zero => intros; rfl
  | succ fuel ih =>
    intro k p sum
    have hd : ((2 * k + 1 : Nat) : Int) * c.one ≠ 0 := mul_ne_zero (by omega) (one_pos c).ne'
    refine (causeOf_bind fun t _ => ?_).trans (causeOf_fxDiv_of_ne c _ hd)
    exact causeOf_ite (fun _ => rfl) fun _ => ih _ _ _

theorem sat64_pos {v : Int} (h : 0 < v) : 0 < sat64 v := by
  simp only [sat64, minRaw, maxRaw]
  split_ifs <;> omega

/-- The divisor One + z of R245 is not 0 for z > 0. -/
theorem causeOf_atanPositive (c : Config) {z : Int} (hz : 0 < z) : causeOf (atanPositive c z) = none := by
  unfold atanPositive
  split_ifs
  · have hd : fxAdd c.one z ≠ 0 := (sat64_pos (Int.add_pos (one_pos c) hz)).ne'
    refine (causeOf_bind fun w _ => ?_).trans (causeOf_fxDiv_of_ne c _ hd)
    exact (causeOf_bind fun _ _ => rfl).trans (causeOf_atanTerms c _ _ _ _ _)
  · exact causeOf_atanTerms c _ _ _ _ _

@[simp] theorem causeOf_fxAtan (c : Config) (z : Int) : causeOf (fxAtan c z) = none := by
  unfold fxAtan
  split_ifs with h0 hneg
  · rfl
  · exact (causeOf_bind fun _ _ => rfl).trans (causeOf_atanPositive c (sat64_pos (by omega)))
  · exact causeOf_atanPositive c (by omega)

/-- One − x² is not negative for |x| ≤ One. -/
theorem fxSub_one_square_nonneg {c : Config} (h : c.legal = true) {a : Int} (ha : -c.one ≤ a) (ha1 : a ≤ c.one) :
    0 ≤ fxSub c.one (fxMul c a a) := by
  have hone := one_range h
  have hsq : roundedProduct c a a = roundedProduct c |a| |a| := by simp only [roundedProduct, abs_mul_abs_self]
  have habs : |a| ≤ c.one := abs_le.mpr ⟨ha, ha1⟩
  obtain ⟨h0, h1⟩ := roundedProduct_range h (abs_nonneg a) (abs_nonneg a) habs
  rw [← hsq] at h0 h1
  have hmul : fxMul c a a = roundedProduct c a a :=
    sat64_of_range (by simp only [minRaw]; omega) (by simp only [maxRaw]; omega)
  rw [hmul, fxSub, sat64_of_range (by simp only [minRaw]; omega) (by simp only [maxRaw]; omega)]
  omega

@[simp] theorem causeOf_fxAcos {c : Config} (h : c.legal = true) (a : Int) :
    causeOf (fxAcos c a) = if c.one < a ∨ a < -c.one then some .trigDomain else none := by
  unfold fxAcos
  by_cases hdom : c.one < a ∨ a < -c.one
  · rw [if_pos hdom, if_pos hdom, causeOf_error]
  · rw [if_neg hdom, if_neg hdom]
    refine causeOf_ite (fun _ => rfl) fun h0 => causeOf_ite (fun _ => rfl) fun _ => causeOf_ite (fun _ => rfl) fun _ => ?_
    have hs := fxSub_one_square_nonneg h (a := a) (by omega) (by omega)
    refine (causeOf_bind fun s _ => ?_).trans ((causeOf_fxSqrt c _).trans (if_neg (not_lt.mpr hs)))
    refine (causeOf_bind fun t _ => ?_).trans (causeOf_fxDiv_of_ne c _ h0)
    exact (causeOf_bind fun _ _ => rfl).trans (causeOf_fxAtan c t)

@[simp] theorem causeOf_fxAsin {c : Config} (h : c.legal = true) (a : Int) :
    causeOf (fxAsin c a) = if c.one < a ∨ a < -c.one then some .trigDomain else none := by
  unfold fxAsin
  by_cases hdom : c.one < a ∨ a < -c.one
  · rw [if_pos hdom, if_pos hdom, causeOf_error]
  · have habs : ¬ (c.one < iabs a ∨ iabs a < -c.one) := by
      have := one_pos c
      simp only [iabs]
      split_ifs <;> omega
    have hacos : causeOf (fxAcos c (iabs a)) = none := (causeOf_fxAcos h _).trans (if_neg habs)
    rw [if_neg hdom, if_neg hdom]
    have htail : causeOf (fxAcos c (iabs a) >>= fun t =>
        pure (if a < 0 then fxNeg (fxSub c.piOver2 t) else fxSub c.piOver2 t)) = none :=
      (causeOf_bind fun _ _ => rfl).trans hacos
    exact causeOf_ite (fun _ => rfl) fun _ => causeOf_ite (fun _ => rfl) fun _ => causeOf_ite (fun _ => rfl) fun _ =>
      causeOf_ite (fun _ => rfl) fun _ => causeOf_ite (fun _ => rfl) fun _ => causeOf_ite (fun _ => rfl) fun _ => htail

@[simp] theorem causeOf_fxAtan2 (c : Config) (y x : Int) : causeOf (fxAtan2 c y x) = none := by
  unfold fxAtan2
  by_cases hx : x = 0
  · rw [if_pos hx, causeOf_ok]
  · rw [if_neg hx]
    refine (causeOf_bind fun q _ => ?_).trans (causeOf_fxDiv_of_ne c _ hx)
    exact (causeOf_bind fun _ _ => rfl).trans (causeOf_fxAtan c q)

/-! ## The table of R272 -/

theorem kTable_of_legal (c : Config) {kidx : BitVec 5} (h : kidxLegal kidx = true) : ∃ v, c.kTable kidx = some v := by
  have hle : kidx.toNat ≤ 16 := of_decide_eq_true h
  unfold Config.kTable
  generalize kidx.toNat = k at hle
  interval_cases k <;> exact ⟨_, rfl⟩

theorem tieRuleOf_of_legal {rm : BitVec 2} (h : rmLegal rm = true) : ∃ rule, tieRuleOf rm = some rule := by
  have hle : rm.toNat ≤ 1 := of_decide_eq_true h
  unfold tieRuleOf
  generalize rm.toNat = k at hle
  interval_cases k <;> exact ⟨_, rfl⟩

/-- A command that ends in `complete` ends by the cause of its result. -/
theorem exec_of_causeOf {i : Instr} {s : State} {result : Result} {o : Option Cause}
    (he : exec i s = complete i i.dest result s) (hc : causeOf result = o) :
    (o = none ∧ ∃ v, exec i s = .next (s.writeX i.dest v))
      ∨ ∃ c, o = some c ∧ exec i s = .next (faultEntry c (encodeHead i) s) := by
  cases result with
  | ok v => exact .inl ⟨hc.symm, _, he⟩
  | error c => exact .inr ⟨c, hc.symm, he⟩

/-- A well-formed command in a legal unit: it writes its destination where the table of R272 has no cause for it, and
takes fault entry with the table's cause where it has one. -/
theorem exec_as_tabled {i : Instr} {s : State} (h : s.cfg.legal = true) (hwf : i.wellFormed = true) :
    (faultOf i s = none ∧ ∃ v, exec i s = .next (s.writeX i.dest v))
      ∨ ∃ c, faultOf i s = some c ∧ exec i s = .next (faultEntry c (encodeHead i) s) := by
  cases i with
  | ldr | mov | fromi32 | tof64 | tof32 | toint | add | sub | mul | mulw | neg | abs | shl | shr | cmp | seq | sne
  | slt | sle | sgt | sge | hash | floor | ceil | sin | cos | tan => exact .inl ⟨rfl, _, rfl⟩
  | ldc rd kidx =>
    obtain ⟨v, hv⟩ := kTable_of_legal s.cfg hwf
    exact exec_of_causeOf rfl (by rw [hv]; rfl)
  | round rd rs1 rm =>
    obtain ⟨rule, hrule⟩ := tieRuleOf_of_legal hwf
    exact exec_of_causeOf rfl (by rw [hrule]; rfl)
  | roundd rd rs1 rs2 rm =>
    obtain ⟨rule, hrule⟩ := tieRuleOf_of_legal hwf
    exact exec_of_causeOf rfl (by rw [hrule]; exact causeOf_fxRoundDecimals _ _ _ _)
  | fromf64 rd rs1 => exact exec_of_causeOf rfl (causeOf_fxFromF64 rd rs1 s)
  | div | mod | sqrt | log2 | ln | pow2 | pow | asin | acos | atan | atan2 =>
    refine exec_of_causeOf rfl ?_
    simp [faultOf, h]

/-- R271's last column covers R272's table. -/
theorem canRaise_of_faultOf {i : Instr} {s : State} {c : Cause} (h : faultOf i s = some c) : canRaise i c = true := by
  cases i with
  | fromf64 =>
    simp only [faultOf] at h
    split at h
    · cases h; rfl
    · split at h <;> cases h; rfl
  | pow =>
    simp only [faultOf] at h
    split at h
    · cases h; rfl
    · split at h <;> cases h; rfl
  | div | mod | roundd | sqrt | log2 | ln | asin | acos =>
    simp only [faultOf] at h
    split at h <;> cases h; rfl
  | _ => cases h

end Sys2Proof.Machine
end

section
/-! PROOF. R22, R23, R30, R67, R70: what `issue` and `step` can do, said once, with the facts that every step keeps and what
they give: a step runs the issued command, the host's reads, CONFIG, and the invariant of the control state. -/

namespace Sys2Proof.Machine

/-! ## One word at the port -/

/-- The state in which an issued word is taken: R22's count has gone up. -/
def State.counted (s : State) : State := { s with wordsIssued := s.wordsIssued + 1 }

theorem issue_of_faulted {s : State} (w : CmdWord) (hs : s.runState = .faulted) : issue w s = .next s.counted := by
  simp [issue, hs, State.counted]

theorem issue_of_low_awaited {s : State} (w : CmdWord) (hs : s.runState = .run) (hl : s.litPending = 2) :
    issue w s = .next { s.counted with litPending := 1, heldLow := w } := by
  simp [issue, hs, hl, State.counted]

theorem issue_of_high_awaited {s : State} (w : CmdWord) (hs : s.runState = .run) (hl : s.litPending = 1) :
    issue w s = exec (.ldr s.heldRd (w ++ s.heldLow)) { s.counted with litPending := 0 } := by
  simp [issue, hs, hl, State.counted]

theorem issue_of_ready {s : State} (w : CmdWord) (hs : s.runState = .run) (hl : s.litPending = 0) :
    issue w s = issueHead w s.counted := by
  simp [issue, hs, hl, State.counted]

theorem issueHead_of_illegal {w : CmdWord} {e : DecodeError} (s : State) (h : decodeHead w = .error e) :
    issueHead w s = .next (faultEntry .illegalCmd w s) := by
  simp [issueHead, h, raise]

theorem issueHead_of_command {w : CmdWord} {i : Instr} (s : State) (h : decodeHead w = .ok (.command i)) :
    issueHead w s = exec i s := by
  simp [issueHead, h]

theorem issueHead_of_literal {w : CmdWord} {rd : Reg} (s : State) (h : decodeHead w = .ok (.literal rd)) :
    issueHead w s = .next { s with litPending := 2, heldRd := rd } := by
  simp [issueHead, h]

/-- Everything an issued word can do: it is discarded, is the low or the high literal word, starts an LDR, is illegal, or
is a command that writes its destination or takes a fault. -/
inductive IssueEffect (w : CmdWord) (s : State) : State → Prop
  | discarded (hs : s.runState = .faulted) : IssueEffect w s s.counted
  | lowHeld (hs : s.runState = .run) : IssueEffect w s { s.counted with litPending := 1, heldLow := w }
  | loaded (hs : s.runState = .run) :
      IssueEffect w s (State.writeX { s.counted with litPending := 0 } s.heldRd (w ++ s.heldLow))
  | awaits (rd : Reg) (hs : s.runState = .run) (hw : decodeHead w = .ok (.literal rd)) :
      IssueEffect w s { s.counted with litPending := 2, heldRd := rd }
  | illegal (e : DecodeError) (hs : s.runState = .run) (hw : decodeHead w = .error e) :
      IssueEffect w s (faultEntry .illegalCmd w s.counted)
  | wrote (i : Instr) (v : Word) (hs : s.runState = .run) (hw : decodeHead w = .ok (.command i))
      (he : exec i s.counted = .next (s.counted.writeX i.dest v)) : IssueEffect w s (s.counted.writeX i.dest v)
  | faulted (i : Instr) (c : Cause) (hs : s.runState = .run) (hw : decodeHead w = .ok (.command i))
      (he : exec i s.counted = .next (faultEntry c (encodeHead i) s.counted)) :
      IssueEffect w s (faultEntry c (encodeHead i) s.counted)

theorem issue_effect (w : CmdWord) (s : State) : ∃ t, issue w s = .next t ∧ IssueEffect w s t := by
  cases hs : s.runState with
  | faulted => exact ⟨_, issue_of_faulted w hs, .discarded hs⟩
  | run =>
    obtain hl | hl | hl : s.litPending = 0 ∨ s.litPending = 1 ∨ s.litPending = 2 := by omega
    · rw [issue_of_ready w hs hl]
      match hw : decodeHead w with
      | .error e => exact ⟨_, issueHead_of_illegal _ hw, .illegal e hs hw⟩
      | .ok (.literal rd) => exact ⟨_, issueHead_of_literal _ hw, .awaits rd hs hw⟩
      | .ok (.command i) =>
        rw [issueHead_of_command _ hw]
        obtain ⟨v, he⟩ | ⟨c, he⟩ := exec_cases i s.counted
        · exact ⟨_, he, .wrote i v hs hw he⟩
        · exact ⟨_, he, .faulted i c hs hw he⟩
    · exact ⟨_, issue_of_high_awaited w hs hl, .loaded hs⟩
    · exact ⟨_, issue_of_low_awaited w hs hl, .lowHeld hs⟩

theorem effect_of_issue {w : CmdWord} {s t : State} (h : issue w s = .next t) : IssueEffect w s t := by
  obtain ⟨t', ht, heffect⟩ := issue_effect w s
  obtain rfl : t' = t := by simpa [ht] using h
  exact heffect

/-! ## One step -/

theorem takeLiterals_of_ready (n : Nat) {s : State} (hl : s.litPending = 0) : takeLiterals n s = .next s := by
  cases n <;> simp [takeLiterals, hl]

theorem takeLiterals_of_issue (n : Nat) {s t : State} {w : CmdWord} {rest : List HostOp} (hl : s.litPending ≠ 0)
    (hin : s.inbox = .issue w :: rest) (hi : issue w { s with inbox := rest } = .next t) :
    takeLiterals (n + 1) s = takeLiterals n t := by
  simp [takeLiterals, hl, hin, hi]

theorem serve_issue {w : CmdWord} {s t : State} (hi : issue w s = .next t) :
    serve (.issue w) s = takeLiterals 2 t := by
  simp [serve, hi]

theorem step_of_inbox {s : State} {op : HostOp} {rest : List HostOp} (h : s.cfg.legal = true)
    (hin : s.inbox = op :: rest) : step s = serve op { s with inbox := rest } := by
  simp [step, h, serveNext, hin]

theorem step_of_idle {s : State} (h : s.cfg.legal = true) (hin : s.inbox = []) : step s = .next s := by
  simp [step, h, serveNext, hin]

theorem legal_of_step {s t : State} (h : step s = .next t) : s.cfg.legal = true := by
  by_contra hl
  simp [step, hl] at h

section
/-! What every step keeps: a property that no entry in the host's lists, no issued word and no Reset() breaks. -/

variable {P : State → Prop} (hinbox : ∀ s rest, P s → P { s with inbox := rest })
  (hissue : ∀ w s t, P s → issue w s = .next t → P t)

include hinbox hissue

theorem takeLiterals_keeps (n : Nat) : ∀ {s t : State}, P s → takeLiterals n s = .next t → P t := by
  induction n with
  | zero =>
    intro s t hs h
    obtain rfl : s = t := by simpa [takeLiterals] using h
    exact hs
  | succ n ih =>
    intro s t hs h
    by_cases hl : s.litPending = 0
    · obtain rfl : s = t := by simpa [takeLiterals_of_ready _ hl] using h
      exact hs
    match hin : s.inbox with
    | .issue w :: rest =>
      obtain ⟨u, hu, -⟩ := issue_effect w { s with inbox := rest }
      rw [takeLiterals_of_issue n hl hin hu] at h
      exact ih (hissue w _ u (hinbox s rest hs) hu) h
    | [] | .readX _ :: _ | .readCtl _ :: _ | .reset :: _ =>
      obtain rfl : s = t := by simpa [takeLiterals, hl, hin] using h
      exact hs

theorem step_keeps (hreplies : ∀ s rs, P s → P { s with replies := rs }) (hreset : ∀ s, P s → P (hostReset s))
    {s t : State} (hs : P s) (h : step s = .next t) : P t := by
  have hlegal := legal_of_step h
  match hin : s.inbox with
  | [] =>
    obtain rfl : s = t := by simpa [step_of_idle hlegal hin] using h
    exact hs
  | op :: rest =>
    rw [step_of_inbox hlegal hin] at h
    have hs' := hinbox s rest hs
    cases op with
    | issue w =>
      obtain ⟨u, hu, -⟩ := issue_effect w { s with inbox := rest }
      rw [serve_issue hu] at h
      exact takeLiterals_keeps hinbox hissue 2 (hissue w _ u hs' hu) h
    | readX | readCtl =>
      cases h
      exact hreplies _ _ hs'
    | reset =>
      obtain rfl : hostReset { s with inbox := rest } = t := by simpa only [serve, Host.Outcome.next.injEq] using h
      exact hreset _ hs'

end

/-! ## The configuration never changes (R27) -/

theorem cfg_of_issue {w : CmdWord} {s t : State} (h : issue w s = .next t) : t.cfg = s.cfg := by
  cases effect_of_issue h <;> rfl

theorem cfg_of_step {s t : State} (h : step s = .next t) : t.cfg = s.cfg :=
  step_keeps (P := fun u => u.cfg = s.cfg) (fun _ _ hu => hu) (fun _ _ _ hu hi => (cfg_of_issue hi).trans hu)
    (fun _ _ hu => hu) (fun u hu => (hostReset_cfg u).trans hu) rfl h

/-! ## The invariant of the control state -/

/-- In RUN the invariant is about the configuration, the run state, STATUS and FAULTCMD only. -/
theorem State.Inv.of_run {s t : State} (h : s.Inv) (hs : s.runState = .run) (hcfg : t.cfg = s.cfg)
    (hrun : t.runState = s.runState) (hstatus : t.status = s.status) (hcmd : t.faultCmd = s.faultCmd) : t.Inv where
  legal := hcfg ▸ h.legal
  running _ := by rw [hstatus, hcmd]; exact h.running hs
  halted hf := by simp [hrun, hs] at hf

theorem inv_faultEntry {s : State} {c : Cause} {w0 : CmdWord} (h : s.cfg.legal = true) (hfit : recordFits c w0 = true) :
    (faultEntry c w0 s).Inv where
  legal := h
  running hr := by simp at hr
  halted _ := ⟨rfl, c, rfl, hfit⟩

theorem inv_hostReset {s : State} (h : s.cfg.legal = true) : (hostReset s).Inv where
  legal := by rw [hostReset_cfg, h]
  running _ := ⟨hostReset_status s, hostReset_faultCmd s⟩
  halted hf := by simp at hf

/-- A command that has decoded and takes a fault raises a cause that R271 lists for it, and its first word, encoded again,
is the word of that command. -/
theorem recordFits_of_faulted {s : State} {w : CmdWord} {i : Instr} {c : Cause} (h : s.cfg.legal = true)
    (hw : decodeHead w = .ok (.command i)) (he : exec i s = .next (faultEntry c (encodeHead i) s))
    (hrun : s.runState = .run) : recordFits c (encodeHead i) = true := by
  obtain ⟨hwf, hhead⟩ := legal_of_decodeHead_command hw
  have hdec : decodeHead (encodeHead i) = .ok (.command i) :=
    hhead ▸ Laws.HeadRoundTrip.decodeHead_encodeHead i hwf
  have hfault : faultOf i s = some c := by
    have hf : Faults i s c := ⟨_, he, tookFault_faultEntry s c _⟩
    obtain ⟨-, v, hv⟩ | ⟨d, hd, hed⟩ := exec_as_tabled h hwf
    · exact absurd hf (not_faults_of_writeX hrun hv)
    · exact (faults_iff_of_faultEntry hed).mp hf ▸ hd
  simp [recordFits, hdec, canRaise_of_faultOf hfault]

theorem inv_of_issue {w : CmdWord} {s t : State} (h : s.Inv) (hi : issue w s = .next t) : t.Inv := by
  cases effect_of_issue hi with
  | discarded => exact ⟨h.legal, h.running, h.halted⟩
  | lowHeld hs | loaded hs | awaits rd hs | wrote i v hs => exact h.of_run hs rfl rfl rfl rfl
  | illegal e hs hw => exact inv_faultEntry h.legal (by simp [recordFits, hw])
  | faulted i c hs hw he => exact inv_faultEntry h.legal (recordFits_of_faulted (s := s.counted) h.legal hw he hs)

/-! ## A command that runs -/

/-- A command leaves no literal awaited. -/
theorem litPending_of_exec {i : Instr} {s : State} (hl : s.litPending = 0) :
    ∃ t, exec i s = .next t ∧ t.litPending = 0 := by
  obtain ⟨v, he⟩ | ⟨c, he⟩ := exec_cases i s
  · exact ⟨_, he, hl⟩
  · exact ⟨_, he, rfl⟩

theorem serve_command {s : State} {w : CmdWord} {i : Instr} (hs : s.runState = .run) (hl : s.litPending = 0)
    (hw : decodeHead w = .ok (.command i)) : serve (.issue w) s = exec i s.counted := by
  obtain ⟨t, het, hlt⟩ := litPending_of_exec (i := i) (s := s.counted) hl
  have hissue : issue w s = .next t := by rw [issue_of_ready w hs hl, issueHead_of_command _ hw, het]
  rw [serve_issue hissue, takeLiterals_of_ready 2 hlt, het]

theorem serve_ldr {s : State} {w0 w1 w2 : CmdWord} {rd : Reg} {rest : List HostOp} (hs : s.runState = .run)
    (hl : s.litPending = 0) (hin : s.inbox = .issue w1 :: .issue w2 :: rest) (hw : decodeHead w0 = .ok (.literal rd)) :
    serve (.issue w0) s = exec (.ldr rd (w2 ++ w1))
      { s with inbox := rest, wordsIssued := s.wordsIssued + 3, heldRd := rd, heldLow := w1 } := by
  have h0 : issue w0 s = .next { s.counted with litPending := 2, heldRd := rd } :=
    (issue_of_ready w0 hs hl).trans (issueHead_of_literal _ hw)
  calc serve (.issue w0) s
    _ = takeLiterals 2 _ := serve_issue h0
    _ = takeLiterals 1 _ := takeLiterals_of_issue 1 (by simp) hin (issue_of_low_awaited w1 hs rfl)
    _ = takeLiterals 0 _ := takeLiterals_of_issue 0 (by simp) rfl (issue_of_high_awaited w2 hs rfl)
    _ = _ := by
      cases s
      subst hl
      rfl

/-! ## CONFIG's fields -/

theorem maxDecimals_lt {c : Config} (h : c.legal = true) : c.maxDecimals < 19 := by
  simp only [Config.legal, decide_eq_true_eq] at h
  obtain ⟨-, -, -, -, -, -, -, -, -, -, -, -, -, -, hpow⟩ := h
  rw [maxRaw] at hpow
  by_contra hge
  have h1 : (10 : Int) ^ 19 ≤ 10 ^ c.maxDecimals := pow_le_pow_right₀ (by norm_num) (by omega)
  have h2 := pow2_pos c.fracBits
  nlinarith

theorem config_fields (c : Config) :
    c.word.extractLsb' 0 8 = BitVec.ofNat 8 c.fracBits ∧ c.word.extractLsb' 8 8 = BitVec.ofNat 8 c.maxDecimals
      ∧ c.word.extractLsb' 16 8 = 1#8 ∧ c.word.extractLsb' 24 8 = 0#8 := by
  refine ⟨field_here _ _, ?_, ?_, ?_⟩
  · exact (field_above _ _ 0 8).trans (field_here _ _)
  · exact (field_above _ _ 8 8).trans ((field_above _ _ 0 8).trans (field_here _ _))
  · exact (field_above _ _ 16 8).trans ((field_above _ _ 8 8).trans ((field_above _ _ 0 8).trans (field_whole _)))

/-! ## States that differ in unwritten registers only (R31) -/

theorem AgreeOnWritten.writeX {s t : State} (h : AgreeOnWritten s t) (rd : Reg) (v : Word) :
    AgreeOnWritten (s.writeX rd v) (t.writeX rd v) :=
  { h with
    values := fun r hr => by
      obtain rfl | hrd := eq_or_ne r rd
      · simp
      · rw [hasWritten_writeX_other _ _ hrd] at hr
        rw [readX_writeX_other _ _ hrd, readX_writeX_other _ _ hrd, h.values r hr]
    notes := fun r => by
      obtain rfl | hrd := eq_or_ne r rd
      · simp
      · rw [hasWritten_writeX_other _ _ hrd, hasWritten_writeX_other _ _ hrd, h.notes r] }

theorem AgreeOnWritten.faultEntry {s t : State} (h : AgreeOnWritten s t) (c : Cause) (w0 : CmdWord) :
    AgreeOnWritten (faultEntry c w0 s) (faultEntry c w0 t) :=
  { h with runState := rfl, status := rfl, faultCmd := rfl, litPending := rfl }

end Sys2Proof.Machine

namespace Sys2Proof.Claims

open Sys2Proof.Machine

/-- Settles O15: `inv_of_issue` for the words, and the host's lists and Reset() by the definition of the invariant. -/
theorem stepKeepsControlInvariant : Obligations.StepKeepsControlInvariant := fun _ _ hs h =>
  step_keeps (fun _ _ hu => ⟨hu.legal, hu.running, hu.halted⟩) (fun _ _ _ => inv_of_issue)
    (fun _ _ hu => ⟨hu.legal, hu.running, hu.halted⟩) (fun _ hu => inv_hostReset hu.legal) hs h

/-- Settles O21: the two states agree on what the command reads, so it ends alike in them. -/
theorem unwrittenRegistersStayInvisible : Obligations.UnwrittenRegistersStayInvisible := by
  intro i s t hagree hread
  have hsources : ∀ r ∈ i.sources, t.readX r = s.readX r := fun r hr =>
    hagree.values r (List.all_eq_true.mp hread r hr)
  obtain ⟨v, hes, het⟩ | ⟨c, hes, het⟩ := exec_endsAlike i hagree.cfg hsources
  · exact ⟨_, _, hes, het, hagree.writeX i.dest v⟩
  · exact ⟨_, _, hes, het, hagree.faultEntry c (encodeHead i)⟩

/-- Settles O7: `serve_command` and `serve_ldr`, in the state with the first word taken from the inbox. -/
theorem stepRunsTheIssuedCommand : Obligations.StepRunsTheIssuedCommand := by
  constructor
  · intro s w i rest hlegal hs hl hin hw
    exact (step_of_inbox hlegal hin).trans (serve_command (s := { s with inbox := rest }) hs hl hw)
  · intro s w0 w1 w2 rd rest hlegal hs hl hin hw
    exact (step_of_inbox hlegal hin).trans
      (serve_ldr (s := { s with inbox := .issue w1 :: .issue w2 :: rest }) hs hl rfl hw)

/-- Settles O12: both reads are served as `serve` defines them, and the address picks the register in `readCtl`. -/
theorem hostReadsAnswerAndChangeNothing : Obligations.HostReadsAnswerAndChangeNothing := by
  intro s rest hlegal
  constructor
  · intro r hin
    exact step_of_inbox hlegal hin
  · intro a hin
    refine ⟨s.readCtl a, step_of_inbox hlegal hin, ?_, ?_, ?_, ?_⟩
    · rintro rfl; rfl
    · rintro rfl; rfl
    · rintro rfl; rfl
    · intro h10 h11 h12
      simp [State.readCtl, h10, h11, h12]

/-- Settles O13: the fields are those packed into `Config.word`, each within its eight bits, and `cfg_of_step`. -/
theorem configIsHardwired : Obligations.ConfigIsHardwired := by
  constructor
  · intro s hlegal
    obtain ⟨hf, hd, hv, hz⟩ := config_fields s.cfg
    have hf30 := (fracBits_range hlegal).2
    have hd19 := maxDecimals_lt hlegal
    refine ⟨(congrArg BitVec.toNat hf).trans ?_, (congrArg BitVec.toNat hd).trans ?_, hv, hz, rfl⟩
    · exact Nat.mod_eq_of_lt (by omega)
    · exact Nat.mod_eq_of_lt (by omega)
  · intro s t h
    exact ⟨congrArg Config.word (cfg_of_step h), cfg_of_step h⟩

end Sys2Proof.Claims
end

section
/-! PROOF. 20_memory.md R41: the four stored bytes of a word make the word again, so `decodeBytes` reads from a command's
stored bytes what `decodeHead` says of its words. -/

namespace Sys2Proof

open Sys2Proof.Laws.HeadRoundTrip (headOf)

/-! ## Parts put together again -/

theorem wordOfBytes_parts (w : CmdWord) :
    wordOfBytes (w.extractLsb' 0 8) (w.extractLsb' 8 8) (w.extractLsb' 16 8) (w.extractLsb' 24 8) = w := by
  unfold wordOfBytes
  rw [BitVec.extractLsb'_append_extractLsb'_eq_extractLsb' (start₁ := 16) (start₂ := 24) rfl,
    BitVec.extractLsb'_append_extractLsb'_eq_extractLsb' (start₁ := 8) (start₂ := 16) rfl,
    BitVec.extractLsb'_append_extractLsb'_eq_extractLsb' (start₁ := 0) (start₂ := 8) rfl]
  exact field_whole w

/-- R66: a literal is its high word above its low word. -/
theorem append_literal_words (literal : Word) :
    literal.extractLsb' 32 32 ++ literal.extractLsb' 0 32 = literal :=
  (BitVec.extractLsb'_append_extractLsb'_eq_extractLsb' rfl).trans (field_whole literal)

/-! ## The decoder on stored words -/

theorem decodeBytes_command {w : CmdWord} {i : Instr} (rest : List Byte) (h : decodeHead w = .ok (.command i)) :
    decodeBytes (bytesOfWord w ++ rest) = .ok (i, rest) := by
  simp [bytesOfWord, decodeBytes, wordOfBytes_parts, h]

theorem decodeBytes_literal {w0 : CmdWord} {rd : Reg} (w1 w2 : CmdWord) (rest : List Byte)
    (h : decodeHead w0 = .ok (.literal rd)) :
    decodeBytes (bytesOfWord w0 ++ (bytesOfWord w1 ++ (bytesOfWord w2 ++ rest))) = .ok (.ldr rd (w2 ++ w1), rest) := by
  simp [bytesOfWord, decodeBytes, wordOfBytes_parts, h]

/-! ## Commands of three words and of one (R67) -/

theorem ldr_or_one_word (i : Instr) :
    (∃ rd literal, i = .ldr rd literal) ∨ (headOf i = .command i ∧ encode i = [encodeHead i]) := by
  cases i with
  | ldr rd literal => exact .inl ⟨rd, literal, rfl⟩
  | _ => exact .inr ⟨rfl, rfl⟩

end Sys2Proof

namespace Sys2Proof.Claims

open Sys2Proof.Laws.HeadRoundTrip (decodeHead_encodeHead)

/-- Settles O3: an LDR's literal is put together from its two stored words, any other command is its first word. -/
theorem storedBytesDecodeBack : Obligations.StoredBytesDecodeBack := by
  intro i rest hwf
  have hhead := decodeHead_encodeHead i hwf
  obtain ⟨rd, literal, rfl⟩ | ⟨hcommand, hencode⟩ := ldr_or_one_word i
  · have hbytes := decodeBytes_literal (literal.extractLsb' 0 32) (literal.extractLsb' 32 32) rest hhead
    rw [append_literal_words] at hbytes
    simpa [encodeBytes, encode] using hbytes
  · rw [hcommand] at hhead
    simpa [encodeBytes, hencode] using decodeBytes_command rest hhead

end Sys2Proof.Claims
end

section
/-! PROOF. 20_memory.md R42, R44: an LDR word by word, and the frame of a whole step. A word that leaves a literal awaited
changes neither a register nor the fault record, so a step that takes several words changes what its last word changes. -/

namespace Sys2Proof.Machine

/-! ## What a host sees of a step -/

/-- From s to t no general register and no part of the fault record has changed. -/
structure Quiet (s t : State) : Prop where
  registers : ∀ r, t.readX r = s.readX r
  runState : t.runState = s.runState
  status : t.status = s.status
  faultCmd : t.faultCmd = s.faultCmd

/-- From s to t at most one register has changed and the fault record has not, or no register has changed. -/
inductive OneWriteOrFault (s t : State) : Prop
  | write (rd : Reg) (others : ∀ r, r ≠ rd → t.readX r = s.readX r) (runState : t.runState = s.runState)
      (status : t.status = s.status) (faultCmd : t.faultCmd = s.faultCmd)
  | fault (registers : ∀ r, t.readX r = s.readX r)

theorem OneWriteOrFault.refl (s : State) : OneWriteOrFault s s := .fault fun _ => rfl

theorem Quiet.trans_oneWriteOrFault {s u t : State} (hq : Quiet s u) (h : OneWriteOrFault u t) :
    OneWriteOrFault s t := by
  cases h with
  | write rd others runState status faultCmd =>
    exact .write rd (fun r hr => (others r hr).trans (hq.registers r)) (runState.trans hq.runState)
      (status.trans hq.status) (faultCmd.trans hq.faultCmd)
  | fault registers => exact .fault fun r => (registers r).trans (hq.registers r)

theorem oneWriteOrFault_writeX {s u : State} (hq : Quiet s u) (rd : Reg) (v : Word) :
    OneWriteOrFault s (u.writeX rd v) :=
  hq.trans_oneWriteOrFault (.write rd (fun _ hr => readX_writeX_other u v hr) rfl rfl rfl)

theorem quiet_counted (s : State) : Quiet s s.counted := ⟨fun _ => rfl, rfl, rfl, rfl⟩

theorem quiet_inbox (s : State) (rest : List HostOp) : Quiet s { s with inbox := rest } :=
  ⟨fun _ => rfl, rfl, rfl, rfl⟩

/-! ## One word, and the literal words after it -/

/-- A word that starts a command changes nothing a host sees, or is the whole command and leaves no literal awaited. -/
theorem frame_of_issueHead {w : CmdWord} {s t : State} (hl : s.litPending = 0) (h : issueHead w s.counted = .next t) :
    Quiet s t ∨ t.litPending = 0 ∧ OneWriteOrFault s t := by
  match hw : decodeHead w with
  | .error e =>
    rw [issueHead_of_illegal _ hw] at h
    cases h
    exact .inr ⟨rfl, .fault fun _ => rfl⟩
  | .ok (.literal rd) =>
    rw [issueHead_of_literal _ hw] at h
    cases h
    exact .inl ⟨fun _ => rfl, rfl, rfl, rfl⟩
  | .ok (.command i) =>
    rw [issueHead_of_command _ hw] at h
    obtain ⟨v, he⟩ | ⟨c, he⟩ := exec_cases i s.counted
    · obtain rfl : s.counted.writeX i.dest v = t := by simpa [he] using h
      exact .inr ⟨hl, oneWriteOrFault_writeX (quiet_counted s) i.dest v⟩
    · obtain rfl : faultEntry c (encodeHead i) s.counted = t := by simpa [he] using h
      exact .inr ⟨rfl, .fault fun _ => rfl⟩

/-- Every word changes nothing a host sees, or leaves no literal awaited. -/
theorem frame_of_issue {w : CmdWord} {s t : State} (h : issue w s = .next t) :
    Quiet s t ∨ t.litPending = 0 ∧ OneWriteOrFault s t := by
  cases hs : s.runState with
  | faulted =>
    obtain rfl : s.counted = t := by simpa [issue_of_faulted w hs] using h
    exact .inl (quiet_counted s)
  | run =>
    obtain hl | hl | hl : s.litPending = 0 ∨ s.litPending = 1 ∨ s.litPending = 2 := by omega
    · rw [issue_of_ready w hs hl] at h
      exact frame_of_issueHead hl h
    · rw [issue_of_high_awaited w hs hl] at h
      cases h
      exact .inr ⟨rfl, oneWriteOrFault_writeX (s := s) (u := { s.counted with litPending := 0 })
        ⟨fun _ => rfl, rfl, rfl, rfl⟩ s.heldRd _⟩
    · rw [issue_of_low_awaited w hs hl] at h
      cases h
      exact .inl ⟨fun _ => rfl, rfl, rfl, rfl⟩

/-- After a word the literal words only add their own change, since a command that has ended leaves none awaited. -/
theorem frame_of_issue_takeLiterals {w : CmdWord} {s t u : State} {n : Nat}
    (htail : takeLiterals n u = .next t → OneWriteOrFault u t) (hu : issue w s = .next u)
    (h : takeLiterals n u = .next t) : OneWriteOrFault s t := by
  obtain hq | ⟨hl, hframe⟩ := frame_of_issue hu
  · exact hq.trans_oneWriteOrFault (htail h)
  · obtain rfl : u = t := by simpa [takeLiterals_of_ready n hl] using h
    exact hframe

theorem frame_of_takeLiterals (n : Nat) : ∀ {s t : State}, takeLiterals n s = .next t → OneWriteOrFault s t := by
  induction n with
  | zero =>
    intro s t h
    cases h
    exact .refl s
  | succ n ih =>
    intro s t h
    by_cases hl : s.litPending = 0
    · obtain rfl : s = t := by simpa [takeLiterals_of_ready _ hl] using h
      exact .refl s
    match hin : s.inbox with
    | .issue w :: rest =>
      obtain ⟨u, hu, -⟩ := issue_effect w { s with inbox := rest }
      rw [takeLiterals_of_issue n hl hin hu] at h
      exact (quiet_inbox s rest).trans_oneWriteOrFault (frame_of_issue_takeLiterals ih hu h)
    | [] | .readX _ :: _ | .readCtl _ :: _ | .reset :: _ =>
      obtain rfl : s = t := by simpa [takeLiterals, hl, hin] using h
      exact .refl s

/-! ## A whole step -/

theorem frame_of_serve {op : HostOp} {s t : State} (hop : op ≠ .reset) (h : serve op s = .next t) :
    OneWriteOrFault s t := by
  cases op with
  | issue w =>
    obtain ⟨u, hu, -⟩ := issue_effect w s
    rw [serve_issue hu] at h
    exact frame_of_issue_takeLiterals (frame_of_takeLiterals 2) hu h
  | readX | readCtl =>
    cases h
    exact .fault fun _ => rfl
  | reset => exact absurd rfl hop

theorem frame_of_step {s t : State} (h : step s = .next t) (hreset : s.inbox.head? ≠ some .reset) :
    OneWriteOrFault s t := by
  have hlegal := legal_of_step h
  match hin : s.inbox with
  | [] =>
    obtain rfl : s = t := by simpa [step_of_idle hlegal hin] using h
    exact .refl s
  | op :: rest =>
    rw [step_of_inbox hlegal hin] at h
    have hop : op ≠ .reset := by simpa [hin] using hreset
    exact (quiet_inbox s rest).trans_oneWriteOrFault (frame_of_serve hop h)

end Sys2Proof.Machine

namespace Sys2Proof.Claims

open Sys2Proof.Machine

/-- Settles O8: `issueHead_of_literal`, then the two rules for an awaited word, the last of which is LDR's write. -/
theorem literalWordsLoadTheRegister : Obligations.LiteralWordsLoadTheRegister := by
  intro s w0 w1 w2 rd hs hl hw
  have h0 : issue w0 s = .next { s.counted with litPending := 2, heldRd := rd } :=
    (issue_of_ready w0 hs hl).trans (issueHead_of_literal _ hw)
  refine ⟨_, _, _, h0, issue_of_low_awaited w1 hs rfl, issue_of_high_awaited w2 hs rfl, rfl, rfl, rfl,
    fun _ => ⟨rfl, rfl⟩, ?_, ?_, hs, rfl, rfl⟩
  · exact readX_writeX_same _ rd _
  · exact fun r hr => readX_writeX_other _ _ hr

/-- Settles O16: `frame_of_step`, which excludes a register write beside a change of the fault record. -/
theorem stepWritesOneRegisterOrRecordsAFault : Obligations.StepWritesOneRegisterOrRecordsAFault := by
  intro s t h hreset
  cases frame_of_step h hreset with
  | write rd others runState status faultCmd =>
    exact ⟨⟨rd, others⟩, by simp [runState, status, faultCmd]⟩
  | fault registers => exact ⟨⟨0, fun r _ => registers r⟩, fun _ => registers⟩

end Sys2Proof.Claims
end

section
/-! PROOF. R60 to R70: the decoder and the opcode table. Which format `decodeHead` reads a word by is said once, over the
rows of the table; a word whose reserved bits are 0 is its fields packed again; so a word that decodes is the first word
of its command. -/

namespace Sys2Proof

open Sys2Proof.Claims

/-! ## The format of a word (R68) -/

theorem decodeHead_of_ldr {w : CmdWord} (h : opOf w = 0x01#8) : decodeHead w = decodeL w := by simp [decodeHead, h]

theorem decodeHead_of_ldc {w : CmdWord} (h : opOf w = 0x02#8) : decodeHead w = decodeK w .ldc := by simp [decodeHead, h]

theorem decodeHead_of_round {w : CmdWord} (h : opOf w = 0x32#8) : decodeHead w = decodeR2M w .round := by
  simp [decodeHead, h]

theorem decodeHead_of_roundd {w : CmdWord} (h : opOf w = 0x33#8) : decodeHead w = decodeR3M w .roundd := by
  simp [decodeHead, h]

theorem decodeHead_of_rowsR2 {w : CmdWord} :
    ∀ row ∈ rowsR2, opOf w = BitVec.ofNat 8 row.1 → decodeHead w = decodeR2 w row.2 := by
  intro row hrow hop
  unfold decodeHead
  rw [hop]
  fin_cases hrow <;> rfl

theorem decodeHead_of_rowsR3 {w : CmdWord} :
    ∀ row ∈ rowsR3, opOf w = BitVec.ofNat 8 row.1 → decodeHead w = decodeR3 w row.2 := by
  intro row hrow hop
  unfold decodeHead
  rw [hop]
  fin_cases hrow <;> rfl

theorem decodeHead_of_unassigned {w : CmdWord} (h : UnassignedOp (opOf w).toNat) :
    decodeHead w = .error .unassignedOpcode := by
  unfold decodeHead
  split
  case h_43 => rfl
  all_goals simp_all [UnassignedOp]

/-- Every opcode is unassigned or stands in a row of the opcode table. -/
theorem opcode_cases : ∀ op : BitVec 8,
    UnassignedOp op.toNat ∨ op = 0x01#8 ∨ op = 0x02#8 ∨ op = 0x32#8 ∨ op = 0x33#8
      ∨ (∃ row ∈ rowsR2, op = BitVec.ofNat 8 row.1) ∨ ∃ row ∈ rowsR3, op = BitVec.ofNat 8 row.1 := by
  unfold UnassignedOp
  decide +kernel

/-- How the decoder reads a word: by the format of the row in which its OP stands, or not at all. -/
inductive ReadByFormat (w : CmdWord) : Prop
  | l (hop : opOf w = 0x01#8) (hw : decodeHead w = decodeL w)
  | k (hop : opOf w = 0x02#8) (hw : decodeHead w = decodeK w .ldc)
  | r2m (hop : opOf w = 0x32#8) (hw : decodeHead w = decodeR2M w .round)
  | r3m (hop : opOf w = 0x33#8) (hw : decodeHead w = decodeR3M w .roundd)
  | r2 (row : Nat × (Reg → Reg → Instr)) (hrow : row ∈ rowsR2) (hop : opOf w = BitVec.ofNat 8 row.1)
      (hw : decodeHead w = decodeR2 w row.2)
  | r3 (row : Nat × (Reg → Reg → Reg → Instr)) (hrow : row ∈ rowsR3) (hop : opOf w = BitVec.ofNat 8 row.1)
      (hw : decodeHead w = decodeR3 w row.2)
  | unassigned (hop : UnassignedOp (opOf w).toNat) (hw : decodeHead w = .error .unassignedOpcode)

theorem readByFormat (w : CmdWord) : ReadByFormat w := by
  obtain h | h | h | h | h | ⟨row, hrow, h⟩ | ⟨row, hrow, h⟩ := opcode_cases (opOf w)
  · exact .unassigned h (decodeHead_of_unassigned h)
  · exact .l h (decodeHead_of_ldr h)
  · exact .k h (decodeHead_of_ldc h)
  · exact .r2m h (decodeHead_of_round h)
  · exact .r3m h (decodeHead_of_roundd h)
  · exact .r2 row hrow h (decodeHead_of_rowsR2 row hrow h)
  · exact .r3 row hrow h (decodeHead_of_rowsR3 row hrow h)

/-! ## A word is its fields packed again (R61 to R66) -/

/-- A field under a mask that the word meets in 0 is 0. -/
theorem field_of_masked {w mask : CmdWord} (h : w &&& mask = 0#32) (start len : Nat)
    (hm : mask.extractLsb' start len = BitVec.allOnes len) : w.extractLsb' start len = 0#len := by
  calc w.extractLsb' start len
      = w.extractLsb' start len &&& mask.extractLsb' start len := by rw [hm, BitVec.and_allOnes]
    _ = (w &&& mask).extractLsb' start len := BitVec.extractLsb'_and.symm
    _ = 0#len := by rw [h, BitVec.extractLsb'_zero]

/-- Two fields of a word next to one another are one. -/
theorem field_append_field (w : CmdWord) (low m k : Nat) :
    w.extractLsb' (low + m) k ++ w.extractLsb' low m = w.extractLsb' low (k + m) :=
  BitVec.extractLsb'_append_extractLsb'_eq_extractLsb' rfl

theorem packL_fields {w : CmdWord} {op : BitVec 8} (hop : opOf w = op) (h : w &&& 0x000FFFFF#32 = 0#32) :
    packL op (rdOf w) = w := by
  calc packL op (rdOf w)
      = w.extractLsb' 24 8 ++ w.extractLsb' 20 4 ++ w.extractLsb' 0 20 := by
        rw [field_of_masked h 0 20 (by decide), ← hop]; rfl
    _ = w := by
        rw [field_append_field w 20 4 8, field_append_field w 0 20 12, field_whole]

theorem packK_fields {w : CmdWord} {op : BitVec 8} (hop : opOf w = op) (h : w &&& 0x000FFFE0#32 = 0#32) :
    packK op (rdOf w) (kidxOf w) = w := by
  calc packK op (rdOf w) (kidxOf w)
      = w.extractLsb' 24 8 ++ w.extractLsb' 20 4 ++ w.extractLsb' 5 15 ++ w.extractLsb' 0 5 := by
        rw [field_of_masked h 5 15 (by decide), ← hop]; rfl
    _ = w := by
        rw [field_append_field w 20 4 8, field_append_field w 5 15 12, field_append_field w 0 5 27, field_whole]

theorem packR2_fields {w : CmdWord} {op : BitVec 8} (hop : opOf w = op) (h : w &&& 0x0000FFFF#32 = 0#32) :
    packR2 op (rdOf w) (rs1Of w) = w := by
  calc packR2 op (rdOf w) (rs1Of w)
      = w.extractLsb' 24 8 ++ w.extractLsb' 20 4 ++ w.extractLsb' 16 4 ++ w.extractLsb' 0 16 := by
        rw [field_of_masked h 0 16 (by decide), ← hop]; rfl
    _ = w := by
        rw [field_append_field w 20 4 8, field_append_field w 16 4 12, field_append_field w 0 16 16, field_whole]

theorem packR3_fields {w : CmdWord} {op : BitVec 8} (hop : opOf w = op) (h : w &&& 0x00000FFF#32 = 0#32) :
    packR3 op (rdOf w) (rs1Of w) (rs2Of w) = w := by
  calc packR3 op (rdOf w) (rs1Of w) (rs2Of w)
      = w.extractLsb' 24 8 ++ w.extractLsb' 20 4 ++ w.extractLsb' 16 4 ++ w.extractLsb' 12 4 ++ w.extractLsb' 0 12 := by
        rw [field_of_masked h 0 12 (by decide), ← hop]; rfl
    _ = w := by
        rw [field_append_field w 20 4 8, field_append_field w 16 4 12, field_append_field w 12 4 16,
          field_append_field w 0 12 20, field_whole]

theorem packR2M_fields {w : CmdWord} {op : BitVec 8} (hop : opOf w = op) (h : w &&& 0x0000FBFF#32 = 0#32) :
    packR2M op (rdOf w) (rs1Of w) (rmOf w) = w := by
  calc packR2M op (rdOf w) (rs1Of w) (rmOf w)
      = w.extractLsb' 24 8 ++ w.extractLsb' 20 4 ++ w.extractLsb' 16 4 ++ w.extractLsb' 12 4 ++ w.extractLsb' 10 2
          ++ w.extractLsb' 0 10 := by
        rw [field_of_masked h 12 4 (by decide), field_of_masked h 0 10 (by decide), ← hop]; rfl
    _ = w := by
        rw [field_append_field w 20 4 8, field_append_field w 16 4 12, field_append_field w 12 4 16,
          field_append_field w 10 2 20, field_append_field w 0 10 22, field_whole]

theorem packR3M_fields {w : CmdWord} {op : BitVec 8} (hop : opOf w = op) (h : w &&& 0x00000BFF#32 = 0#32) :
    packR3M op (rdOf w) (rs1Of w) (rs2Of w) (rmOf w) = w := by
  calc packR3M op (rdOf w) (rs1Of w) (rs2Of w) (rmOf w)
      = w.extractLsb' 24 8 ++ w.extractLsb' 20 4 ++ w.extractLsb' 16 4 ++ w.extractLsb' 12 4 ++ w.extractLsb' 10 2
          ++ w.extractLsb' 0 10 := by
        rw [field_of_masked h 0 10 (by decide), ← hop]; rfl
    _ = w := by
        rw [field_append_field w 20 4 8, field_append_field w 16 4 12, field_append_field w 12 4 16,
          field_append_field w 10 2 20, field_append_field w 0 10 22, field_whole]

/-! ## The first word of what a word says -/

theorem encodeHead_of_rowsR2 (rd rs1 : Reg) :
    ∀ row ∈ rowsR2, encodeHead (row.2 rd rs1) = packR2 (BitVec.ofNat 8 row.1) rd rs1 := by
  intro row hrow
  fin_cases hrow <;> rfl

theorem encodeHead_of_rowsR3 (rd rs1 rs2 : Reg) :
    ∀ row ∈ rowsR3, encodeHead (row.2 rd rs1 rs2) = packR3 (BitVec.ofNat 8 row.1) rd rs1 rs2 := by
  intro row hrow
  fin_cases hrow <;> rfl

/-- The word that says it. -/
def Head.firstWord : Head → CmdWord
  | .command i => encodeHead i
  | .literal rd => packL 0x01#8 rd

theorem firstWord_of_decodeHead {w : CmdWord} {x : Head} (h : decodeHead w = .ok x) : x.firstWord = w := by
  cases readByFormat w with
  | l hop hw =>
    obtain ⟨hmask, rfl⟩ := decodeL_eq_ok.mp (hw.symm.trans h)
    exact packL_fields hop hmask
  | k hop hw =>
    obtain ⟨hmask, -, rfl⟩ := decodeK_eq_ok.mp (hw.symm.trans h)
    exact packK_fields hop hmask
  | r2m hop hw =>
    obtain ⟨hmask, rfl⟩ := decodeR2M_eq_ok.mp (hw.symm.trans h)
    exact packR2M_fields hop hmask
  | r3m hop hw =>
    obtain ⟨hmask, rfl⟩ := decodeR3M_eq_ok.mp (hw.symm.trans h)
    exact packR3M_fields hop hmask
  | r2 row hrow hop hw =>
    obtain ⟨hmask, rfl⟩ := decodeR2_eq_ok.mp (hw.symm.trans h)
    exact (encodeHead_of_rowsR2 _ _ row hrow).trans (packR2_fields hop hmask)
  | r3 row hrow hop hw =>
    obtain ⟨hmask, rfl⟩ := decodeR3_eq_ok.mp (hw.symm.trans h)
    exact (encodeHead_of_rowsR3 _ _ _ row hrow).trans (packR3_fields hop hmask)
  | unassigned hop hw => cases hw.symm.trans h

/-! ## Sequences of words -/

theorem decode_of_command {w : CmdWord} {i : Instr} (rest : List CmdWord) (h : decodeHead w = .ok (.command i)) :
    decode (w :: rest) = .ok (i, rest) := by
  simp [decode, h]

theorem decode_of_literal {w0 : CmdWord} {rd : Reg} (w1 w2 : CmdWord) (rest : List CmdWord)
    (h : decodeHead w0 = .ok (.literal rd)) : decode (w0 :: w1 :: w2 :: rest) = .ok (.ldr rd (w2 ++ w1), rest) := by
  simp [decode, h]

/-- The sequences that decode: a word that says a whole command, or the start of an LDR and two words after it. -/
theorem decode_cases {ws rest : List CmdWord} {i : Instr} (h : decode ws = .ok (i, rest)) :
    (∃ w, ws = w :: rest ∧ decodeHead w = .ok (.command i))
      ∨ ∃ w0 w1 w2 rd, ws = w0 :: w1 :: w2 :: rest ∧ decodeHead w0 = .ok (.literal rd)
        ∧ i = .ldr rd (w2 ++ w1) := by
  match ws with
  | [] => cases h
  | w0 :: tail =>
    match hw : decodeHead w0, tail with
    | .error e, _ => simp [decode, hw] at h
    | .ok (.command j), tail =>
      obtain ⟨rfl, rfl⟩ : j = i ∧ tail = rest := by simpa [decode_of_command tail hw] using h
      exact .inl ⟨w0, rfl, hw⟩
    | .ok (.literal rd), w1 :: w2 :: tail =>
      obtain ⟨rfl, rfl⟩ : .ldr rd (w2 ++ w1) = i ∧ tail = rest := by simpa [decode_of_literal w1 w2 tail hw] using h
      exact .inr ⟨w0, w1, w2, rd, rfl, hw, rfl⟩
    | .ok (.literal rd), [] | .ok (.literal rd), [w1] => simp [decode, hw] at h

/-- A command that one word says has that word alone. -/
theorem encode_of_decodeHead {w : CmdWord} {i : Instr} (h : decodeHead w = .ok (.command i)) : encode i = [w] := by
  obtain ⟨-, hhead⟩ := legal_of_decodeHead_command h
  obtain ⟨rd, literal, rfl⟩ | ⟨-, hencode⟩ := ldr_or_one_word i
  · cases hhead
  · have hfirst : encodeHead i = w := firstWord_of_decodeHead h
    rw [hencode, hfirst]

/-- An LDR has its first word and then the two halves of its literal. -/
theorem encode_ldr_of_decodeHead {w0 : CmdWord} {rd : Reg} (w1 w2 : CmdWord) (h : decodeHead w0 = .ok (.literal rd)) :
    encode (.ldr rd (w2 ++ w1)) = [w0, w1, w2] := by
  have hfirst : encodeHead (.ldr rd (w2 ++ w1)) = w0 := firstWord_of_decodeHead h
  have hlow : (w2 ++ w1).extractLsb' 0 32 = w1 := field_here w2 w1
  have hhigh : (w2 ++ w1).extractLsb' 32 32 = w2 := (field_above w2 w1 0 32).trans (field_whole w2)
  rw [encode, hfirst, hlow, hhigh]

end Sys2Proof

namespace Sys2Proof.Claims

open Sys2Proof.Laws.HeadRoundTrip (decodeHead_encodeHead)

/-- Settles O1: the first word decodes to what it says, and an LDR's two literal words are put together again. -/
theorem encodedCommandDecodesBack : Obligations.EncodedCommandDecodesBack := by
  intro i rest hwf
  have hhead := decodeHead_encodeHead i hwf
  obtain ⟨rd, literal, rfl⟩ | ⟨hcommand, hencode⟩ := ldr_or_one_word i
  · have hdecode := decode_of_literal (literal.extractLsb' 0 32) (literal.extractLsb' 32 32) rest hhead
    rwa [append_literal_words] at hdecode
  · rw [hencode]
    exact decode_of_command rest (hhead.trans (congrArg _ hcommand))

/-- Settles O2: `decode_cases`, and in both cases the command's words are those that were read, since a first word is its
fields packed again. -/
theorem decodedWordsEncodeOneCommand : Obligations.DecodedWordsEncodeOneCommand := by
  intro ws rest i h
  obtain ⟨w, rfl, hw⟩ | ⟨w0, w1, w2, rd, rfl, hw, rfl⟩ := decode_cases h
  · obtain ⟨hwf, -⟩ := legal_of_decodeHead_command hw
    exact ⟨hwf, by rw [encode_of_decodeHead hw]; rfl⟩
  · exact ⟨rfl, by rw [encode_ldr_of_decodeHead w1 w2 hw]; rfl⟩

end Sys2Proof.Claims
end

section
/-! PROOF. R60, R68, R69: the words the decoder refuses and the words it reads, in the terms of the tables: arithmetic on
the word and the opcode table's masks. -/

namespace Sys2Proof

open Sys2Proof.Claims

/-! ## Fields by arithmetic on the word (R60) -/

theorem toNat_opOf (w : CmdWord) : (opOf w).toNat = w.toNat / 2 ^ 24 := by
  simp only [opOf, BitVec.extractLsb'_toNat, Nat.shiftRight_eq_div_pow]
  omega

theorem toFin_field_eq_fieldAt (w : CmdWord) (lo : Nat) : (w.extractLsb' lo 4).toFin = fieldAt w lo := by
  apply Fin.ext
  simp [fieldAt, Nat.shiftRight_eq_div_pow]

theorem rdOf_eq_fieldAt (w : CmdWord) : rdOf w = fieldAt w 20 := toFin_field_eq_fieldAt w 20

theorem rs1Of_eq_fieldAt (w : CmdWord) : rs1Of w = fieldAt w 16 := toFin_field_eq_fieldAt w 16

theorem rs2Of_eq_fieldAt (w : CmdWord) : rs2Of w = fieldAt w 12 := toFin_field_eq_fieldAt w 12

theorem rmOf_eq_ofNat (w : CmdWord) : rmOf w = BitVec.ofNat 2 (w.toNat / 2 ^ 10) := by
  apply BitVec.eq_of_toNat_eq
  simp [rmOf, Nat.shiftRight_eq_div_pow]

theorem kidxOf_eq_ofNat (w : CmdWord) : kidxOf w = BitVec.ofNat 5 w.toNat := by
  apply BitVec.eq_of_toNat_eq
  simp [kidxOf]

theorem toNat_kidxOf (w : CmdWord) : (kidxOf w).toNat = w.toNat % 2 ^ 5 := by
  simp [kidxOf_eq_ofNat]

/-! ## Refused words (R69) -/

/-- A decoder that accepts under one condition refuses without it. -/
theorem error_iff_of_ok_iff {r : Except DecodeError Head} {p : Prop} {x : Head} (h : ∀ y, r = .ok y ↔ p ∧ y = x) :
    (∃ e, r = .error e) ↔ ¬p := by
  cases r with
  | error e => simpa using fun hp : p => (h x).mpr ⟨hp, rfl⟩
  | ok y => simpa using ((h y).mp rfl).1

theorem illegalWord_iff (w : CmdWord) : IllegalWord w
    ↔ UnassignedOp (opOf w).toNat ∨ w &&& reservedMask (opOf w).toNat ≠ 0#32
      ∨ ((opOf w).toNat = 0x02 ∧ 16 < (kidxOf w).toNat) := by
  rw [toNat_opOf, toNat_kidxOf]
  rfl

/-- Under an assigned OP other than LDC's a word is illegal by its reserved bits alone. -/
theorem illegalWord_iff_reserved {w : CmdWord} {op : Nat} (hop : (opOf w).toNat = op) (hassigned : ¬UnassignedOp op)
    (hldc : op ≠ 0x02) : IllegalWord w ↔ ¬w &&& reservedMask op = 0#32 := by
  simp [illegalWord_iff, hop, hassigned, hldc]

/-- An LDC is illegal by its reserved bits or its constant index. -/
theorem illegalWord_iff_of_ldc {w : CmdWord} (hop : opOf w = 0x02#8) :
    IllegalWord w ↔ ¬(w &&& 0x000FFFE0#32 = 0#32 ∧ kidxLegal (kidxOf w) = true) := by
  have hassigned : ¬UnassignedOp 0x02 := by unfold UnassignedOp; decide
  have hmask : reservedMask 0x02 = 0x000FFFE0#32 := rfl
  simp [illegalWord_iff, hop, hassigned, hmask, kidxLegal, imp_iff_not_or]

theorem reserved_of_rowsR2 : ∀ row ∈ rowsR2,
    (BitVec.ofNat 8 row.1).toNat = row.1 ∧ ¬UnassignedOp row.1 ∧ row.1 ≠ 0x02 ∧ reservedMask row.1 = 0x0000FFFF#32 := by
  unfold UnassignedOp
  decide

theorem reserved_of_rowsR3 : ∀ row ∈ rowsR3,
    (BitVec.ofNat 8 row.1).toNat = row.1 ∧ ¬UnassignedOp row.1 ∧ row.1 ≠ 0x02 ∧ reservedMask row.1 = 0x00000FFF#32 := by
  unfold UnassignedOp
  decide

theorem refused_iff_illegalWord (w : CmdWord) : (∃ e, decodeHead w = .error e) ↔ IllegalWord w := by
  have hassigned : ¬UnassignedOp 0x01 ∧ ¬UnassignedOp 0x32 ∧ ¬UnassignedOp 0x33 := by unfold UnassignedOp; decide
  obtain ⟨hl, hr2m, hr3m⟩ := hassigned
  cases readByFormat w with
  | l hop hw =>
    rw [hw, error_iff_of_ok_iff fun _ => decodeL_eq_ok]
    exact (illegalWord_iff_reserved (by rw [hop]; rfl) hl (by decide)).symm
  | k hop hw =>
    rw [hw, error_iff_of_ok_iff fun _ => decodeK_eq_ok.trans and_assoc.symm]
    exact (illegalWord_iff_of_ldc hop).symm
  | r2m hop hw =>
    rw [hw, error_iff_of_ok_iff fun _ => decodeR2M_eq_ok]
    exact (illegalWord_iff_reserved (by rw [hop]; rfl) hr2m (by decide)).symm
  | r3m hop hw =>
    rw [hw, error_iff_of_ok_iff fun _ => decodeR3M_eq_ok]
    exact (illegalWord_iff_reserved (by rw [hop]; rfl) hr3m (by decide)).symm
  | r2 row hrow hop hw =>
    obtain ⟨hnum, hassigned, hldc, hmask⟩ := reserved_of_rowsR2 row hrow
    rw [hw, error_iff_of_ok_iff fun _ => decodeR2_eq_ok, ← hmask]
    exact (illegalWord_iff_reserved (by rw [hop, hnum]) hassigned hldc).symm
  | r3 row hrow hop hw =>
    obtain ⟨hnum, hassigned, hldc, hmask⟩ := reserved_of_rowsR3 row hrow
    rw [hw, error_iff_of_ok_iff fun _ => decodeR3_eq_ok, ← hmask]
    exact (illegalWord_iff_reserved (by rw [hop, hnum]) hassigned hldc).symm
  | unassigned hop hw =>
    exact iff_of_true ⟨_, hw⟩ (.inl (toNat_opOf w ▸ hop))

/-! ## Words that match a row under its mask -/

theorem eq_ofNat_of_toNat_eq {v : CmdWord} {n : Nat} (h : v.toNat = n) : v = BitVec.ofNat 32 n := by simp [← h]

/-- What a row's match says of a word: its OP, and that its reserved bits are 0. -/
theorem op_and_reserved_of_match {w mask v reserved : CmdWord} (h : w &&& mask = v) (hop : opOf mask = 0xFF#8)
    (hmask : mask &&& reserved = reserved) (hv : v &&& reserved = 0#32) :
    opOf w = opOf v ∧ w &&& reserved = 0#32 := by
  constructor
  · calc opOf w
        = opOf w &&& opOf mask := by rw [hop]; exact BitVec.and_allOnes.symm
      _ = opOf (w &&& mask) := BitVec.extractLsb'_and.symm
      _ = opOf v := by rw [h]
  · calc w &&& reserved
        = w &&& mask &&& reserved := by rw [BitVec.and_assoc, hmask]
      _ = 0#32 := by rw [h, hv]

theorem match_of_rowsR2 : ∀ row ∈ rowsR2, opOf (BitVec.ofNat 32 (row.1 * 2 ^ 24)) = BitVec.ofNat 8 row.1
    ∧ BitVec.ofNat 32 (row.1 * 2 ^ 24) &&& 0x0000FFFF#32 = 0#32 := by decide

theorem match_of_rowsR3 : ∀ row ∈ rowsR3, opOf (BitVec.ofNat 32 (row.1 * 2 ^ 24)) = BitVec.ofNat 8 row.1
    ∧ BitVec.ofNat 32 (row.1 * 2 ^ 24) &&& 0x00000FFF#32 = 0#32 := by decide

end Sys2Proof

namespace Sys2Proof.Claims

open Sys2Proof.Machine

/-- Settles O4: format by format the decoder refuses by the reserved mask, and fault entry is all that follows. -/
theorem illegalWordsAreExactlyThoseOfR69 : Obligations.IllegalWordsAreExactlyThoseOfR69 := by
  refine ⟨refused_iff_illegalWord, fun s w hill hs hl => ?_⟩
  obtain ⟨e, he⟩ := (refused_iff_illegalWord w).mpr hill
  exact ⟨_, (issue_of_ready w hs hl).trans (issueHead_of_illegal _ he), tookFault_faultEntry _ _ _⟩

/-- Settles O5: a word that matches a row has the row's OP and no reserved bit, so its format's decoder accepts it. -/
theorem decoderFollowsOpcodeTable : Obligations.DecoderFollowsOpcodeTable := by
  refine ⟨fun row hrow w h => ?_, fun row hrow w h => ?_, fun w h => ?_, fun w h hk => ?_, fun w h => ?_, fun w h => ?_⟩
  · obtain ⟨hop, hv⟩ := match_of_rowsR3 row hrow
    obtain ⟨hopw, hres⟩ := op_and_reserved_of_match (eq_ofNat_of_toNat_eq h) (by decide) (by decide) hv
    rw [decodeHead_of_rowsR3 row hrow (hopw.trans hop), ← rdOf_eq_fieldAt, ← rs1Of_eq_fieldAt, ← rs2Of_eq_fieldAt]
    exact decodeR3_eq_ok.mpr ⟨hres, rfl⟩
  · obtain ⟨hop, hv⟩ := match_of_rowsR2 row hrow
    obtain ⟨hopw, hres⟩ := op_and_reserved_of_match (eq_ofNat_of_toNat_eq h) (by decide) (by decide) hv
    rw [decodeHead_of_rowsR2 row hrow (hopw.trans hop), ← rdOf_eq_fieldAt, ← rs1Of_eq_fieldAt]
    exact decodeR2_eq_ok.mpr ⟨hres, rfl⟩
  · obtain ⟨hop, hres⟩ := op_and_reserved_of_match (reserved := 0x000FFFFF#32) h (by decide) (by decide) (by decide)
    rw [decodeHead_of_ldr hop, ← rdOf_eq_fieldAt]
    exact decodeL_eq_ok.mpr ⟨hres, rfl⟩
  · obtain ⟨hop, hres⟩ := op_and_reserved_of_match (reserved := 0x000FFFE0#32) h (by decide) (by decide) (by decide)
    rw [decodeHead_of_ldc hop, ← rdOf_eq_fieldAt, ← kidxOf_eq_ofNat]
    exact decodeK_eq_ok.mpr ⟨hres, decide_eq_true (toNat_kidxOf w ▸ hk), rfl⟩
  · obtain ⟨hop, hres⟩ := op_and_reserved_of_match (reserved := 0x0000FBFF#32) h (by decide) (by decide) (by decide)
    rw [decodeHead_of_round hop, ← rdOf_eq_fieldAt, ← rs1Of_eq_fieldAt, ← rmOf_eq_ofNat]
    exact decodeR2M_eq_ok.mpr ⟨hres, rfl⟩
  · obtain ⟨hop, hres⟩ := op_and_reserved_of_match (reserved := 0x00000BFF#32) h (by decide) (by decide) (by decide)
    rw [decodeHead_of_roundd hop, ← rdOf_eq_fieldAt, ← rs1Of_eq_fieldAt, ← rs2Of_eq_fieldAt, ← rmOf_eq_ofNat]
    exact decodeR3M_eq_ok.mpr ⟨hres, rfl⟩

end Sys2Proof.Claims
end

section
/-! PROOF. R69, R71 to R73 and the log's entry 16: terms that no word decodes to, nop, and the assembler's examples. -/

namespace Sys2Proof.Machine

/-! ## Operand fields outside the encoding -/

theorem kTable_of_illegal (c : Config) {kidx : BitVec 5} (h : kidxLegal kidx = false) : c.kTable kidx = none := by
  have hlt : 16 < kidx.toNat := not_le.mp (of_decide_eq_false h)
  unfold Config.kTable
  split
  case h_18 => rfl
  all_goals omega

theorem tieRuleOf_of_illegal {rm : BitVec 2} (h : rmLegal rm = false) : tieRuleOf rm = none := by
  have hlt : 1 < rm.toNat := not_le.mp (of_decide_eq_false h)
  unfold tieRuleOf
  split
  case h_3 => rfl
  all_goals omega

/-- The ill-formed terms: LDC above the last constant, ROUND and ROUNDD with RM's upper bit. -/
theorem illFormed_cases {i : Instr} (h : i.wellFormed = false) :
    (∃ rd kidx, i = .ldc rd kidx ∧ kidxLegal kidx = false)
      ∨ (∃ rd rs1 rm, i = .round rd rs1 rm ∧ rmLegal rm = false)
      ∨ ∃ rd rs1 rs2 rm, i = .roundd rd rs1 rs2 rm ∧ rmLegal rm = false := by
  cases i with
  | ldc rd kidx => exact .inl ⟨rd, kidx, rfl, h⟩
  | round rd rs1 rm => exact .inr (.inl ⟨rd, rs1, rm, rfl, h⟩)
  | roundd rd rs1 rs2 rm => exact .inr (.inr ⟨rd, rs1, rs2, rm, rfl, h⟩)
  | _ => cases h

/-! ## The assembler reads the configuration for F alone -/

theorem expand_congr {c d : Config} (h : c.fracBits = d.fracBits) : expand c = expand d := by
  have hone : c.one = d.one := congrArg pow2 h
  funext p
  cases p with
  | liq rd numerator places =>
    unfold expand
    rw [hone]
  | nop | li | clr => rfl

theorem assembleLine_congr {c d : Config} (h : c.fracBits = d.fracBits) (line : String) :
    assembleLine c line = assembleLine d line := by
  unfold assembleLine commandOf
  rw [expand_congr h]

end Sys2Proof.Machine

namespace Sys2Proof.Claims

open Sys2Proof.Machine

/-- Settles O6: each word, with what follows it, is the encoding of its command, so O1 reads it back. -/
theorem sampleWordsDecode : Obligations.SampleWordsDecode :=
  ⟨encodedCommandDecodesBack (.add 1 2 3) [] rfl, encodedCommandDecodesBack (.round 1 2 1) [] rfl,
    encodedCommandDecodesBack (.ldc 3 11) [] rfl, encodedCommandDecodesBack (.ldr 2 0xFFFFFFFFFFFFFFFF#64) [] rfl,
    encodedCommandDecodesBack (.atan2 5 6 7) [] rfl, encodedCommandDecodesBack (.pow 6 1 2) [] rfl⟩

/-- Settles O18: the three ill-formed terms end in `complete`, with no constant or no tie rule to compute by. -/
theorem illFormedCommandsAreIllegal : Obligations.IllFormedCommandsAreIllegal := by
  intro i s h
  obtain ⟨rd, kidx, rfl, hk⟩ | ⟨rd, rs1, rm, rfl, hrm⟩ | ⟨rd, rs1, rs2, rm, rfl, hrm⟩ := illFormed_cases h
  · exact faults_of_complete _ rfl (by rw [kTable_of_illegal _ hk])
  · exact faults_of_complete _ rfl (by rw [tieRuleOf_of_illegal hrm])
  · exact faults_of_complete _ rfl (by rw [tieRuleOf_of_illegal hrm])

/-- Settles O22: nop is MOV of X0 to itself, whose frame is `wrote_writeX`. -/
theorem nopChangesNoRegister : Obligations.NopChangesNoRegister := by
  intro c s
  have hw : Wrote s (s.writeX 0 (s.readX 0)) 0 (s.readX 0) := wrote_writeX s 0 _
  refine ⟨.mov 0 0, _, rfl, by decide, rfl, fun r => ?_, hw.runState, hw.status, hw.faultCmd⟩
  by_cases hr : r = 0
  · exact hr ▸ hw.value
  · exact hw.otherRegisters r hr

/-- Settles O23: at F = 10 the assembler answers what it answers in the reference configuration, where the lines are run. -/
theorem examplesAssemble : Obligations.ExamplesAssemble := by
  intro c h
  simp only [assembleLine_congr (d := Config.reference) h]
  decide

end Sys2Proof.Claims
end

section
/-! PROOF. R104 to R107, R114: the commands that load, copy, and convert to and from integers. -/

namespace Sys2Proof.Machine

open Sys2Proof.Claims

/-- KTABLE is the list of R104, and selects nothing past its end. -/
theorem kTable_eq_namedConstants (c : Config) (kidx : BitVec 5) : c.kTable kidx = (namedConstants c)[kidx.toNat]? := by
  cases h : kidxLegal kidx with
  | true =>
    have hle : kidx.toNat ≤ 16 := of_decide_eq_true h
    unfold Config.kTable
    generalize kidx.toNat = k at hle
    interval_cases k <;> rfl
  | false =>
    have hlt : 16 < kidx.toNat := not_le.mp (of_decide_eq_false h)
    rw [kTable_of_illegal c h]
    exact (List.getElem?_eq_none hlt).symm

theorem int32Of_eq_setWidth (v : Word) : int32Of v = (v.setWidth 32).toInt := by
  rw [int32Of, BitVec.setWidth_eq_extractLsb' (by decide)]

/-- The product of R106 is exact: 31 bits of magnitude and at most 30 fractional bits. -/
theorem fxFromI32_range {c : Config} (h : c.legal = true) (i : BitVec 32) :
    -2 ^ 61 ≤ fxFromI32 c i.toInt ∧ fxFromI32 c i.toInt ≤ 2 ^ 61 := by
  obtain ⟨hone0, hone⟩ := one_range h
  have hlo := i.le_toInt
  have hhi := i.toInt_lt
  norm_num at hlo hhi
  unfold fxFromI32
  constructor <;> nlinarith

theorem ofInt_fxToInt (c : Config) (v : Word) : BitVec.ofInt 64 (fxToInt c v.toInt) = v.sshiftRight c.fracBits := by
  have hshift : fxToInt c v.toInt = (v.sshiftRight c.fracBits).toInt := by
    rw [BitVec.toInt_sshiftRight, Int.shiftRight_eq_div_pow]
    simp [fxToInt, asr, pow2]
  rw [hshift, BitVec.ofInt_toInt]

end Sys2Proof.Machine

namespace Sys2Proof.Claims

open Sys2Proof.Machine

/-- Settles O24: `kTable_eq_namedConstants`. -/
theorem ldcLoadsNamedConstant : Obligations.LdcLoadsNamedConstant := by
  intro s rd kidx _ v hv
  exact writesInt_of_complete _ rfl (by rw [kTable_eq_namedConstants, hv])

/-- Settles O25: both commands are `writeX` of the pattern. -/
theorem ldrAndMovCopyPatterns : Obligations.LdrAndMovCopyPatterns := fun _ _ _ _ =>
  ⟨writes_of_writeX rfl, writes_of_writeX rfl⟩

/-- Settles O26: `fxFromI32_range`, at the int32 that `int32Of` reads. -/
theorem fromi32ScalesExactly : Obligations.Fromi32ScalesExactly := by
  intro s rd rs1 hlegal
  obtain ⟨hlo, hhi⟩ := fxFromI32_range hlegal ((s.readX rs1).setWidth 32)
  refine ⟨_, rfl, hlo, hhi, writes_of_writeX ?_⟩
  rw [← int32Of_eq_setWidth]
  rfl

/-- Settles O31: `ofInt_fxToInt`. -/
theorem tointShiftsRightByF : Obligations.TointShiftsRightByF := by
  intro s rd rs1 _
  rw [← ofInt_fxToInt]
  exact writes_of_writeX rfl

end Sys2Proof.Claims
end

section
/-! PROOF. R9, R11: nearest integers over the rationals, and the finite values of an IEEE 754 format. Every finite value is a
significand of at most fb + 1 bits times a power of two, so next to any x the values of the format are multiples of one
step or smaller than the binade of x: the nearest multiple is the nearest value. -/

namespace Sys2Proof.Machine

open Sys2Proof.Claims

/-! ## Nearest integers -/

/-- n is the integer nearest to y, and the even one at a tie (R9). -/
def NearestInteger (y : ℚ) (n : Int) : Prop := |y - n| ≤ 1 / 2 ∧ (|y - n| = 1 / 2 → n % 2 = 0)

/-- For a quotient this is the relation `NearestEven` of the claims. -/
theorem nearestInteger_div_iff {p q n : Int} (hq : 0 < q) : NearestInteger ((p : ℚ) / q) n ↔ NearestEven p q n := by
  have hq' : (0 : ℚ) < q := by exact_mod_cast hq
  have habs : |(p : ℚ) / q - n| = ((|p - n * q| : Int) : ℚ) / q := by
    rw [← abs_of_pos hq', Int.cast_abs, ← abs_div, abs_of_pos hq']
    congr 1
    push_cast
    field_simp
  have hle : |(p : ℚ) / q - n| ≤ 1 / 2 ↔ 2 * |p - n * q| ≤ q := by
    rw [habs, div_le_div_iff₀ hq' two_pos]
    norm_cast
    omega
  have heq : |(p : ℚ) / q - n| = 1 / 2 ↔ 2 * |p - n * q| = q := by
    rw [habs, div_eq_div_iff hq'.ne' two_ne_zero]
    norm_cast
    omega
  rw [NearestInteger, hle, heq, NearestEven]
  generalize p - n * q = e
  have he := abs_cases e
  omega

theorem nearestInteger_rneDiv (n : Int) {d : Int} (hd : 0 < d) : NearestInteger ((n : ℚ) / d) (rneDiv n d) :=
  (nearestInteger_div_iff hd).mpr (rneDiv_nearest n hd)

theorem nearestInteger_zero {y : ℚ} (h : |y| < 1 / 2) : NearestInteger y 0 := by
  have h0 : |y - ((0 : Int) : ℚ)| < 1 / 2 := by simpa using h
  exact ⟨h0.le, fun he => absurd he h0.ne⟩

theorem NearestInteger.neg {y : ℚ} {n : Int} (h : NearestInteger y n) : NearestInteger (-y) (-n) := by
  have habs : |-y - ((-n : Int) : ℚ)| = |y - n| := by
    rw [← abs_neg]
    congr 1
    push_cast
    ring
  rw [NearestInteger, habs]
  exact ⟨h.1, fun he => by have := h.2 he; omega⟩

/-- No other integer is nearer, and as near only at a tie. -/
theorem NearestInteger.le_int {y : ℚ} {n : Int} (h : NearestInteger y n) (k : Int) :
    |y - n| ≤ |y - k| ∧ (|y - n| = |y - k| → k ≠ n → n % 2 = 0) := by
  obtain ⟨hle, heven⟩ := h
  obtain rfl | hne := eq_or_ne k n
  · exact ⟨le_rfl, fun _ hk => absurd rfl hk⟩
  · have hone : (1 : ℚ) ≤ |(k : ℚ) - n| := by exact_mod_cast Int.one_le_abs (sub_ne_zero.mpr hne)
    have htri : |(k : ℚ) - n| ≤ |y - k| + |y - n| := by
      rw [abs_sub_comm y k]
      exact abs_sub_le (k : ℚ) y n
    exact ⟨by linarith, fun he _ => heven (by linarith)⟩

theorem nearestInteger_intCast (k : Int) : NearestInteger k k := by simp [NearestInteger]

theorem NearestInteger.eq_of_intCast {k n : Int} (h : NearestInteger k n) : n = k := by
  have hzero := (h.le_int k).1
  rw [sub_self, abs_zero] at hzero
  have hsub : (k : ℚ) - n = 0 := abs_eq_zero.mp (le_antisymm hzero (abs_nonneg _))
  exact_mod_cast (sub_eq_zero.mp hsub).symm

/-- For |y| ≥ N, the integer nearest to y is nearer than everything of magnitude below N: the integer of magnitude N on y's
side lies between. -/
theorem NearestInteger.lt_small {y w : ℚ} {n N : Int} (h : NearestInteger y n) (hN : (N : ℚ) ≤ |y|) (hw : |w| < N) :
    |y - n| < |y - w| := by
  have hside : ∃ k : Int, |y - k| = |y| - N := by
    rcases abs_cases y with ⟨hy, -⟩ | ⟨hy, -⟩
    · exact ⟨N, by rw [hy, abs_of_nonneg]; linarith⟩
    · refine ⟨-N, ?_⟩
      push_cast
      rw [hy, abs_of_nonpos] <;> linarith
  obtain ⟨k, hk⟩ := hside
  calc |y - n|
    _ ≤ |y| - N := hk ▸ (h.le_int k).1
    _ < |y| - |w| := by linarith
    _ ≤ |y - w| := abs_sub_abs_le_abs_sub y w

/-! ## Patterns as sign, significand and exponent -/

/-- The value that the three parts denote. -/
def Binary64.value (d : Binary64) : ℚ := (if d.negative then -1 else 1) * d.significand * 2 ^ d.exponent

/-- `bin64` for the format with `eb` exponent bits and `fb` fraction bits. -/
def ieeeParts (eb fb p : Nat) : Option Binary64 :=
  let negative : Bool := p / 2 ^ (eb + fb) % 2 = 1
  let e := p / 2 ^ fb % 2 ^ eb
  let bias : Int := 2 ^ (eb - 1) - 1
  if e = 2 ^ eb - 1 then none
  else if e = 0 then some ⟨negative, p % 2 ^ fb, 1 - bias - fb⟩
  else some ⟨negative, 2 ^ fb + p % 2 ^ fb, e - bias - fb⟩

theorem ieeeValue_eq_parts (eb fb p : Nat) : ieeeValue eb fb p = (ieeeParts eb fb p).map Binary64.value := by
  have hscale : ∀ k : Int, (2 : ℚ) ^ (k - fb) = 2 ^ k / 2 ^ fb := fun k => by
    rw [zpow_sub₀ two_ne_zero, zpow_natCast]
  simp only [ieeeValue, ieeeParts]
  by_cases hinf : p / 2 ^ fb % 2 ^ eb = 2 ^ eb - 1
  · rw [if_pos hinf, if_pos hinf, Option.map_none]
  by_cases hsub : p / 2 ^ fb % 2 ^ eb = 0
  · rw [if_neg hinf, if_neg hinf, if_pos hsub, if_pos hsub]
    simp only [Option.map_some, Binary64.value, decide_eq_true_eq, hscale]
    congr 1
    ring
  · rw [if_neg hinf, if_neg hinf, if_neg hsub, if_neg hsub]
    simp only [Option.map_some, Binary64.value, decide_eq_true_eq, hscale]
    congr 1
    push_cast
    field_simp

theorem bin64_eq_parts (v : Word) : bin64 v = ieeeParts 11 52 v.toNat := by
  have hsign : v.msb = decide (v.toNat / 2 ^ (11 + 52) % 2 = 1) := by
    have hlt := v.isLt
    rw [BitVec.msb_eq_decide, decide_eq_decide]
    omega
  simp only [bin64, ieeeParts, BitVec.extractLsb'_toNat, Nat.shiftRight_eq_div_pow, hsign, pow_zero, Nat.div_one]
  congr 3
  rw [Binary64.mk.injEq]
  exact ⟨rfl, rfl, by omega⟩

theorem significand_lt_of_parts {eb fb p : Nat} {d : Binary64} (h : ieeeParts eb fb p = some d) :
    d.significand < 2 ^ (fb + 1) := by
  have hf : p % 2 ^ fb < 2 ^ fb := Nat.mod_lt _ (by positivity)
  have hp : 2 ^ (fb + 1) = 2 ^ fb + 2 ^ fb := by ring
  simp only [ieeeParts] at h
  split_ifs at h
  all_goals
    obtain rfl := Option.some.inj h
    simp only
    omega

theorem Binary64.abs_value (d : Binary64) : |d.value| = d.significand * 2 ^ d.exponent := by
  unfold Binary64.value
  split_ifs
  · rw [neg_one_mul, neg_mul, abs_neg, abs_of_nonneg (by positivity)]
  · rw [one_mul, abs_of_nonneg (by positivity)]

/-- At any step 2^g, a finite value of the format is a multiple of the step or smaller than 2^fb steps. -/
theorem multiple_or_small_of_ieeeValue {eb fb p : Nat} {u : ℚ} (h : ieeeValue eb fb p = some u) (g : Int) :
    (∃ k : Int, u / 2 ^ g = k) ∨ |u / 2 ^ g| < ((2 ^ fb : Int) : ℚ) := by
  rw [ieeeValue_eq_parts, Option.map_eq_some_iff] at h
  obtain ⟨d, hd, rfl⟩ := h
  have hsig : (d.significand : ℚ) < 2 ^ (fb + 1) := by exact_mod_cast significand_lt_of_parts hd
  by_cases hg : g ≤ d.exponent
  · left
    obtain ⟨j, hj⟩ := Int.eq_ofNat_of_zero_le (sub_nonneg.mpr hg)
    refine ⟨(if d.negative then -1 else 1) * d.significand * 2 ^ j, ?_⟩
    rw [Binary64.value, mul_div_assoc, ← zpow_sub₀ two_ne_zero, hj]
    push_cast
    simp
  · right
    rw [abs_div, Binary64.abs_value, abs_of_pos (by positivity), mul_div_assoc, ← zpow_sub₀ two_ne_zero]
    calc (d.significand : ℚ) * 2 ^ (d.exponent - g)
      _ ≤ d.significand * 2 ^ (-1 : Int) := by
        gcongr
        · norm_num
        · omega
      _ < 2 ^ (fb + 1) * 2 ^ (-1 : Int) := by gcongr
      _ = ((2 ^ fb : Int) : ℚ) := by push_cast; rw [pow_succ, zpow_neg_one]; ring

/-- The pattern of the significand nearest to x in steps of 2^g is the pattern nearest to x, when x is at least 2^fb steps
away from 0. -/
theorem roundsTo_of_nearestInteger {eb fb p : Nat} {x : ℚ} {q : Int} (g : Int)
    (hv : ieeeValue eb fb p = some (q * 2 ^ g : ℚ)) (hq0 : q ≠ 0) (hparity : q % 2 = 0 → p % 2 = 0) (hq : NearestInteger (x / 2 ^ g) q)
    (hx : ((2 ^ fb : Int) : ℚ) ≤ |x / 2 ^ g|) : RoundsTo eb fb x p := by
  have hstep : (0 : ℚ) < 2 ^ g := by positivity
  have hdist : ∀ w : ℚ, |w * 2 ^ g - x| = |x / 2 ^ g - w| * 2 ^ g := by
    intro w
    rw [← abs_of_pos hstep, ← abs_mul, abs_of_pos hstep, abs_sub_comm, sub_mul, div_mul_cancel₀ _ hstep.ne']
  refine ⟨_, hv, fun h0 => ?_, fun q' u _ hu => ?_⟩
  · exact absurd h0 (mul_ne_zero (Int.cast_ne_zero.mpr hq0) hstep.ne')
  · have hscaled : u = u / 2 ^ g * 2 ^ g := (div_mul_cancel₀ u hstep.ne').symm
    rw [hscaled, hdist, hdist, mul_le_mul_iff_left₀ hstep, mul_left_inj' hstep.ne', Ne, mul_left_inj' hstep.ne']
    obtain ⟨k, hk⟩ | hsmall := multiple_or_small_of_ieeeValue hu g
    · rw [hk]
      obtain ⟨hle, htie⟩ := hq.le_int k
      exact ⟨hle, fun he hne => hparity (htie he (by exact_mod_cast hne))⟩
    · have hlt := hq.lt_small hx hsmall
      exact ⟨hlt.le, fun he => absurd he hlt.ne⟩

end Sys2Proof.Machine
end

section
/-! PROOF. R110, R112: `ieeePattern` is the pattern of r / 2^F rounded to fb + 1 significant bits, so TOF64 and TOF32 write
the nearest pattern. -/

namespace Sys2Proof.Machine

open Sys2Proof.Claims

/-! ## The rounded significand -/

/-- The significand that `ieeePattern` computes for the magnitude m, before a carry moves it to the next exponent. -/
def roundedSignificand (fb m : Nat) : Nat :=
  if m.log2 ≤ fb then m * 2 ^ (fb - m.log2) else (rneDiv m (pow2 (m.log2 - fb))).toNat

theorem rneDiv_nonneg {n d : Int} (hn : 0 ≤ n) (hd : 0 < d) : 0 ≤ rneDiv n d := by
  have hq : 0 ≤ n / d := Int.ediv_nonneg hn hd.le
  simp only [rneDiv]
  split_ifs <;> omega

/-- The magnitude m in steps of its last significant bit. -/
def scaledMagnitude (fb m : Nat) : ℚ := m * 2 ^ ((fb : Int) - m.log2)

theorem roundedSignificand_nearest (fb m : Nat) : NearestInteger (scaledMagnitude fb m) (roundedSignificand fb m) := by
  unfold roundedSignificand scaledMagnitude
  split_ifs with hl
  · have hexact : (m : ℚ) * 2 ^ ((fb : Int) - m.log2) = ((m * 2 ^ (fb - m.log2) : Nat) : Int) := by
      rw [← Nat.cast_sub hl, zpow_natCast]
      push_cast
      rfl
    rw [hexact]
    exact nearestInteger_intCast _
  · have hdiv : (m : ℚ) * 2 ^ ((fb : Int) - m.log2) = ((m : Int) : ℚ) / (pow2 (m.log2 - fb) : Int) := by
      rw [← neg_sub, ← Nat.cast_sub (by omega), zpow_neg, zpow_natCast, pow2]
      push_cast
      rfl
    rw [hdiv, Int.toNat_of_nonneg (rneDiv_nonneg (Int.natCast_nonneg m) (pow2_pos _))]
    exact nearestInteger_rneDiv _ (pow2_pos _)

theorem scaledMagnitude_range (fb : Nat) {m : Nat} (hm : m ≠ 0) :
    (2 : ℚ) ^ fb ≤ scaledMagnitude fb m ∧ scaledMagnitude fb m < 2 ^ (fb + 1) := by
  have hlo : (2 : ℚ) ^ m.log2 ≤ m := by exact_mod_cast Nat.log2_self_le hm
  have hhi : (m : ℚ) < 2 ^ (m.log2 + 1) := by exact_mod_cast Nat.lt_log2_self
  have hpow : ∀ k : Nat, (2 : ℚ) ^ (m.log2 + k) * 2 ^ ((fb : Int) - m.log2) = 2 ^ (fb + k) := fun k => by
    rw [← zpow_natCast, ← zpow_natCast, ← zpow_add₀ two_ne_zero]
    congr 1
    push_cast
    ring
  unfold scaledMagnitude
  constructor
  · calc (2 : ℚ) ^ fb
      _ = 2 ^ m.log2 * 2 ^ ((fb : Int) - m.log2) := (hpow 0).symm
      _ ≤ _ := by gcongr
  · calc (m : ℚ) * 2 ^ ((fb : Int) - m.log2)
      _ < 2 ^ (m.log2 + 1) * 2 ^ ((fb : Int) - m.log2) := by gcongr
      _ = _ := hpow 1

theorem roundedSignificand_range (fb : Nat) {m : Nat} (hm : m ≠ 0) :
    2 ^ fb ≤ roundedSignificand fb m ∧ roundedSignificand fb m ≤ 2 ^ (fb + 1) := by
  obtain ⟨hlo, hhi⟩ := scaledMagnitude_range fb hm
  have hnear := abs_le.mp (roundedSignificand_nearest fb m).1
  generalize roundedSignificand fb m = q at hnear ⊢
  rw [Int.cast_natCast] at hnear
  constructor
  · have h : ((2 ^ fb : Nat) : ℚ) < (q + 1 : Nat) := by push_cast; linarith
    exact Nat.lt_succ_iff.mp (by exact_mod_cast h)
  · have h : (q : ℚ) < (2 ^ (fb + 1) + 1 : Nat) := by push_cast; linarith
    exact Nat.lt_succ_iff.mp (by exact_mod_cast h)

/-! ## Sign, exponent and fraction of the pattern -/

theorem ieeeParts_of_fields {eb fb e f : Nat} (negative : Bool) (he : e ≠ 0) (he' : e + 1 < 2 ^ eb) (hf : f < 2 ^ fb) :
    ieeeParts eb fb ((if negative then 2 ^ (eb + fb) else 0) + e * 2 ^ fb + f)
      = some ⟨negative, 2 ^ fb + f, e - (2 ^ (eb - 1) - 1) - fb⟩ := by
  have hsign : (if negative then 2 ^ (eb + fb) else 0) = negative.toNat * 2 ^ eb * 2 ^ fb := by
    cases negative <;> simp [pow_add]
  have hp : (if negative then 2 ^ (eb + fb) else 0) + e * 2 ^ fb + f = f + (e + 2 ^ eb * negative.toNat) * 2 ^ fb := by
    rw [hsign]
    ring
  have hdiv : (f + (e + 2 ^ eb * negative.toNat) * 2 ^ fb) / 2 ^ fb = e + 2 ^ eb * negative.toNat := by
    rw [Nat.add_mul_div_right _ _ (by positivity), Nat.div_eq_of_lt hf, Nat.zero_add]
  have hfrac : (f + (e + 2 ^ eb * negative.toNat) * 2 ^ fb) % 2 ^ fb = f := by
    rw [Nat.add_mul_mod_self_right, Nat.mod_eq_of_lt hf]
  have hexp : (e + 2 ^ eb * negative.toNat) % 2 ^ eb = e := by
    rw [Nat.add_mul_mod_self_left, Nat.mod_eq_of_lt (by omega)]
  have hneg : (e + 2 ^ eb * negative.toNat) / 2 ^ eb = negative.toNat := by
    rw [Nat.add_mul_div_left _ _ (by positivity), Nat.div_eq_of_lt (by omega), Nat.zero_add]
  have hbit : decide (negative.toNat % 2 = 1) = negative := by cases negative <;> rfl
  rw [hp]
  simp only [ieeeParts, Nat.add_comm eb fb, pow_add, ← Nat.div_div_eq_div_mul, hdiv, hfrac, hexp, hneg, hbit]
  rw [if_neg (by omega), if_neg he]

theorem two_pow_eq_double_bias {eb : Nat} (heb : 2 ^ 7 ≤ 2 ^ (eb - 1)) : 2 ^ eb = 2 * 2 ^ (eb - 1) := by
  cases eb with
  | zero => simp at heb
  | succ k => exact pow_succ' 2 k

/-- The biased exponent of bit k of r is not cut off at 0, so taking the bias away gives the exponent of r / 2^F. -/
theorem biasedExponent_sub_bias {eb F : Nat} (heb : 2 ^ 7 ≤ 2 ^ (eb - 1)) (hF : F ≤ 30) (k fb : Nat) :
    ((k + (2 ^ (eb - 1) - 1) - F : Nat) : Int) - (2 ^ (eb - 1) - 1) - fb = k - F - fb := by
  rw [Nat.cast_sub (by omega)]
  push_cast [Nat.one_le_two_pow]
  ring

theorem ieeePattern_of_ne_zero {eb fb : Nat} {c : Config} {r : Int} (hr : r ≠ 0) :
    ieeePattern eb fb c r = (if r < 0 then 2 ^ (eb + fb) else 0)
      + ((if roundedSignificand fb r.natAbs = 2 ^ (fb + 1) then r.natAbs.log2 + 1 else r.natAbs.log2)
          + (2 ^ (eb - 1) - 1) - c.fracBits) * 2 ^ fb
      + ((if roundedSignificand fb r.natAbs = 2 ^ (fb + 1) then 2 ^ fb else roundedSignificand fb r.natAbs) - 2 ^ fb) :=
  if_neg hr

/-- The significand of r with its sign. -/
def signedSignificand (fb : Nat) (r : Int) : Int := (if r < 0 then -1 else 1) * roundedSignificand fb r.natAbs

/-- The exponent of the last significant bit of r / 2^F. -/
def stepExponent (fb : Nat) (c : Config) (r : Int) : Int := r.natAbs.log2 - c.fracBits - fb

theorem signedSignificand_ne_zero (fb : Nat) {r : Int} (hr : r ≠ 0) : signedSignificand fb r ≠ 0 := by
  have hq := (roundedSignificand_range fb (Int.natAbs_ne_zero.mpr hr)).1
  have hpos : 0 < 2 ^ fb := by positivity
  unfold signedSignificand
  split_ifs <;> omega

section
/-! A raw value r ≠ 0 in a format with at least eight exponent bits. -/

variable {eb fb : Nat} {c : Config} {r : Int} (heb : 2 ^ 7 ≤ 2 ^ (eb - 1)) (hfb : fb ≠ 0) (hF : c.fracBits ≤ 30)
  (hr : r ≠ 0) (hr63 : r.natAbs ≤ 2 ^ 63)

include heb hfb hF hr hr63

/-- The sign, the biased exponent and the fraction: a carry to 2^(fb+1) leaves the fraction 0 and the next exponent. -/
theorem ieeePattern_fields :
    ∃ e f : Nat, e ≠ 0 ∧ e + 1 < 2 ^ eb ∧ f < 2 ^ fb
      ∧ ieeePattern eb fb c r = (if decide (r < 0) = true then 2 ^ (eb + fb) else 0) + e * 2 ^ fb + f
      ∧ f % 2 = roundedSignificand fb r.natAbs % 2
      ∧ ((2 ^ fb + f : Nat) : ℚ) * 2 ^ ((e : Int) - (2 ^ (eb - 1) - 1) - fb)
        = roundedSignificand fb r.natAbs * 2 ^ stepExponent fb c r := by
  have hl : r.natAbs.log2 < 64 := (Nat.log2_lt (Int.natAbs_ne_zero.mpr hr)).mpr (by omega)
  have hpos : 0 < 2 ^ fb := by positivity
  have heven : 2 ^ fb % 2 = 0 := Nat.mod_eq_zero_of_dvd (dvd_pow_self 2 hfb)
  have hsucc : 2 ^ (fb + 1) = 2 * 2 ^ fb := pow_succ' 2 fb
  have hexp := two_pow_eq_double_bias heb
  obtain ⟨hlo, hhi⟩ := roundedSignificand_range fb (Int.natAbs_ne_zero.mpr hr)
  rw [ieeePattern_of_ne_zero hr]
  simp only [decide_eq_true_eq, stepExponent]
  generalize roundedSignificand fb r.natAbs = q at *
  generalize r.natAbs.log2 = l at *
  have hbias : ∀ k : Nat, k + (2 ^ (eb - 1) - 1) - c.fracBits ≠ 0 := fun k => by omega
  by_cases hcarry : q = 2 ^ (fb + 1)
  · refine ⟨_, 0, hbias (l + 1), by omega, by omega, by simp [hcarry], by omega, ?_⟩
    have hnext : ((l + 1 : Nat) : Int) - c.fracBits - fb = l - c.fracBits - fb + 1 := by
      push_cast
      ring
    rw [biasedExponent_sub_bias heb hF, hnext, zpow_add_one₀ two_ne_zero, hcarry]
    push_cast
    ring
  · refine ⟨_, q - 2 ^ fb, hbias l, by omega, by omega, by simp [hcarry], by omega, ?_⟩
    rw [biasedExponent_sub_bias heb hF, Nat.add_sub_cancel' hlo]

theorem ieeeValue_ieeePattern :
    ieeeValue eb fb (ieeePattern eb fb c r) = some (signedSignificand fb r * 2 ^ stepExponent fb c r : ℚ) := by
  obtain ⟨e, f, he, he', hf, hp, -, hval⟩ := ieeePattern_fields heb hfb hF hr hr63
  rw [hp, ieeeValue_eq_parts, ieeeParts_of_fields _ he he' hf, Option.map_some, Binary64.value, mul_assoc, hval,
    signedSignificand]
  simp only [decide_eq_true_eq]
  push_cast
  rw [mul_assoc]

theorem ieeePattern_lt : ieeePattern eb fb c r < 2 ^ (eb + fb + 1) := by
  obtain ⟨e, f, -, he, hf, hp, -, -⟩ := ieeePattern_fields heb hfb hF hr hr63
  have hfield : (e + 1) * 2 ^ fb ≤ 2 ^ eb * 2 ^ fb := Nat.mul_le_mul_right _ he.le
  rw [add_one_mul, ← pow_add] at hfield
  rw [hp, pow_succ]
  split_ifs <;> omega

theorem even_ieeePattern (h : signedSignificand fb r % 2 = 0) : ieeePattern eb fb c r % 2 = 0 := by
  obtain ⟨e, f, -, -, -, hp, hparity, -⟩ := ieeePattern_fields heb hfb hF hr hr63
  have hq : roundedSignificand fb r.natAbs % 2 = 0 := by
    unfold signedSignificand at h
    split_ifs at h <;> omega
  have heven : 2 ^ fb % 2 = 0 := Nat.mod_eq_zero_of_dvd (dvd_pow_self 2 hfb)
  have hfield : e * 2 ^ fb % 2 = 0 := by simp [Nat.mul_mod, heven]
  have hsign : 2 ^ (eb + fb) % 2 = 0 := by simp [pow_add, Nat.mul_mod, heven]
  rw [hp]
  split_ifs <;> omega

end

/-- r / 2^F in steps of its last significant bit. -/
theorem div_step (fb : Nat) (c : Config) (r : Int) :
    (r : ℚ) / 2 ^ c.fracBits / 2 ^ stepExponent fb c r = (if r < 0 then -1 else 1) * scaledMagnitude fb r.natAbs := by
  have hr : (r : ℚ) = (if r < 0 then -1 else 1) * r.natAbs := by
    rw [Nat.cast_natAbs]
    split_ifs with h
    · rw [abs_of_neg h]; push_cast; ring
    · rw [abs_of_nonneg (by omega), one_mul]
  have hstep : (2 : ℚ) ^ c.fracBits * 2 ^ stepExponent fb c r = 2 ^ ((r.natAbs.log2 : Int) - fb) := by
    rw [stepExponent, ← zpow_natCast, ← zpow_add₀ two_ne_zero]
    congr 1
    ring
  rw [div_div, hstep, scaledMagnitude, ← neg_sub (r.natAbs.log2 : Int), zpow_neg, ← mul_assoc, ← hr, div_eq_mul_inv]

theorem signedSignificand_nearest (fb : Nat) (c : Config) (r : Int) :
    NearestInteger ((r : ℚ) / 2 ^ c.fracBits / 2 ^ stepExponent fb c r) (signedSignificand fb r) := by
  have hnear := roundedSignificand_nearest fb r.natAbs
  rw [div_step, signedSignificand]
  split_ifs
  · rw [neg_one_mul, neg_one_mul]
    exact hnear.neg
  · rw [one_mul, one_mul]
    exact hnear

theorem le_abs_div_step (fb : Nat) (c : Config) {r : Int} (hr : r ≠ 0) :
    ((2 ^ fb : Int) : ℚ) ≤ |(r : ℚ) / 2 ^ c.fracBits / 2 ^ stepExponent fb c r| := by
  have hmag := (scaledMagnitude_range fb (Int.natAbs_ne_zero.mpr hr)).1
  have habs : |(if r < 0 then -1 else 1 : ℚ)| = 1 := by split_ifs <;> simp
  rw [div_step, abs_mul, habs, one_mul]
  push_cast
  exact hmag.trans (le_abs_self _)

/-! ## The nearest pattern -/

theorem ieeeValue_zero {eb : Nat} (fb : Nat) (heb : eb ≠ 0) : ieeeValue eb fb 0 = some 0 := by
  have hpos : 1 < 2 ^ eb := Nat.one_lt_two_pow heb
  have hinf : ¬ 0 = 2 ^ eb - 1 := by omega
  simp [ieeeValue, hinf]

theorem roundsTo_zero {eb : Nat} (fb : Nat) (heb : eb ≠ 0) : RoundsTo eb fb 0 0 := by
  refine ⟨0, ieeeValue_zero fb heb, fun _ => rfl, fun q u _ _ => ⟨?_, fun _ _ => rfl⟩⟩
  simp

theorem roundsTo_ieeePattern {eb fb : Nat} {c : Config} {r : Int} (heb : 2 ^ 7 ≤ 2 ^ (eb - 1)) (hfb : fb ≠ 0)
    (hF : c.fracBits ≤ 30) (hr63 : r.natAbs ≤ 2 ^ 63) :
    RoundsTo eb fb (r / 2 ^ c.fracBits) (ieeePattern eb fb c r) ∧ ieeePattern eb fb c r < 2 ^ (eb + fb + 1) := by
  obtain rfl | hr := eq_or_ne r 0
  · have heb0 : eb ≠ 0 := by rintro rfl; simp at heb
    have hzero : ieeePattern eb fb c 0 = 0 := if_pos rfl
    rw [hzero, Int.cast_zero, zero_div]
    exact ⟨roundsTo_zero fb heb0, by positivity⟩
  · exact ⟨roundsTo_of_nearestInteger _ (ieeeValue_ieeePattern heb hfb hF hr hr63) (signedSignificand_ne_zero fb hr)
      (even_ieeePattern heb hfb hF hr hr63) (signedSignificand_nearest fb c r) (le_abs_div_step fb c hr),
      ieeePattern_lt heb hfb hF hr hr63⟩

theorem toNat_fxToF64 {c : Config} {r : Int} (h : ieeePattern 11 52 c r < 2 ^ 64) :
    (fxToF64 c r).toNat = ieeePattern 11 52 c r :=
  (BitVec.toNat_ofNat _ 64).trans (Nat.mod_eq_of_lt h)

theorem natAbs_toInt_le (v : Word) : v.toInt.natAbs ≤ 2 ^ 63 := by
  have hlo := v.le_toInt
  have hhi := v.toInt_lt
  omega

end Sys2Proof.Machine

namespace Sys2Proof.Claims

open Sys2Proof.Machine

/-- Settles O28: `roundsTo_ieeePattern` for the format with 11 exponent and 52 fraction bits. -/
theorem tof64RoundsToNearest : Obligations.Tof64RoundsToNearest := by
  intro s rd rs1 hlegal
  obtain ⟨hround, hlt⟩ := roundsTo_ieeePattern (eb := 11) (fb := 52) (by norm_num) (by norm_num)
    (fracBits_range hlegal).2 (natAbs_toInt_le (s.readX rs1))
  exact ⟨fxToF64 s.cfg (s.raw rs1), (toNat_fxToF64 hlt).symm ▸ hround, writes_of_writeX rfl⟩

/-- Settles O29: `roundsTo_ieeePattern` for the format with 8 exponent and 23 fraction bits. -/
theorem tof32RoundsOnce : Obligations.Tof32RoundsOnce := by
  intro s rd rs1 hlegal
  obtain ⟨hround, hlt⟩ := roundsTo_ieeePattern (eb := 8) (fb := 23) (by norm_num) (by norm_num)
    (fracBits_range hlegal).2 (natAbs_toInt_le (s.readX rs1))
  have hp : (BitVec.ofNat 32 (ieeePattern 8 23 s.cfg (s.raw rs1))).toNat = _ :=
    (BitVec.toNat_ofNat _ 32).trans (Nat.mod_eq_of_lt hlt)
  exact ⟨_, hp.symm ▸ hround, writes_of_writeX rfl⟩

end Sys2Proof.Claims
end

section
/-! PROOF. R108, R109: `scaleBinary64` is the integer nearest to d·2^F wherever one of the two is a raw value, and below 54
bits TOF64 is exact, so FROMF64 takes it back. -/

namespace Sys2Proof.Machine

open Sys2Proof.Claims

/-! ## FROMF64 -/

/-- The magnitude that `scaleBinary64` computes: the significand M shifted by k places, at most 64. -/
def shiftedSignificand (M : Nat) (k : Int) : Int :=
  if 0 ≤ k then M * pow2 (min k.toNat 64) else rneDiv M (pow2 (min (-k).toNat 64))

theorem scaleBinary64_eq (c : Config) (d : Binary64) :
    scaleBinary64 c d = if d.negative then -shiftedSignificand d.significand (d.exponent + c.fracBits)
      else shiftedSignificand d.significand (d.exponent + c.fracBits) := rfl

/-- To the left the shift is exact, up to 64 places; past them both products are far beyond a raw value. -/
theorem shiftedSignificand_left (M j : Nat) :
    shiftedSignificand M j = M * 2 ^ j ∨ 2 ^ 64 ≤ |(M * 2 ^ j : Int)| ∧ 2 ^ 64 ≤ |shiftedSignificand M j| := by
  have heq : shiftedSignificand M j = M * 2 ^ min j 64 := if_pos (Int.natCast_nonneg j)
  rw [heq]
  rcases Nat.le_total j 64 with hj | hj
  · exact .inl (by rw [min_eq_left hj])
  obtain rfl | hM := Nat.eq_zero_or_pos M
  · exact .inl (by simp)
  · have hM1 : (1 : Int) ≤ M := by exact_mod_cast hM
    have hpow : (2 : Int) ^ 64 ≤ 2 ^ j := pow_le_pow_right₀ (by norm_num) hj
    rw [min_eq_right hj, abs_of_nonneg (by positivity), abs_of_nonneg (by positivity)]
    exact .inr ⟨by nlinarith, by nlinarith⟩

/-- To the right the shift rounds, and more than 64 places leave nothing of 53 bits. -/
theorem shiftedSignificand_right {M j : Nat} (hM : M < 2 ^ 53) (hj : 0 < j) :
    NearestInteger ((M : ℚ) / 2 ^ j) (shiftedSignificand M (-j)) := by
  have heq : shiftedSignificand M (-j) = rneDiv M (pow2 (min j 64)) := by
    rw [shiftedSignificand, if_neg (by omega), neg_neg, Int.toNat_natCast]
  rw [heq]
  rcases Nat.le_total j 64 with hle | hge
  · rw [min_eq_left hle]
    have hnear := nearestInteger_rneDiv M (pow2_pos j)
    simpa [pow2] using hnear
  · have hzero : rneDiv M (pow2 64) = 0 := by
      refine (rneDiv_unique (pow2_pos 64) ?_ ?_ ?_).symm <;> simp only [pow2] <;> omega
    have hsmall : (M : ℚ) < 2 ^ 53 := by exact_mod_cast hM
    have hpow : (2 : ℚ) ^ 64 ≤ 2 ^ j := pow_le_pow_right₀ (by norm_num) hge
    rw [min_eq_right hge, hzero]
    apply nearestInteger_zero
    rw [abs_of_nonneg (by positivity), div_lt_div_iff₀ (by positivity) two_pos]
    linarith

theorem shiftedSignificand_nearest {M : Nat} (hM : M < 2 ^ 53) (k : Int) :
    ∃ n : Int, NearestInteger (M * 2 ^ k) n
      ∧ (shiftedSignificand M k = n ∨ 2 ^ 64 ≤ |n| ∧ 2 ^ 64 ≤ |shiftedSignificand M k|) := by
  rcases le_or_gt 0 k with hk | hk
  · obtain ⟨j, rfl⟩ := Int.eq_ofNat_of_zero_le hk
    refine ⟨M * 2 ^ j, ?_, shiftedSignificand_left M j⟩
    simpa using nearestInteger_intCast (M * 2 ^ j)
  · obtain ⟨j, rfl⟩ := Int.exists_eq_neg_ofNat hk.le
    refine ⟨_, ?_, .inl rfl⟩
    rw [zpow_neg, zpow_natCast, ← div_eq_mul_inv]
    exact shiftedSignificand_right hM (by omega)

theorem not_raw_of_abs {n : Int} (h : 2 ^ 64 ≤ |n|) : n < minRaw ∨ maxRaw < n := by
  have habs := abs_cases n
  simp only [minRaw, maxRaw]
  omega

/-- `scaleBinary64` is the integer n nearest to d·2^F, or neither is a raw value. -/
theorem scaleBinary64_nearest (c : Config) {d : Binary64} (hd : d.significand < 2 ^ 53) :
    ∃ n : Int, NearestInteger (d.value * 2 ^ c.fracBits) n
      ∧ (scaleBinary64 c d = n
        ∨ (n < minRaw ∨ maxRaw < n) ∧ (scaleBinary64 c d < minRaw ∨ maxRaw < scaleBinary64 c d)) := by
  obtain ⟨n, hnear, hscale⟩ := shiftedSignificand_nearest hd (d.exponent + c.fracBits)
  have hval : d.value * 2 ^ c.fracBits
      = (if d.negative then -1 else 1) * (d.significand * 2 ^ (d.exponent + c.fracBits)) := by
    rw [Binary64.value, zpow_add₀ two_ne_zero, zpow_natCast]
    ring
  rw [hval, scaleBinary64_eq]
  split_ifs
  · refine ⟨-n, by rw [neg_one_mul]; exact hnear.neg, hscale.imp (congrArg _) ?_⟩
    rw [← abs_neg n, ← abs_neg (shiftedSignificand _ _)]
    exact And.imp not_raw_of_abs not_raw_of_abs
  · exact ⟨n, by rw [one_mul]; exact hnear, hscale.imp id (And.imp not_raw_of_abs not_raw_of_abs)⟩

theorem fxFromF64_of_no_value (c : Config) {v : Word} (h : ieeeValue 11 52 v.toNat = none) :
    fxFromF64 c v = .error .convRange := by
  rw [ieeeValue_eq_parts, Option.map_eq_none_iff, ← bin64_eq_parts] at h
  simp [fxFromF64, h]

theorem fxFromF64_of_value (c : Config) {v : Word} {u : ℚ} (h : ieeeValue 11 52 v.toNat = some u) :
    ∃ n : Int, NearestInteger (u * 2 ^ c.fracBits) n ∧ (minRaw ≤ n ∧ n ≤ maxRaw → fxFromF64 c v = .ok n)
      ∧ (n < minRaw ∨ maxRaw < n → fxFromF64 c v = .error .convRange) := by
  rw [ieeeValue_eq_parts, Option.map_eq_some_iff] at h
  obtain ⟨d, hd, rfl⟩ := h
  obtain ⟨n, hnear, hscale⟩ := scaleBinary64_nearest c (significand_lt_of_parts hd)
  rw [← bin64_eq_parts] at hd
  refine ⟨n, hnear, fun hraw => ?_, fun hout => ?_⟩
  · obtain rfl | ⟨hn, -⟩ := hscale
    · simp only [fxFromF64, hd]
      exact if_neg (by omega)
    · omega
  · have hout' : scaleBinary64 c d < minRaw ∨ maxRaw < scaleBinary64 c d := by
      obtain rfl | ⟨-, hs⟩ := hscale
      · exact hout
      · exact hs
    simp only [fxFromF64, hd]
    exact if_pos hout'

/-! ## FROMF64 of TOF64 -/

/-- A magnitude of at most 2^(fb+1) has an integer number of steps. -/
theorem scaledMagnitude_integer {fb m : Nat} (h : m ≤ 2 ^ (fb + 1)) : ∃ k : Int, scaledMagnitude fb m = k := by
  by_cases hl : m.log2 ≤ fb
  · refine ⟨m * 2 ^ (fb - m.log2), ?_⟩
    rw [scaledMagnitude, ← Nat.cast_sub hl, zpow_natCast]
    push_cast
    rfl
  · have hm0 : m ≠ 0 := by rintro rfl; simp at hl
    have hm : m = 2 ^ (fb + 1) :=
      le_antisymm h ((Nat.pow_le_pow_right two_pos (by omega)).trans (Nat.log2_self_le hm0))
    refine ⟨2 ^ fb, ?_⟩
    subst hm
    rw [scaledMagnitude, Nat.log2_two_pow]
    push_cast
    rw [sub_add_cancel_left, pow_succ, zpow_neg_one]
    ring

/-- A raw value of at most 53 bits, or 2^53 in magnitude, is a binary64 value over 2^F. -/
theorem ieeeValue_fxToF64 {c : Config} {r : Int} (hF : c.fracBits ≤ 30) (hr53 : r.natAbs ≤ 2 ^ 53) :
    ieeeValue 11 52 (fxToF64 c r).toNat = some (r / 2 ^ c.fracBits : ℚ) := by
  have hr63 : r.natAbs ≤ 2 ^ 63 := by omega
  rw [toNat_fxToF64 (roundsTo_ieeePattern (by norm_num) (by norm_num) hF hr63).2]
  obtain rfl | hr := eq_or_ne r 0
  · rw [Int.cast_zero, zero_div]
    exact ieeeValue_zero 52 (by norm_num)
  · have hnear := signedSignificand_nearest 52 c r
    obtain ⟨k, hk⟩ : ∃ k : Int, (r : ℚ) / 2 ^ c.fracBits / 2 ^ stepExponent 52 c r = k := by
      obtain ⟨k, hk⟩ := scaledMagnitude_integer hr53
      rw [div_step, hk]
      exact ⟨(if r < 0 then -1 else 1) * k, by push_cast; rfl⟩
    rw [hk] at hnear
    rw [ieeeValue_ieeePattern (by norm_num) (by norm_num) hF hr hr63, hnear.eq_of_intCast, ← hk,
      div_mul_cancel₀ _ (by positivity)]

theorem fxFromF64_fxToF64 {c : Config} {r : Int} (hF : c.fracBits ≤ 30) (hr53 : r.natAbs ≤ 2 ^ 53) :
    fxFromF64 c (fxToF64 c r) = .ok r := by
  obtain ⟨n, hnear, hok, -⟩ := fxFromF64_of_value c (ieeeValue_fxToF64 hF hr53)
  rw [div_mul_cancel₀ _ (by positivity)] at hnear
  obtain rfl := hnear.eq_of_intCast
  exact hok (by simp only [minRaw, maxRaw]; omega)

end Sys2Proof.Machine

namespace Sys2Proof.Claims

open Sys2Proof.Machine

/-- Settles O27: `fxFromF64_of_no_value` and `fxFromF64_of_value`. -/
theorem fromf64RoundsToNearestOrFaults : Obligations.Fromf64RoundsToNearestOrFaults := by
  intro s rd rs1 _
  refine ⟨fun hnone => faults_of_complete _ rfl (fxFromF64_of_no_value s.cfg hnone), fun d hd => ?_⟩
  obtain ⟨n, ⟨hle, htie⟩, hok, herror⟩ := fxFromF64_of_value s.cfg hd
  exact ⟨n, hle, htie, fun hraw => writesInt_of_complete _ rfl (hok hraw),
    fun hout => faults_of_complete _ rfl (herror hout)⟩

/-- Settles O30: `fxFromF64_fxToF64`. -/
theorem binary64RoundTripBelow53Bits : Obligations.Binary64RoundTripBelow53Bits := by
  intro s s' rd rs1 rd' rs1' hlegal hcfg hlo hhi
  refine ⟨fxToF64 s.cfg (s.raw rs1), writes_of_writeX rfl, fun hread => ?_⟩
  have hback : fxFromF64 s'.cfg (s'.readX rs1') = .ok (s.raw rs1) := by
    rw [hread, hcfg]
    exact fxFromF64_fxToF64 (fracBits_range hlegal).2 (by rw [State.raw, rawOf]; omega)
  have hwrites : WritesInt (.fromf64 rd' rs1') s' (s.raw rs1) := writesInt_of_complete _ rfl hback
  rwa [WritesInt, State.raw, rawOf, BitVec.ofInt_toInt] at hwrites

end Sys2Proof.Claims
end

section
/-! PROOF. R131 to R134, R142 to R150: the commands on raw values whose result has a form on the 64-bit patterns. Saturation
is said once on patterns (`ofInt_sat64`); a shift is a product or a floor division by a power of two. -/

namespace Sys2Proof.Machine

/-! ## Saturation on patterns (R131 to R134, R144, R146) -/

theorem toInt_range (v : Word) : minRaw ≤ v.toInt ∧ v.toInt ≤ maxRaw :=
  ⟨v.le_toInt, Int.le_of_lt_add_one v.toInt_lt⟩

theorem msb_iff_toInt_neg (v : Word) : v.msb = true ↔ v.toInt < 0 := by
  rw [BitVec.msb_eq_toInt, decide_eq_true_eq]

/-- A value that is no raw value saturates to the limit on its side, any other to its own pattern. -/
theorem ofInt_sat64 {v : Int} {negative : Bool} (hside : v < minRaw ∨ maxRaw < v → (negative = true ↔ v < 0)) :
    BitVec.ofInt 64 (sat64 v) =
      if v < minRaw ∨ maxRaw < v then (if negative then BitVec.intMin 64 else BitVec.intMax 64)
      else BitVec.ofInt 64 v := by
  split_ifs with hout hneg
  · have hlo : sat64 v = minRaw := by
      have hv := (hside hout).mp hneg
      simp only [sat64, minRaw, maxRaw] at hout ⊢
      split_ifs <;> omega
    rw [hlo]
    rfl
  · have hhi : sat64 v = maxRaw := by
      have hv := mt (hside hout).mpr hneg
      simp only [sat64, minRaw, maxRaw] at hout ⊢
      split_ifs <;> omega
    rw [hhi]
    rfl
  · rw [sat64_of_range (by omega) (by omega)]

/-- The overflow test of R132, on the three sign bits. -/
theorem add_overflow_iff (a b : Word) :
    (a.toInt + b.toInt < minRaw ∨ maxRaw < a.toInt + b.toInt) ↔ a.msb = b.msb ∧ (a + b).msb ≠ a.msb := by
  have hbits : a.saddOverflow b = true ↔ a.msb = b.msb ∧ (a + b).msb ≠ a.msb := by
    simp [BitVec.saddOverflow_eq]
  rw [← hbits]
  simp only [BitVec.saddOverflow, Bool.or_eq_true, decide_eq_true_eq, minRaw, maxRaw]
  omega

/-- The overflow test of R134, on the three sign bits. -/
theorem sub_overflow_iff (a b : Word) :
    (a.toInt - b.toInt < minRaw ∨ maxRaw < a.toInt - b.toInt) ↔ a.msb ≠ b.msb ∧ (a - b).msb ≠ a.msb := by
  have hbits : a.ssubOverflow b = true ↔ a.msb ≠ b.msb ∧ (a - b).msb ≠ a.msb := by
    rw [BitVec.ssubOverflow_eq]
    cases a.msb <;> cases b.msb <;> simp
  rw [← hbits]
  simp only [BitVec.ssubOverflow, Bool.or_eq_true, decide_eq_true_eq, minRaw, maxRaw]
  omega

theorem ofInt_toInt_sub (a b : Word) : BitVec.ofInt 64 (a.toInt - b.toInt) = a - b := by
  rw [Int.sub_eq_add_neg, BitVec.ofInt_add, BitVec.ofInt_neg, BitVec.ofInt_toInt, BitVec.ofInt_toInt,
    BitVec.sub_eq_add_neg]

/-- R131, R132: where the sum is no raw value it lies on the side of both operands. -/
theorem ofInt_fxAdd (a b : Word) :
    BitVec.ofInt 64 (fxAdd a.toInt b.toInt) =
      if a.msb = b.msb ∧ (a + b).msb ≠ a.msb then (if a.msb then BitVec.intMin 64 else BitVec.intMax 64)
      else a + b := by
  have hside : a.toInt + b.toInt < minRaw ∨ maxRaw < a.toInt + b.toInt → (a.msb = true ↔ a.toInt + b.toInt < 0) := by
    have ha := toInt_range a
    have hb := toInt_range b
    rw [msb_iff_toInt_neg]
    simp only [minRaw, maxRaw] at ha hb ⊢
    omega
  rw [fxAdd, ofInt_sat64 hside]
  simp only [add_overflow_iff, BitVec.ofInt_add, BitVec.ofInt_toInt]

/-- R133, R134: where the difference is no raw value it lies on the side of the minuend. -/
theorem ofInt_fxSub (a b : Word) :
    BitVec.ofInt 64 (fxSub a.toInt b.toInt) =
      if a.msb ≠ b.msb ∧ (a - b).msb ≠ a.msb then (if a.msb then BitVec.intMin 64 else BitVec.intMax 64)
      else a - b := by
  have hside : a.toInt - b.toInt < minRaw ∨ maxRaw < a.toInt - b.toInt → (a.msb = true ↔ a.toInt - b.toInt < 0) := by
    have ha := toInt_range a
    have hb := toInt_range b
    rw [msb_iff_toInt_neg]
    simp only [minRaw, maxRaw] at ha hb ⊢
    omega
  rw [fxSub, ofInt_sat64 hside]
  simp only [sub_overflow_iff, ofInt_toInt_sub]

/-- Negation leaves the raw values at MinValue alone. -/
theorem neg_overflow_iff (a : Word) : (-a.toInt < minRaw ∨ maxRaw < -a.toInt) ↔ a = BitVec.intMin 64 := by
  have hmin : (BitVec.intMin 64).toInt = minRaw := by decide
  have ha := toInt_range a
  rw [← BitVec.toInt_inj, hmin]
  simp only [minRaw, maxRaw] at ha ⊢
  omega

theorem ofInt_fxNeg (a : Word) :
    BitVec.ofInt 64 (fxNeg a.toInt) = if a = BitVec.intMin 64 then BitVec.intMax 64 else -a := by
  have hside : -a.toInt < minRaw ∨ maxRaw < -a.toInt → (false = true ↔ -a.toInt < 0) := by
    have ha := toInt_range a
    simp only [minRaw, maxRaw, Bool.false_eq_true, false_iff] at ha ⊢
    omega
  rw [fxNeg, ofInt_sat64 hside]
  simp only [neg_overflow_iff, BitVec.ofInt_neg, BitVec.ofInt_toInt, Bool.false_eq_true, if_false]

theorem ofInt_fxAbs (a : Word) :
    BitVec.ofInt 64 (fxAbs a.toInt) =
      if a = BitVec.intMin 64 then BitVec.intMax 64 else if a.msb then -a else a := by
  by_cases hneg : a.toInt < 0
  · have habs : fxAbs a.toInt = fxNeg a.toInt := by rw [fxAbs, iabs, if_pos hneg, fxNeg]
    rw [habs, ofInt_fxNeg, if_pos ((msb_iff_toInt_neg a).mpr hneg)]
  · obtain ⟨hlo, hhi⟩ := toInt_range a
    have habs : fxAbs a.toInt = a.toInt := by rw [fxAbs, iabs, if_neg hneg, sat64_of_range hlo hhi]
    have hmin : a ≠ BitVec.intMin 64 := by
      rintro rfl
      exact hneg (by decide)
    rw [habs, BitVec.ofInt_toInt, if_neg hmin, if_neg (mt (msb_iff_toInt_neg a).mp hneg)]

/-! ## Remainder (R142) -/

theorem fxMod_of_ne (a : Word) {b : Word} (hb : b ≠ 0#64) : fxMod a.toInt b.toInt = .ok (a.srem b).toInt := by
  have hb' : b.toInt ≠ 0 := fun h => hb (BitVec.toInt_inj.mp h)
  rw [fxMod, if_neg hb', BitVec.toInt_srem]

/-! ## Shifts on patterns (R148, R150) -/

theorem shiftCountOf_eq_mod (v : Word) : shiftCountOf v = v.toNat % 64 := by
  simp [shiftCountOf, BitVec.extractLsb'_toNat]

theorem pow2_eq_natCast (n : Nat) : pow2 n = ((2 ^ n : Nat) : Int) := by
  simp [pow2]

theorem ofInt_pow2 (n : Nat) : BitVec.ofInt 64 (pow2 n) = BitVec.twoPow 64 n := by
  apply BitVec.eq_of_toNat_eq
  rw [pow2_eq_natCast, BitVec.ofInt_natCast, BitVec.toNat_ofNat, BitVec.toNat_twoPow]

theorem ofInt_mul_pow2 (v : Int) (n : Nat) : BitVec.ofInt 64 (v * pow2 n) = BitVec.ofInt 64 v <<< n := by
  rw [BitVec.ofInt_mul, ofInt_pow2, BitVec.shiftLeft_eq_mul_twoPow]

/-- TOINT's shift, for any count in the place of F. -/
theorem ofInt_asr (v : Word) (n : Nat) : BitVec.ofInt 64 (asr v.toInt n) = v.sshiftRight n :=
  ofInt_fxToInt { Config.reference with fracBits := n } v

theorem ofInt_fxShl (v : Word) (n : Nat) : BitVec.ofInt 64 (fxShl v.toInt n) = v <<< n := by
  rw [fxShl, ofInt_wrap64, ofInt_mul_pow2, BitVec.ofInt_toInt]

end Sys2Proof.Machine

namespace Sys2Proof.Claims

open Sys2Proof.Machine

/-- Settles O32: both commands write `sat64` of the exact value, whose pattern `ofInt_fxAdd` and `ofInt_fxSub` give. -/
theorem addAndSubSaturateBySignBits : Obligations.AddAndSubSaturateBySignBits := by
  rintro s rd rs1 rs2 _ _ _ _ rfl rfl rfl rfl
  refine ⟨writes_of_writeX rfl, writes_of_writeX rfl, ?_, ?_⟩
  · rw [← ofInt_fxAdd]
    exact writes_of_writeX rfl
  · rw [← ofInt_fxSub]
    exact writes_of_writeX rfl

/-- Settles O36: `fxMod_of_ne`, and a zero pattern is the raw value 0. -/
theorem modIsTruncatedRemainder : Obligations.ModIsTruncatedRemainder := by
  intro s rd rs1 rs2
  refine ⟨fun hzero => faults_of_complete _ rfl ?_, fun hne => ?_⟩
  · have hraw : s.raw rs2 = 0 := by rw [State.raw, hzero]; rfl
    rw [fxMod, if_pos hraw]
  · rw [← BitVec.ofInt_toInt (x := (s.readX rs1).srem (s.readX rs2))]
    exact writesInt_of_complete _ rfl (fxMod_of_ne _ hne)

/-- Settles O37: `ofInt_fxNeg` and `ofInt_fxAbs`. -/
theorem negAndAbsSaturateMinValue : Obligations.NegAndAbsSaturateMinValue := by
  rintro s rd rs1 _ rfl
  rw [← ofInt_fxNeg, ← ofInt_fxAbs]
  exact ⟨writes_of_writeX rfl, writes_of_writeX rfl⟩

/-- Settles O38: `ofInt_fxShl` and `ofInt_asr`, with the count that `shiftCountOf` reads. -/
theorem shiftsUseSixCountBits : Obligations.ShiftsUseSixCountBits := by
  intro s rd rs1 rs2
  rw [← shiftCountOf_eq_mod, ← ofInt_fxShl, ← ofInt_asr]
  exact ⟨writes_of_writeX rfl, writes_of_writeX rfl⟩

end Sys2Proof.Claims
end

section
/-! PROOF. R135 to R140: the rounded product, its four products over the operands split at bit F, and the nearest
quotient. -/

namespace Sys2Proof.Machine

open Sys2Proof.Claims

/-! ## The rounded product (R135) -/

theorem roundedProduct_spec (c : Config) (a b : Int) : RoundedProduct c a b (roundedProduct c a b) :=
  ⟨Int.ediv_mul_le _ (one_pos c).ne', Int.lt_ediv_add_one_mul_self _ (one_pos c)⟩

/-- With a = ah·2^F + al and b = bh·2^F + bl, only the low product al·bl has a fraction to round. -/
theorem roundedProduct_split (c : Config) (a b : Int) :
    roundedProduct c a b =
      a / c.one * (b / c.one) * c.one + a / c.one * (b % c.one) + a % c.one * (b / c.one)
        + (a % c.one * (b % c.one) + c.half) / c.one := by
  have ha := Int.mul_ediv_add_emod a c.one
  have hb := Int.mul_ediv_add_emod b c.one
  have hsum : a * b + c.half = (a % c.one * (b % c.one) + c.half)
      + (a / c.one * (b / c.one) * c.one + a / c.one * (b % c.one) + a % c.one * (b / c.one)) * c.one := by
    calc a * b + c.half
      _ = (c.one * (a / c.one) + a % c.one) * (c.one * (b / c.one) + b % c.one) + c.half := by rw [ha, hb]
      _ = _ := by ring
  rw [roundedProduct, hsum, Int.add_mul_ediv_right _ _ (one_pos c).ne', Int.add_comm]

/-- The low product and its rounding bit fit in 64 bits. -/
theorem lowProduct_range {c : Config} (h : c.legal = true) (a b : Int) :
    0 ≤ a % c.one * (b % c.one) + c.half ∧ a % c.one * (b % c.one) + c.half < 2 ^ 64 := by
  obtain ⟨-, hone⟩ := one_range h
  have hpos := one_pos c
  have hhalf := half_pos c
  have heq := one_eq_two_mul_half h
  have ha := Int.emod_nonneg a hpos.ne'
  have ha' := Int.emod_lt_of_pos a hpos
  have hb := Int.emod_nonneg b hpos.ne'
  have hb' := Int.emod_lt_of_pos b hpos
  have hprod : a % c.one * (b % c.one) ≤ 2 ^ 30 * 2 ^ 30 :=
    Int.mul_le_mul (by omega) (by omega) hb (by norm_num)
  have hprod0 : 0 ≤ a % c.one * (b % c.one) := Int.mul_nonneg ha hb
  omega

/-! ## The split on patterns (R135, R138) -/

theorem ofInt_mod_pow2 (v : Word) {n : Nat} (hn : n ≤ 64) :
    BitVec.ofInt 64 (v.toInt % pow2 n) = v &&& BitVec.ofNat 64 (2 ^ n - 1) := by
  have hdvd : ((2 ^ n : Nat) : Int) ∣ ((2 ^ 64 : Nat) : Int) := by exact_mod_cast Nat.pow_dvd_pow 2 hn
  have hmod : v.toInt % pow2 n = ((v.toNat % 2 ^ n : Nat) : Int) := by
    rw [pow2_eq_natCast, BitVec.toInt_eq_toNat_bmod, Int.natCast_emod, ← Int.emod_emod_of_dvd _ hdvd, Int.bmod_emod,
      Int.emod_emod_of_dvd _ hdvd]
  apply BitVec.eq_of_toNat_eq
  have hpow : 2 ^ n ≤ 2 ^ 64 := Nat.pow_le_pow_right two_pos hn
  have hpos : 0 < 2 ^ n := Nat.two_pow_pos n
  rw [hmod, BitVec.ofInt_natCast, BitVec.toNat_ofNat, BitVec.toNat_and, BitVec.toNat_ofNat,
    Nat.mod_eq_of_lt (a := 2 ^ n - 1) (by omega), Nat.and_two_pow_sub_one_eq_mod,
    Nat.mod_eq_of_lt ((Nat.mod_lt _ hpos).trans_le hpow)]

theorem ofInt_div_pow2 {v : Int} (h0 : 0 ≤ v) (h : v < 2 ^ 64) (n : Nat) :
    BitVec.ofInt 64 (v / pow2 n) = BitVec.ofInt 64 v >>> n := by
  obtain ⟨m, rfl⟩ := Int.eq_ofNat_of_zero_le h0
  have hm : m < 2 ^ 64 := by exact_mod_cast h
  apply BitVec.eq_of_toNat_eq
  rw [pow2_eq_natCast, ← Int.natCast_ediv, BitVec.ofInt_natCast, BitVec.ofInt_natCast, BitVec.toNat_ushiftRight,
    BitVec.toNat_ofNat, BitVec.toNat_ofNat, Nat.shiftRight_eq_div_pow, Nat.mod_eq_of_lt hm,
    Nat.mod_eq_of_lt ((Nat.div_le_self m _).trans_lt hm)]

theorem ofInt_half (c : Config) : BitVec.ofInt 64 c.half = BitVec.ofNat 64 (2 ^ (c.fracBits - 1)) := by
  rw [Config.half, pow2_eq_natCast, BitVec.ofInt_natCast]

/-- The four products of R135 on patterns: `roundedProduct_split` term by term. -/
theorem ofInt_fxMulw {c : Config} (h : c.legal = true) (a b : Word) :
    BitVec.ofInt 64 (fxMulw c a.toInt b.toInt) =
      (a.sshiftRight c.fracBits * b.sshiftRight c.fracBits) <<< c.fracBits
        + a.sshiftRight c.fracBits * (b &&& BitVec.ofNat 64 (2 ^ c.fracBits - 1))
        + (a &&& BitVec.ofNat 64 (2 ^ c.fracBits - 1)) * b.sshiftRight c.fracBits
        + ((a &&& BitVec.ofNat 64 (2 ^ c.fracBits - 1)) * (b &&& BitVec.ofNat 64 (2 ^ c.fracBits - 1))
          + BitVec.ofNat 64 (2 ^ (c.fracBits - 1))) >>> c.fracBits := by
  have hF : c.fracBits ≤ 64 := (fracBits_range h).2.trans (by norm_num)
  have hhigh (v : Word) : BitVec.ofInt 64 (v.toInt / c.one) = v.sshiftRight c.fracBits := ofInt_asr v c.fracBits
  have hlow (v : Word) : BitVec.ofInt 64 (v.toInt % c.one) = v &&& BitVec.ofNat 64 (2 ^ c.fracBits - 1) :=
    ofInt_mod_pow2 v hF
  have hshl (v : Int) : BitVec.ofInt 64 (v * c.one) = BitVec.ofInt 64 v <<< c.fracBits := ofInt_mul_pow2 v c.fracBits
  obtain ⟨h0, h64⟩ := lowProduct_range h a.toInt b.toInt
  have hshr := ofInt_div_pow2 h0 h64 c.fracBits
  rw [← Config.one] at hshr
  rw [fxMulw, ofInt_wrap64, roundedProduct_split]
  simp only [BitVec.ofInt_add, hshl, hshr, BitVec.ofInt_mul, hhigh, hlow, ofInt_half]

/-! ## The nearest quotient (R140) -/

theorem nearestEven_rneDiv (p : Int) {q : Int} (hq : 0 < q) : NearestEven p q (rneDiv p q) := rneDiv_nearest p hq

theorem nearestEven_neg {p q n : Int} (h : NearestEven p q n) : NearestEven (-p) q (-n) := by
  obtain ⟨hlo, hhi, heven⟩ := h
  have hflip : -p - -n * q = -(p - n * q) := by ring
  rw [NearestEven, hflip]
  omega

/-- The quotient of the magnitudes, signed, is the nearest quotient: rounding to even is symmetric. -/
theorem quotient_signed_rneDiv (c : Config) (a : Int) {b : Int} (hb : b ≠ 0) :
    Claims.Quotient c a b
      (if (a < 0) ≠ (b < 0) then -rneDiv (iabs a * c.one) (iabs b) else rneDiv (iabs a * c.one) (iabs b)) := by
  have hpos : 0 < iabs b := by rw [iabs]; split_ifs <;> omega
  have habs : (b.natAbs : Int) = iabs b := by rw [iabs]; split_ifs <;> omega
  have hsigned : (if b < 0 then -(a * c.one) else a * c.one)
      = if (a < 0) ≠ (b < 0) then -(iabs a * c.one) else iabs a * c.one := by
    by_cases ha : a < 0 <;> by_cases hb' : b < 0 <;> simp [ha, hb', iabs]
  have hnear := nearestEven_rneDiv (iabs a * c.one) hpos
  rw [Claims.Quotient, habs, hsigned]
  split_ifs
  · exact nearestEven_neg hnear
  · exact hnear

theorem fxDiv_of_ne (c : Config) (a : Int) {b : Int} (hb : b ≠ 0) :
    ∃ n, Claims.Quotient c a b n ∧ fxDiv c a b = .ok (sat64 n) :=
  ⟨_, quotient_signed_rneDiv c a hb, by rw [fxDiv, if_neg hb]⟩

end Sys2Proof.Machine

namespace Sys2Proof.Claims

open Sys2Proof.Machine

/-- Settles O33: MUL is `sat64` of `roundedProduct`. -/
theorem mulSaturatesRoundedProduct : Obligations.MulSaturatesRoundedProduct := fun s _ _ _ _ =>
  ⟨_, roundedProduct_spec s.cfg _ _, writes_of_writeX rfl⟩

/-- Settles O34: `ofInt_wrap64` for the value modulo 2^64, `ofInt_fxMulw` for the four products. -/
theorem mulwWrapsFourPartialProducts : Obligations.MulwWrapsFourPartialProducts := by
  rintro s rd rs1 rs2 _ _ hlegal rfl rfl
  have hwrites : WritesInt (.mulw rd rs1 rs2) s (fxMulw s.cfg (s.readX rs1).toInt (s.readX rs2).toInt) :=
    writes_of_writeX rfl
  refine ⟨⟨_, roundedProduct_spec s.cfg _ _, ?_⟩, ?_⟩
  · rwa [WritesInt, fxMulw, ofInt_wrap64] at hwrites
  · rwa [WritesInt, ofInt_fxMulw hlegal] at hwrites

/-- Settles O35: `fxDiv_of_ne`. -/
theorem divRoundsQuotientToNearestEven : Obligations.DivRoundsQuotientToNearestEven := by
  intro s rd rs1 rs2 _
  refine ⟨fun hzero => faults_of_complete _ rfl (if_pos hzero), fun hne => ?_⟩
  obtain ⟨n, hquot, hdiv⟩ := fxDiv_of_ne s.cfg (s.readX rs1).toInt hne
  exact ⟨n, hquot, writesInt_of_complete _ rfl hdiv⟩

end Sys2Proof.Claims
end

section
/-! PROOF. R152 to R160: the compares, how they determine one another, and HASH. -/

namespace Sys2Proof.Machine

/-! ## The compares on patterns (R152 to R158) -/

theorem raw_eq_iff (s : State) (r1 r2 : Reg) : s.raw r1 = s.raw r2 ↔ s.readX r1 = s.readX r2 := BitVec.toInt_inj

theorem raw_lt_iff (s : State) (r1 r2 : Reg) : s.raw r1 < s.raw r2 ↔ (s.readX r1).slt (s.readX r2) = true :=
  BitVec.slt_iff_toInt_lt.symm

theorem raw_le_iff (s : State) (r1 r2 : Reg) : s.raw r1 ≤ s.raw r2 ↔ ¬ (s.readX r2).slt (s.readX r1) = true := by
  rw [← raw_lt_iff, not_lt]

theorem ofInt_truth {b : Bool} {p : Prop} [Decidable p] (h : b = true ↔ p) :
    BitVec.ofInt 64 (truth b) = if p then 1#64 else 0#64 := by
  simp only [← h]
  cases b <;> rfl

theorem ofInt_truth_not {b : Bool} {p : Prop} [Decidable p] (h : b = true ↔ ¬p) :
    BitVec.ofInt 64 (truth b) = if p then 0#64 else 1#64 := by
  rw [ofInt_truth h, ite_not]

theorem ofInt_threeWay (a b : Word) :
    BitVec.ofInt 64 (threeWay a.toInt b.toInt) = if b.slt a then 1#64 else if a.slt b then -1#64 else 0#64 := by
  simp only [threeWay, BitVec.slt_iff_toInt_lt]
  split_ifs <;> rfl

/-! ## How the compares determine one another (R159) -/

theorem truth_eq_one_iff (p : Prop) [Decidable p] : truth p = 1 ↔ p := by
  by_cases hp : p <;> simp [truth, hp]

theorem truth_cases (b : Bool) : truth b = 0 ∨ truth b = 1 := by
  cases b <;> simp [truth]

theorem threeWay_swap (a b : Int) : threeWay b a = -threeWay a b := by
  simp only [threeWay]
  split_ifs <;> omega

theorem threeWay_eq_zero_iff (a b : Int) : threeWay a b = 0 ↔ a = b := by
  simp only [threeWay]
  split_ifs <;> simp <;> omega

theorem threeWay_eq_neg_one_iff (a b : Int) : threeWay a b = -1 ↔ a < b := by
  simp only [threeWay]
  split_ifs <;> simp <;> omega

theorem threeWay_cases (a b : Int) : threeWay a b = -1 ∨ threeWay a b = 0 ∨ threeWay a b = 1 := by
  simp only [threeWay]
  split_ifs <;> omega

/-- The map r ↦ r / 2^F keeps the order. -/
theorem div_two_pow_lt_iff (a b : Int) (n : Nat) : (a : ℚ) / 2 ^ n < b / 2 ^ n ↔ a < b := by
  rw [div_lt_div_iff_of_pos_right (by positivity)]
  exact_mod_cast Iff.rfl

/-! ## HASH (R160) -/

theorem getLsbD_halves_xor (v : Word) {k : Nat} (hk : k < 32) :
    (v.extractLsb' 0 32 ^^^ v.extractLsb' 32 32).getLsbD k = (v.getLsbD k ^^ v.getLsbD (k + 32)) := by
  simp [hk, Nat.add_comm 32 k]

theorem getLsbD_fxHash_low (v : Word) {k : Nat} (hk : k < 32) :
    (fxHash v).getLsbD k = (v.getLsbD k ^^ v.getLsbD (k + 32)) := by
  rw [fxHash, BitVec.getLsbD_signExtend, if_pos hk, getLsbD_halves_xor v hk, decide_eq_true (by omega), Bool.true_and]

theorem getLsbD_fxHash_high (v : Word) {k : Nat} (hk : 32 ≤ k) (hk64 : k < 64) :
    (fxHash v).getLsbD k = (fxHash v).getLsbD 31 := by
  rw [fxHash, BitVec.getLsbD_signExtend, BitVec.getLsbD_signExtend, if_neg (by omega), if_pos (by omega),
    decide_eq_true hk64, decide_eq_true (by omega), BitVec.msb_eq_getLsbD_last]

end Sys2Proof.Machine

namespace Sys2Proof.Claims

open Sys2Proof.Machine

/-- Settles O39: `ofInt_threeWay` for CMP; the six tests by `ofInt_truth`, or by `ofInt_truth_not` where the signed order
gives the test's negation. -/
theorem comparesFollowSignedOrder : Obligations.ComparesFollowSignedOrder := by
  rintro s rd rs1 rs2 _ _ rfl rfl
  refine ⟨?_, ?_, ?_, ?_, ?_, ?_, ?_⟩
  · rw [← ofInt_threeWay]
    exact writes_of_writeX rfl
  · rw [← ofInt_truth (decide_eq_true_iff.trans (raw_eq_iff s rs1 rs2))]
    exact writes_of_writeX rfl
  · rw [← ofInt_truth_not (decide_eq_true_iff.trans (raw_eq_iff s rs1 rs2).not)]
    exact writes_of_writeX rfl
  · rw [← ofInt_truth (decide_eq_true_iff.trans (raw_lt_iff s rs1 rs2))]
    exact writes_of_writeX rfl
  · rw [← ofInt_truth_not (decide_eq_true_iff.trans (raw_le_iff s rs1 rs2))]
    exact writes_of_writeX rfl
  · rw [← ofInt_truth (decide_eq_true_iff.trans (raw_lt_iff s rs2 rs1))]
    exact writes_of_writeX rfl
  · rw [← ofInt_truth_not (decide_eq_true_iff.trans (raw_le_iff s rs2 rs1))]
    exact writes_of_writeX rfl

/-- Settles O40: the results are `threeWay` and `truth` of the two raw values. -/
theorem compareResultsAgree : Obligations.CompareResultsAgree := by
  intro s rd ra rb
  refine ⟨threeWay (s.raw ra) (s.raw rb), truth (s.raw ra < s.raw rb), truth (s.raw ra = s.raw rb),
    truth (s.raw ra ≤ s.raw rb), writes_of_writeX rfl, ?_, writes_of_writeX rfl, ?_, truth_cases _,
    writes_of_writeX rfl, ?_, truth_cases _, writes_of_writeX rfl, ?_, truth_cases _, writes_of_writeX rfl,
    writes_of_writeX rfl, threeWay_cases _ _, ?_⟩
  · rw [← threeWay_swap]
    exact writes_of_writeX rfl
  · rw [truth_eq_one_iff, threeWay_eq_zero_iff]
  · rw [truth_eq_one_iff, threeWay_eq_neg_one_iff]
  · simp only [truth_eq_one_iff, le_iff_lt_or_eq]
  · rw [threeWay_eq_neg_one_iff, div_two_pow_lt_iff]
    rfl

/-- Settles O41: `getLsbD_fxHash_low` and `getLsbD_fxHash_high`. -/
theorem hashFoldsTheHalves : Obligations.HashFoldsTheHalves := fun s _ rs1 =>
  ⟨fxHash (s.readX rs1), writes_of_writeX rfl, fun _ hk => getLsbD_fxHash_low _ hk,
    fun _ hk hk64 => getLsbD_fxHash_high _ hk hk64⟩

end Sys2Proof.Claims
end

section
/-! PROOF. R181 to R189: FLOOR, CEIL and ROUND on the operand split at bit F. What they can write is the integral part of
the operand or the multiple of One after it, and only the latter can saturate. ROUNDD scales exactly, up to saturation, and
its last division keeps within the raw values. -/

namespace Sys2Proof.Machine

open Sys2Proof.Claims

/-! ## The operand split at bit F -/

theorem integralPart_add_fractionalPart (c : Config) (a : Int) : integralPart c a + fractionalPart c a = a :=
  Int.ediv_mul_add_emod a c.one

theorem fractionalPart_range (c : Config) (a : Int) : 0 ≤ fractionalPart c a ∧ fractionalPart c a < c.one :=
  ⟨Int.emod_nonneg a (one_pos c).ne', Int.emod_lt_of_pos a (one_pos c)⟩

theorem integralPart_succ (c : Config) (a : Int) : (a / c.one + 1) * c.one = integralPart c a + c.one := by
  rw [Int.add_mul, Int.one_mul, integralPart]

/-- The integral part shifted down to an integer, whose parity decides a tie (R185). -/
theorem asr_integralPart (c : Config) (a : Int) : asr (integralPart c a) c.fracBits = a / c.one :=
  Int.mul_ediv_cancel _ (one_pos c).ne'

/-- Both ends of the raw values are multiples of One. -/
theorem one_dvd_two_pow_63 {c : Config} (h : c.legal = true) : c.one ∣ 2 ^ 63 :=
  pow_dvd_pow 2 ((fracBits_range h).2.trans (by norm_num))

/-- The integral part is a raw value, and the multiple of One after it is one or is 2^63. -/
theorem integralPart_range {c : Config} (h : c.legal = true) {a : Int} (ha : minRaw ≤ a) (ha' : a ≤ maxRaw) :
    minRaw ≤ integralPart c a ∧ integralPart c a + c.one ≤ maxRaw + 1 := by
  obtain ⟨k, hk⟩ := one_dvd_two_pow_63 h
  have hone := one_pos c
  have hmin : -k * c.one = minRaw := by rw [Int.neg_mul, Int.mul_comm, ← hk, minRaw]; norm_num
  have hmax : k * c.one = maxRaw + 1 := by rw [Int.mul_comm, ← hk, maxRaw]; norm_num
  have hlo : -k ≤ a / c.one := (Int.le_ediv_iff_mul_le hone).mpr (by omega)
  have hhi : a / c.one < k := Int.ediv_lt_of_lt_mul hone (by omega)
  rw [← integralPart_succ, integralPart, ← hmin, ← hmax]
  exact ⟨Int.mul_le_mul_of_nonneg_right hlo hone.le, Int.mul_le_mul_of_nonneg_right hhi hone.le⟩

theorem sat64_of_minRaw_le {v : Int} (h : minRaw ≤ v) : sat64 v = if maxRaw < v then maxRaw else v := by
  rw [sat64, if_neg (not_lt.mpr h)]

/-! ## FLOOR and CEIL (R181, R183) -/

theorem shiftLeft_sshiftRight (v : Word) (n : Nat) :
    v.sshiftRight n <<< n = v &&& ~~~BitVec.ofNat 64 (2 ^ n - 1) := by
  ext k hk
  have hmask : (BitVec.ofNat 64 (2 ^ n - 1))[k] = decide (k < n) := by
    rw [← BitVec.getLsbD_eq_getElem, BitVec.getLsbD_ofNat, Nat.testBit_two_pow_sub_one, decide_eq_true hk,
      Bool.true_and]
  by_cases hkn : k < n
  · simp [hkn, hmask]
  · have hsum : n + (k - n) = k := by omega
    simp [hkn, hmask, hk, hsum, BitVec.getElem_sshiftRight]

theorem ofInt_fxFloor (c : Config) (v : Word) :
    BitVec.ofInt 64 (fxFloor c v.toInt) = v &&& ~~~BitVec.ofNat 64 (2 ^ c.fracBits - 1) := by
  calc BitVec.ofInt 64 (fxFloor c v.toInt)
    _ = BitVec.ofInt 64 (asr v.toInt c.fracBits) <<< c.fracBits := ofInt_mul_pow2 _ _
    _ = v.sshiftRight c.fracBits <<< c.fracBits := by rw [ofInt_asr]
    _ = _ := shiftLeft_sshiftRight v c.fracBits

theorem fxCeil_of_integral {c : Config} {a : Int} (hfr : fractionalPart c a = 0) : fxCeil c a = a :=
  if_neg (not_not.mpr hfr)

theorem fxCeil_of_not_integral {c : Config} (h : c.legal = true) {a : Int} (ha : minRaw ≤ a) (ha' : a ≤ maxRaw)
    (hfr : fractionalPart c a ≠ 0) :
    fxCeil c a = if maxRaw < integralPart c a + c.one then maxRaw else integralPart c a + c.one := by
  obtain ⟨hlo, -⟩ := integralPart_range h ha ha'
  have hone := one_pos c
  rw [fxCeil, if_pos hfr, fxAdd, sat64_of_minRaw_le (by omega)]

/-- CEIL is the least multiple of One at or above the operand, saturated. -/
theorem fxCeil_spec {c : Config} (h : c.legal = true) {a : Int} (ha : minRaw ≤ a) (ha' : a ≤ maxRaw) :
    ∃ n : Int, (n - 1) * c.one < a ∧ a ≤ n * c.one
      ∧ fxCeil c a = if maxRaw < n * c.one then maxRaw else n * c.one := by
  have hsplit := integralPart_add_fractionalPart c a
  obtain ⟨hfr0, hfr1⟩ := fractionalPart_range c a
  by_cases hfr : fractionalPart c a = 0
  · have heq : a / c.one * c.one = a := by rw [← integralPart]; omega
    refine ⟨a / c.one, ?_, heq.ge, ?_⟩
    · rw [Int.sub_mul]
      omega
    · rw [fxCeil_of_integral hfr, heq, if_neg (not_lt.mpr ha')]
  · refine ⟨a / c.one + 1, ?_, ?_, ?_⟩
    · rw [Int.add_sub_cancel, ← integralPart]
      omega
    · rw [integralPart_succ]
      omega
    · rw [fxCeil_of_not_integral h ha ha' hfr, integralPart_succ]

/-! ## ROUND (R185) -/

/-- n is nearest to p/q, for q > 0, a tie going by the rule. -/
def NearestBy : TieRule → Int → Int → Int → Prop
  | .even => NearestEven
  | .away => NearestAway

/-- Off a tie the rule plays no part. -/
theorem nearestBy_of_no_tie (rule : TieRule) {p q n : Int} (hlo : -q < 2 * (p - n * q)) (hhi : 2 * (p - n * q) < q) :
    NearestBy rule p q n := by
  cases rule <;> exact ⟨hhi.le, hlo.le, fun htie => by omega⟩

theorem fxRound_even_of_tie {c : Config} {a : Int} (htie : fractionalPart c a = c.half) :
    fxRound c .even a = if a / c.one % 2 = 0 then integralPart c a else fxAdd (integralPart c a) c.one := by
  simp only [fxRound, htie, lt_irrefl, if_false, asr_integralPart]

theorem fxRound_away_of_tie {c : Config} {a : Int} (htie : fractionalPart c a = c.half) :
    fxRound c .away a = if 0 < a then fxAdd (integralPart c a) c.one else integralPart c a := by
  simp only [fxRound, htie, lt_irrefl, if_false]

/-- Before it saturates, ROUND takes the integral part or the multiple of One after it, whichever is nearest. -/
theorem fxRound_cases {c : Config} (h : c.legal = true) (rule : TieRule) (a : Int) :
    (NearestBy rule a c.one (a / c.one) ∧ fxRound c rule a = integralPart c a)
      ∨ (NearestBy rule a c.one (a / c.one + 1) ∧ fxRound c rule a = fxAdd (integralPart c a) c.one) := by
  have hhalf := half_pos c
  have hone := one_eq_two_mul_half h
  have hsplit := integralPart_add_fractionalPart c a
  obtain ⟨hfr0, hfr1⟩ := fractionalPart_range c a
  have hdown : a - a / c.one * c.one = fractionalPart c a := by rw [← integralPart]; omega
  have hup : a - (a / c.one + 1) * c.one = fractionalPart c a - c.one := by rw [integralPart_succ]; omega
  obtain hlt | htie | hgt := lt_trichotomy (fractionalPart c a) c.half
  · exact .inl ⟨nearestBy_of_no_tie rule (by omega) (by omega), if_pos hlt⟩
  · cases rule with
    | even =>
      rw [fxRound_even_of_tie htie]
      by_cases heven : a / c.one % 2 = 0
      · exact .inl ⟨⟨by omega, by omega, fun _ => heven⟩, if_pos heven⟩
      · exact .inr ⟨⟨by omega, by omega, fun _ => by omega⟩, if_neg heven⟩
    | away =>
      rw [fxRound_away_of_tie htie]
      by_cases hpos : 0 < a
      · exact .inr ⟨⟨by omega, by omega, fun _ => by omega⟩, if_pos hpos⟩
      · exact .inl ⟨⟨by omega, by omega, fun _ => by omega⟩, if_neg hpos⟩
  · refine .inr ⟨nearestBy_of_no_tie rule (by omega) (by omega), ?_⟩
    simp only [fxRound]
    rw [if_neg hgt.not_gt, if_pos hgt]

/-- ROUND is the nearest multiple of One, saturated. -/
theorem fxRound_spec {c : Config} (h : c.legal = true) (rule : TieRule) {a : Int} (ha : minRaw ≤ a) (ha' : a ≤ maxRaw) :
    ∃ n, NearestBy rule a c.one n ∧ minRaw ≤ fxRound c rule a ∧ fxRound c rule a ≤ maxRaw
      ∧ fxRound c rule a = if maxRaw < n * c.one then maxRaw else n * c.one := by
  obtain ⟨hlo, -⟩ := integralPart_range h ha ha'
  have hone := one_pos c
  have hsplit := integralPart_add_fractionalPart c a
  obtain ⟨hfr0, -⟩ := fractionalPart_range c a
  obtain ⟨hnear, hround⟩ | ⟨hnear, hround⟩ := fxRound_cases h rule a
  · refine ⟨_, hnear, by omega, by omega, ?_⟩
    rw [hround, ← integralPart, if_neg (by omega)]
  · obtain ⟨hsat, hsat'⟩ := sat64_range (integralPart c a + c.one)
    rw [fxAdd] at hround
    refine ⟨_, hnear, hround ▸ hsat, hround ▸ hsat', ?_⟩
    rw [hround, integralPart_succ, sat64_of_minRaw_le (by omega)]

/-! ## ROUNDD (R188) -/

/-- MUL by the raw value of 10^d has no fraction to round. -/
theorem fxMul_pow10 {c : Config} (h : c.legal = true) (a : Int) (d : Nat) :
    fxMul c a (c.pow10 d) = sat64 (a * 10 ^ d) := by
  have hhalf : c.half / c.one = 0 := by
    have hhalf := half_pos c
    have hone := one_eq_two_mul_half h
    exact Int.ediv_eq_zero_of_lt hhalf.le (by omega)
  have hprod : a * c.pow10 d + c.half = c.half + a * 10 ^ d * c.one := by
    rw [Config.pow10, Config.one]
    ring
  rw [fxMul, roundedProduct, hprod, Int.add_mul_ediv_right _ _ (one_pos c).ne', hhalf, Int.zero_add]

theorem nearestEven_mul_right {p q n k : Int} (hk : 0 < k) : NearestEven (p * k) (q * k) n ↔ NearestEven p q n := by
  have hdiff : 2 * (p * k - n * (q * k)) = 2 * (p - n * q) * k := by ring
  rw [NearestEven, hdiff, ← Int.neg_mul]
  simp only [mul_le_mul_iff_left₀ hk, mul_left_inj' hk.ne', NearestEven]

/-- The nearest integer to a quotient by a positive integer lies no further from 0 than the dividend. -/
theorem nearestEven_range {z q n lo hi : Int} (hq : 0 < q) (h : NearestEven z q n) (hlo : lo ≤ z) (hhi : z ≤ hi)
    (hlo0 : lo ≤ 0) (hhi0 : 0 ≤ hi) : lo ≤ n ∧ n ≤ hi := by
  obtain ⟨h1, h2, -⟩ := h
  constructor
  · by_contra hlt
    have hmul : (2 * n + 1) * q ≤ (2 * n + 1) * 1 := Int.mul_le_mul_of_nonpos_left (by omega) hq
    have hexp : (2 * n + 1) * q = 2 * (n * q) + q := by ring
    omega
  · by_contra hgt
    have hmul : (2 * n - 1) * 1 ≤ (2 * n - 1) * q := Int.mul_le_mul_of_nonneg_left hq (by omega)
    have hexp : (2 * n - 1) * q = 2 * (n * q) - q := by ring
    omega

/-- DIV of a raw value by the raw value of 10^d does not saturate. -/
theorem fxDiv_pow10 (c : Config) {z : Int} (hz : minRaw ≤ z) (hz' : z ≤ maxRaw) (d : Nat) :
    ∃ n, NearestEven z (10 ^ d) n ∧ fxDiv c z (c.pow10 d) = .ok n := by
  have hpos := pow10_pos c d
  have hten : (0 : Int) < 10 ^ d := by positivity
  obtain ⟨n, hquot, hdiv⟩ := fxDiv_of_ne c z hpos.ne'
  have hnear : NearestEven z (10 ^ d) n := by
    rw [Claims.Quotient, if_neg hpos.not_gt, Int.natAbs_of_nonneg hpos.le, Config.pow10, ← Config.one,
      nearestEven_mul_right (one_pos c)] at hquot
    exact hquot
  obtain ⟨hlo, hhi⟩ := nearestEven_range hten hnear hz hz' (by norm_num [minRaw]) (by norm_num [maxRaw])
  exact ⟨n, hnear, by rw [hdiv, sat64_of_range hlo hhi]⟩

theorem fxRoundDecimals_of_out_of_range {c : Config} {rule : TieRule} {a d : Int}
    (hd : d < 0 ∨ (c.maxDecimals : Int) < d) : fxRoundDecimals c rule a d = .error .decRange :=
  if_pos hd

/-- In range ROUNDD is the three steps, each of which has its own lemma above. -/
theorem fxRoundDecimals_of_range {c : Config} (h : c.legal = true) (rule : TieRule) (a : Int) {d : Int} (hd : 0 ≤ d)
    (hd' : d ≤ c.maxDecimals) :
    ∃ k n z : Int, NearestBy rule (sat64 (a * 10 ^ d.toNat)) c.one k
      ∧ z = (if maxRaw < k * c.one then maxRaw else k * c.one)
      ∧ NearestEven z (10 ^ d.toNat) n ∧ fxRoundDecimals c rule a d = .ok n := by
  obtain ⟨hlo, hhi⟩ := sat64_range (a * 10 ^ d.toNat)
  obtain ⟨k, hround, hz, hz', heq⟩ := fxRound_spec h rule hlo hhi
  obtain ⟨n, hnear, hdiv⟩ := fxDiv_pow10 c hz hz' d.toNat
  refine ⟨k, n, _, hround, heq, hnear, ?_⟩
  simp only [fxRoundDecimals]
  rw [if_neg (by omega), fxMul_pow10 h, hdiv]

/-! ## The field RM (R180) -/

theorem nearestBy_of_tieRuleOf {rm : BitVec 2} {rule : TieRule} {p q n : Int} (hrule : tieRuleOf rm = some rule)
    (h : NearestBy rule p q n) : (rm = 0#2 → NearestEven p q n) ∧ (rm = 1#2 → NearestAway p q n) := by
  constructor
  · rintro rfl
    obtain rfl : .even = rule := Option.some.inj hrule
    exact h
  · rintro rfl
    obtain rfl : .away = rule := Option.some.inj hrule
    exact h

theorem exec_round {rm : BitVec 2} {rule : TieRule} (hrule : tieRuleOf rm = some rule) (rd rs1 : Reg) (s : State) :
    exec (.round rd rs1 rm) s = complete (.round rd rs1 rm) rd (.ok (fxRound s.cfg rule (s.raw rs1))) s := by
  simp only [exec, execRound, hrule]

theorem exec_roundd {rm : BitVec 2} {rule : TieRule} (hrule : tieRuleOf rm = some rule) (rd rs1 rs2 : Reg) (s : State) :
    exec (.roundd rd rs1 rs2 rm) s
      = complete (.roundd rd rs1 rs2 rm) rd (fxRoundDecimals s.cfg rule (s.raw rs1) (s.raw rs2)) s := by
  simp only [exec, execRoundd, hrule]

theorem round_writesInt {s : State} (h : s.cfg.legal = true) {rm : BitVec 2} {rule : TieRule}
    (hrule : tieRuleOf rm = some rule) (rd rs1 : Reg) :
    ∃ n, NearestBy rule (s.readX rs1).toInt s.cfg.one n
      ∧ WritesInt (.round rd rs1 rm) s (if maxRaw < n * s.cfg.one then maxRaw else n * s.cfg.one) := by
  obtain ⟨hlo, hhi⟩ := toInt_range (s.readX rs1)
  obtain ⟨n, hnear, -, -, hround⟩ := fxRound_spec h rule hlo hhi
  exact ⟨n, hnear, writesInt_of_complete _ (exec_round hrule rd rs1 s) (congrArg Except.ok hround)⟩

end Sys2Proof.Machine

namespace Sys2Proof.Claims

open Sys2Proof.Machine

/-- Settles O42: the pattern of FLOOR is `ofInt_fxFloor`, and CEIL's value is `fxCeil_spec`. -/
theorem floorMasksAndCeilRoundsUp : Obligations.FloorMasksAndCeilRoundsUp := by
  rintro s rd rs1 _ hlegal rfl
  obtain ⟨hlo, hhi⟩ := toInt_range (s.readX rs1)
  have hone := one_pos s.cfg
  refine ⟨?_, ⟨_, Int.ediv_mul_le _ hone.ne', Int.lt_ediv_add_one_mul_self _ hone, writes_of_writeX rfl⟩, ?_⟩
  · rw [← ofInt_fxFloor]
    exact writes_of_writeX rfl
  · obtain ⟨n, hbelow, habove, hceil⟩ := fxCeil_spec hlegal hlo hhi
    exact ⟨n, hbelow, habove, hceil ▸ writes_of_writeX rfl⟩

/-- Settles O43: `round_writesInt` for the two rules that RM selects. -/
theorem roundFollowsTieRule : Obligations.RoundFollowsTieRule := by
  rintro s rd rs1 rm _ hlegal rfl
  constructor
  · rintro rfl
    exact round_writesInt hlegal (rule := .even) rfl rd rs1
  · rintro rfl
    exact round_writesInt hlegal (rule := .away) rfl rd rs1

/-- Settles O44: `fxRoundDecimals_of_out_of_range` and `fxRoundDecimals_of_range`, for the rule that RM selects. -/
theorem rounddScalesRoundsAndDivides : Obligations.RounddScalesRoundsAndDivides := by
  rintro s rd rs1 rs2 rm _ _ hlegal rfl rfl
  constructor
  · intro hrm hd
    obtain ⟨rule, hrule⟩ := tieRuleOf_of_legal (decide_eq_true hrm)
    exact faults_of_complete _ (exec_roundd hrule rd rs1 rs2 s) (fxRoundDecimals_of_out_of_range hd)
  · intro hrm hd hd'
    obtain ⟨rule, hrule⟩ := tieRuleOf_of_legal (decide_eq_true hrm)
    obtain ⟨k, n, z, hround, hz, hnear, hok⟩ := fxRoundDecimals_of_range hlegal rule (s.readX rs1).toInt hd hd'
    obtain ⟨heven, haway⟩ := nearestBy_of_tieRuleOf hrule hround
    exact ⟨_, k, z, n, rfl, heven, haway, hz, hnear, writesInt_of_complete _ (exec_roundd hrule rd rs1 rs2 s) hok⟩

/-- Settles O45: CEIL leaves a multiple of One as it is, and otherwise adds One to FLOOR's value, which saturates where the
sum is 2^63 and nowhere else. -/
theorem floorAndCeilBracketTheOperand : Obligations.FloorAndCeilBracketTheOperand := by
  rintro s rd rs1 a hlegal rfl
  obtain ⟨hlo, hhi⟩ := toInt_range (s.readX rs1)
  refine ⟨fxFloor s.cfg (s.readX rs1).toInt, fxCeil s.cfg (s.readX rs1).toInt, writes_of_writeX rfl,
    writes_of_writeX rfl, ?_⟩
  generalize (s.readX rs1).toInt = a at hlo hhi ⊢
  obtain ⟨hfl, hsucc⟩ := integralPart_range hlegal hlo hhi
  have hsplit := integralPart_add_fractionalPart s.cfg a
  obtain ⟨hfr0, hfr1⟩ := fractionalPart_range s.cfg a
  have hone : (2 : Int) ^ s.cfg.fracBits = s.cfg.one := rfl
  have hmax : (2 : Int) ^ 63 = maxRaw + 1 := by norm_num [maxRaw]
  rw [fxFloor, hone, hmax]
  by_cases hfr : fractionalPart s.cfg a = 0
  · rw [fxCeil_of_integral hfr]
    omega
  · rw [fxCeil_of_not_integral hlegal hlo hhi hfr]
    split_ifs <;> omega

end Sys2Proof.Claims
end

section
/-! PROOF. R201: SQRT. The floor of the root, rounded up where the remainder exceeds it, is the nearest root. -/

namespace Sys2Proof.Machine

open Sys2Proof.Claims

/-- N − r² > r exactly when N > (r + 1/2)², and (r + 1/2)² is no integer. -/
theorem nearestRoot_round_isqrt (n : Nat) :
    NearestRoot n (if isqrt n < n - isqrt n * isqrt n then (isqrt n : Int) + 1 else isqrt n) := by
  obtain ⟨hlo, hhi⟩ := isqrt_spec n
  generalize isqrt n = r at *
  zify at hlo hhi
  have hrem : r < n - r * r ↔ (r : Int) * r + r < n := by zify [hlo]; omega
  rw [NearestRoot]
  split_ifs with hup <;> rw [hrem] at hup
  · exact ⟨by omega, .inr (by linarith), by linarith⟩
  · refine ⟨by omega, or_iff_not_imp_left.mpr fun hpos => ?_, by linarith⟩
    have : (1 : Int) ≤ r := by omega
    linarith

theorem nearestRoot_le_of_sq {n r b : Int} (h : NearestRoot n r) (hb : 0 ≤ b) (hn : n ≤ b * b) : r ≤ b := by
  obtain ⟨-, hroot, -⟩ := h
  by_contra hgt
  have hodd : 2 * b + 1 ≤ 2 * r - 1 := by omega
  have hsq : (2 * b + 1) * (2 * b + 1) ≤ (2 * r - 1) * (2 * r - 1) := Int.mul_le_mul hodd hodd (by omega) (by omega)
  rcases hroot with rfl | hroot
  · omega
  · linarith

theorem fxSqrt_of_neg (c : Config) {a : Int} (ha : a < 0) : fxSqrt c a = .error .sqrtNeg := if_pos ha

theorem fxSqrt_of_nonneg (c : Config) {a : Int} (ha : 0 ≤ a) : ∃ r, NearestRoot (a * c.one) r ∧ fxSqrt c a = .ok r := by
  have hroot := nearestRoot_round_isqrt (a * c.one).toNat
  rw [Int.toNat_of_nonneg (Int.mul_nonneg ha (one_pos c).le)] at hroot
  exact ⟨_, hroot, if_neg (by omega)⟩

end Sys2Proof.Machine

namespace Sys2Proof.Claims

open Sys2Proof.Machine

/-- Settles O46: `fxSqrt_of_neg` and `fxSqrt_of_nonneg`; a·2^F is below 2^93, so the root is a raw value. -/
theorem sqrtIsNearestRoot : Obligations.SqrtIsNearestRoot := by
  rintro s rd rs1 a hlegal rfl
  refine ⟨fun hneg => faults_of_complete _ rfl (fxSqrt_of_neg s.cfg hneg), fun hnonneg => ?_⟩
  obtain ⟨r, hroot, hsqrt⟩ := fxSqrt_of_nonneg s.cfg hnonneg
  obtain ⟨hone, hone'⟩ := one_range hlegal
  obtain ⟨-, hmax⟩ := toInt_range (s.readX rs1)
  have hradicand : (s.readX rs1).toInt * s.cfg.one ≤ maxRaw * maxRaw :=
    Int.mul_le_mul hmax (hone'.trans (by norm_num [maxRaw])) (by omega) (by norm_num [maxRaw])
  exact ⟨r, hroot, nearestRoot_le_of_sq hroot (by norm_num [maxRaw]) hradicand, writesInt_of_complete _ rfl hsqrt⟩

end Sys2Proof.Claims
end

section
/-! PROOF. R204, R207: LOG2 and LN. The normalisation multiplies by 2^j or divides by it; from there on each squaring gives a
fraction bit and leaves a value in [One, Two), so MULW never wraps. The bits' weights add up to less than One, and LN's
product stays a raw value. -/

namespace Sys2Proof.Machine

open Sys2Proof.Claims

theorem asr_one (v : Int) : asr v 1 = v / 2 := rfl

theorem two_eq_two_mul_one (c : Config) : c.two = 2 * c.one := pow2_succ c.fracBits

/-! ## Normalisation -/

theorem log2Left_of_one_le {c : Config} {z : Int} (hz : c.one ≤ z) (n : Nat) (y : Int) : log2Left c n z y = (z, y) := by
  cases n with
  | zero => rfl
  | succ n => exact if_neg (not_lt.mpr hz)

theorem log2Right_of_lt_two {c : Config} {z : Int} (hz : z < c.two) (n : Nat) (y : Int) : log2Right c n z y = (z, y) := by
  cases n with
  | zero => rfl
  | succ n => exact if_neg (not_le.mpr hz)

theorem log2Left_spec (c : Config) (n : Nat) : ∀ {z : Int} (y : Int), z < c.two → c.one ≤ z * 2 ^ n →
    ∃ j ≤ n, log2Left c n z y = (z * 2 ^ j, y - j * c.one) ∧ c.one ≤ z * 2 ^ j ∧ z * 2 ^ j < c.two := by
  induction n with
  | zero => exact fun y hz hn => ⟨0, le_rfl, by simp [log2Left], hn, by simpa using hz⟩
  | succ n ih =>
    intro z y hz hn
    by_cases hlt : z < c.one
    · have htwo := two_eq_two_mul_one c
      have hshift (j : Nat) : z * 2 * 2 ^ j = z * 2 ^ (j + 1) := by ring
      obtain ⟨j, hj, heq, hrange⟩ := ih (z := z * 2) (y - c.one) (by omega) (by rwa [hshift])
      rw [hshift] at heq hrange
      refine ⟨j + 1, by omega, ?_, hrange⟩
      rw [log2Left, if_pos hlt, heq]
      push_cast
      ring_nf
    · exact ⟨0, by omega, by simp [log2Left_of_one_le (not_lt.mp hlt)], by simpa using hlt, by simpa using hz⟩

theorem log2Right_spec (c : Config) (n : Nat) : ∀ {z : Int} (y : Int), c.one ≤ z → z < c.two * 2 ^ n →
    ∃ j ≤ n, log2Right c n z y = (z / 2 ^ j, y + j * c.one) ∧ c.one ≤ z / 2 ^ j ∧ z / 2 ^ j < c.two := by
  induction n with
  | zero => exact fun y hz hn => ⟨0, le_rfl, by simp [log2Right], by simpa using hz, by simpa using hn⟩
  | succ n ih =>
    intro z y hz hn
    by_cases hle : c.two ≤ z
    · have htwo := two_eq_two_mul_one c
      have hshift (j : Nat) : z / 2 / 2 ^ j = z / 2 ^ (j + 1) := by
        rw [Int.ediv_ediv_of_nonneg (by norm_num), pow_succ']
      have hhalf : z / 2 < c.two * 2 ^ n := Int.ediv_lt_of_lt_mul (by norm_num) (by rwa [mul_assoc, ← pow_succ])
      obtain ⟨j, hj, heq, hrange⟩ := ih (z := z / 2) (y + c.one) (by omega) hhalf
      rw [hshift] at heq hrange
      refine ⟨j + 1, by omega, ?_, hrange⟩
      rw [log2Right, if_pos hle, asr_one, heq]
      push_cast
      ring_nf
    · exact ⟨0, by omega, by simp [log2Right_of_lt_two (not_le.mp hle)], by simpa using hz, by simpa using hle⟩

/-- The two loops bring a into [One, Two) by k halvings, or by −k doublings, and leave k·One in y. -/
theorem log2_normalises {c : Config} (h : c.legal = true) {a : Int} (ha : 0 < a) (ha' : a ≤ maxRaw) :
    ∃ k z : Int, (0 ≤ k → z = a / 2 ^ k.toNat) ∧ (k < 0 → z = a * 2 ^ (-k).toNat) ∧ c.one ≤ z ∧ z < c.two
      ∧ -c.fracBits ≤ k ∧ k ≤ 62 - c.fracBits
      ∧ fxLog2 c a = .ok (log2Bits c c.fracBits z (k * c.one) c.half) := by
  obtain ⟨-, h30⟩ := fracBits_range h
  have htwo := two_eq_two_mul_one c
  have hpos := one_pos c
  rw [fxLog2, if_neg (by omega)]
  by_cases hlt : a < c.two
  · have hone : c.one ≤ a * 2 ^ c.fracBits := le_mul_of_one_le_left hpos.le ha
    obtain ⟨j, hj, heq, hlo, hhi⟩ := log2Left_spec c c.fracBits 0 hlt hone
    refine ⟨-j, a * 2 ^ j, fun hk => ?_, fun _ => by simp, hlo, hhi, by omega, by omega, ?_⟩
    · obtain rfl : j = 0 := by omega
      simp
    · simp only [heq, log2Right_of_lt_two hhi, zero_sub, Int.neg_mul]
  · have hbound : a < c.two * 2 ^ (62 - c.fracBits) := by
      rw [Config.two, pow2, ← pow_add, show c.fracBits + 1 + (62 - c.fracBits) = 63 by omega]
      simp only [maxRaw] at ha'
      omega
    obtain ⟨j, hj, heq, hlo, hhi⟩ := log2Right_spec c (62 - c.fracBits) 0 (by omega) hbound
    refine ⟨j, a / 2 ^ j, fun _ => by simp, fun hk => by omega, hlo, hhi, by omega, by omega, ?_⟩
    simp only [log2Left_of_one_le (show c.one ≤ a by omega), heq, zero_add]

/-! ## Squarings -/

/-- The fraction bit that squaring z gives. -/
def log2Bit (c : Config) (z : Int) : Int := if c.two ≤ fxMulw c z z then 1 else 0

/-- What is squared after z. -/
def log2Next (c : Config) (z : Int) : Int := if c.two ≤ fxMulw c z z then fxMulw c z z / 2 else fxMulw c z z

theorem log2Bits_succ (c : Config) (n : Nat) (z y b : Int) :
    log2Bits c (n + 1) z y b = log2Bits c n (log2Next c z) (y + log2Bit c z * b) (b / 2) := by
  rw [log2Bits, log2Bit, log2Next, asr_one, asr_one]
  split_ifs <;> simp

/-- The loop adds the weights of the bits that the squarings give. -/
theorem log2Bits_eq_sum (c : Config) (n : Nat) : ∀ z y b : Int,
    log2Bits c n z y b = y + ∑ i ∈ Finset.range n, log2Bit c ((log2Next c)^[i] z) * (b / 2 ^ i) := by
  induction n with
  | zero => simp [log2Bits]
  | succ n ih =>
    intro z y b
    have hweight (i : Nat) : b / 2 / 2 ^ i = b / 2 ^ (i + 1) := by rw [Int.ediv_ediv_of_nonneg (by norm_num), pow_succ']
    simp only [log2Bits_succ, ih, hweight, Finset.sum_range_succ', Function.iterate_succ_apply, Function.iterate_zero_apply,
      pow_zero, Int.ediv_one]
    ring

/-- A square of a value in [One, Two) is in [One, 4·One), so it does not wrap. -/
theorem fxMulw_square {c : Config} (h : c.legal = true) {z : Int} (hlo : c.one ≤ z) (hhi : z < c.two) :
    fxMulw c z z = roundedProduct c z z ∧ c.one ≤ roundedProduct c z z ∧ roundedProduct c z z < 2 * c.two := by
  obtain ⟨hone, hone'⟩ := one_range h
  have htwo := two_eq_two_mul_one c
  have hhalf := one_eq_two_mul_half h
  have hpos := half_pos c
  have hsq : c.one * c.one ≤ z * z := Int.mul_le_mul hlo hlo (by omega) (by omega)
  have hsq' : z * z ≤ (2 * c.one - 1) * (2 * c.one - 1) := Int.mul_le_mul (by omega) (by omega) (by omega) (by omega)
  have hlow : c.one ≤ roundedProduct c z z := (Int.le_ediv_iff_mul_le (by omega)).mpr (by omega)
  have hhigh : roundedProduct c z z < 2 * c.two := by
    refine Int.ediv_lt_of_lt_mul (by omega) ?_
    rw [htwo]
    linarith
  exact ⟨wrap64_of_range (by simp only [minRaw]; omega) (by simp only [maxRaw]; omega), hlow, hhigh⟩

theorem log2Next_range {c : Config} (h : c.legal = true) {z : Int} (hz : c.one ≤ z ∧ z < c.two) :
    c.one ≤ log2Next c z ∧ log2Next c z < c.two := by
  obtain ⟨heq, hlo, hhi⟩ := fxMulw_square h hz.1 hz.2
  have htwo := two_eq_two_mul_one c
  rw [log2Next, heq]
  split_ifs <;> omega

theorem iterate_log2Next_range {c : Config} (h : c.legal = true) {z : Int} (hz : c.one ≤ z ∧ z < c.two) (i : Nat) :
    c.one ≤ (log2Next c)^[i] z ∧ (log2Next c)^[i] z < c.two := by
  induction i with
  | zero => exact hz
  | succ i ih =>
    rw [Function.iterate_succ_apply']
    exact log2Next_range h ih

theorem log2Bit_range (c : Config) (z : Int) : 0 ≤ log2Bit c z ∧ log2Bit c z ≤ 1 := by
  rw [log2Bit]
  split_ifs <;> omega

/-! ## The value of LOG2 (R204) -/

theorem half_div_two_pow (c : Config) {i : Nat} (hi : i < c.fracBits) : c.half / 2 ^ i = 2 ^ (c.fracBits - 1 - i) := by
  rw [Config.half, pow2, ← Nat.sub_add_cancel (show i ≤ c.fracBits - 1 by omega), pow_add, Nat.add_sub_cancel]
  exact Int.mul_ediv_cancel _ (by positivity)

/-- F fraction bits make up less than One. -/
theorem fractionBits_range (c : Config) {bit : Nat → Int} (hbit : ∀ i, 0 ≤ bit i ∧ bit i ≤ 1) :
    0 ≤ ∑ i ∈ Finset.range c.fracBits, bit i * 2 ^ (c.fracBits - 1 - i)
      ∧ ∑ i ∈ Finset.range c.fracBits, bit i * 2 ^ (c.fracBits - 1 - i) < c.one := by
  have hgeom : ∑ i ∈ Finset.range c.fracBits, (2 : Int) ^ (c.fracBits - 1 - i) = c.one - 1 := by
    rw [Finset.sum_range_reflect fun i => (2 : Int) ^ i]
    simpa [Config.one, pow2] using geom_sum_mul (2 : Int) c.fracBits
  refine ⟨Finset.sum_nonneg fun i _ => Int.mul_nonneg (hbit i).1 (by positivity), ?_⟩
  have hle : ∑ i ∈ Finset.range c.fracBits, bit i * 2 ^ (c.fracBits - 1 - i)
      ≤ ∑ i ∈ Finset.range c.fracBits, (2 : Int) ^ (c.fracBits - 1 - i) :=
    Finset.sum_le_sum fun i _ => mul_le_of_le_one_left (by positivity) (hbit i).2
  omega

theorem fxLog2_of_nonpos (c : Config) {a : Int} (ha : a ≤ 0) : fxLog2 c a = .error .logNonpos := if_pos ha

theorem fxLog2_of_pos {c : Config} (h : c.legal = true) {a : Int} (ha : 0 < a) (ha' : a ≤ maxRaw) :
    ∃ y, Log2Is c a y ∧ -(c.fracBits * c.one) ≤ y ∧ y < (63 - c.fracBits) * c.one ∧ fxLog2 c a = .ok y := by
  obtain ⟨k, z, hright, hleft, hlo, hhi, hk, hk', hlog⟩ := log2_normalises h ha ha'
  set bit : Nat → Int := fun i => log2Bit c ((log2Next c)^[i] z)
  have hvalue : log2Bits c c.fracBits z (k * c.one) c.half
      = k * c.one + ∑ i ∈ Finset.range c.fracBits, bit i * 2 ^ (c.fracBits - 1 - i) := by
    rw [log2Bits_eq_sum]
    congr 1
    exact Finset.sum_congr rfl fun i hi => by rw [half_div_two_pow c (Finset.mem_range.mp hi)]
  obtain ⟨hfrac, hfrac'⟩ := fractionBits_range c fun i => log2Bit_range c ((log2Next c)^[i] z)
  have hmul : -c.fracBits * c.one ≤ k * c.one := Int.mul_le_mul_of_nonneg_right hk (one_pos c).le
  have hmul' : k * c.one ≤ (62 - c.fracBits) * c.one := Int.mul_le_mul_of_nonneg_right hk' (one_pos c).le
  refine ⟨_, ⟨k, fun i => (log2Next c)^[i] z, bit, hright, hleft, hlo, hhi, fun i _ => ?_, hvalue⟩, ?_, ?_, hlog⟩
  · obtain ⟨hlo, hhi⟩ := iterate_log2Next_range h ⟨hlo, hhi⟩ i
    obtain ⟨heq, -⟩ := fxMulw_square h hlo hhi
    refine ⟨_, roundedProduct_spec c _ _, ?_⟩
    simp only [bit, log2Bit, Function.iterate_succ_apply']
    generalize (log2Next c)^[i] z = x at *
    rw [log2Next, heq]
    split_ifs with hcarry
    · exact .inr ⟨hcarry, rfl, rfl⟩
    · exact .inl ⟨not_le.mp hcarry, rfl, rfl⟩
  · rw [hvalue]
    linarith
  · rw [hvalue]
    linarith

/-! ## LN (R207) -/

theorem fxLn_of_nonpos (c : Config) {a : Int} (ha : a ≤ 0) : fxLn c a = .error .logNonpos := by
  rw [fxLn, fxLog2_of_nonpos c ha]
  rfl

theorem fxLn_of_log2 {c : Config} {a y : Int} (hy : fxLog2 c a = .ok y) : fxLn c a = .ok (fxMul c y c.ln2) := by
  rw [fxLn, hy]
  rfl

/-- The product of LOG2's result and a constant below One lies within LOG2's range and is a raw value. -/
theorem roundedProduct_ln2_range {c : Config} (h : c.legal = true) {y : Int} (hlo : -(c.fracBits * c.one) ≤ y)
    (hhi : y < (63 - c.fracBits) * c.one) :
    minRaw ≤ roundedProduct c y c.ln2 ∧ roundedProduct c y c.ln2 ≤ maxRaw := by
  obtain ⟨hone, hone'⟩ := one_range h
  obtain ⟨h3, h30⟩ := fracBits_range h
  obtain ⟨hln2, hln2'⟩ := ln2_range h
  have hhalf := one_eq_two_mul_half h
  have hF : (c.fracBits : Int) * c.one ≤ 63 * c.one := Int.mul_le_mul_of_nonneg_right (by omega) (by omega)
  have hF0 : 0 ≤ (c.fracBits : Int) * c.one := Int.mul_nonneg (by omega) (by omega)
  have habs : |y| ≤ 63 * c.one := abs_le.mpr ⟨by linarith, by linarith⟩
  have hprod : |y * c.ln2| ≤ 63 * c.one * c.one := by
    rw [abs_mul, abs_of_nonneg hln2]
    exact mul_le_mul habs hln2'.le hln2 (by omega)
  obtain ⟨hprod, hprod'⟩ := abs_le.mp hprod
  have hsq : c.one * 1 ≤ c.one * c.one := Int.mul_le_mul_of_nonneg_left (by omega) (by omega)
  have hlow : -63 * c.one ≤ roundedProduct c y c.ln2 := (Int.le_ediv_iff_mul_le (by omega)).mpr (by linarith)
  have hhigh : roundedProduct c y c.ln2 < 64 * c.one := Int.ediv_lt_of_lt_mul (by omega) (by linarith)
  simp only [minRaw, maxRaw]
  omega

end Sys2Proof.Machine

namespace Sys2Proof.Claims

open Sys2Proof.Machine

/-- Settles O47: `fxLog2_of_nonpos` and `fxLog2_of_pos`. -/
theorem log2NormalisesAndSquares : Obligations.Log2NormalisesAndSquares := by
  rintro s rd rs1 a hlegal rfl
  refine ⟨fun hnonpos => faults_of_complete _ rfl (fxLog2_of_nonpos s.cfg hnonpos), fun hpos => ?_⟩
  obtain ⟨y, hy, hlo, hhi, hlog⟩ := fxLog2_of_pos hlegal hpos (toInt_range _).2
  exact ⟨y, hy, hlo, hhi, writesInt_of_complete _ rfl hlog⟩

/-- Settles O48: LN is MUL of LOG2's result and CONST_LN2, which does not saturate by `roundedProduct_ln2_range`. -/
theorem lnScalesLog2 : Obligations.LnScalesLog2 := by
  rintro s rd rs1 a hlegal rfl
  refine ⟨fun hnonpos => faults_of_complete _ rfl (fxLn_of_nonpos s.cfg hnonpos), fun hpos => ?_⟩
  obtain ⟨y, hy, hlo, hhi, hlog⟩ := fxLog2_of_pos hlegal hpos (toInt_range _).2
  obtain ⟨hmin, hmax⟩ := roundedProduct_ln2_range hlegal hlo hhi
  have hln := fxLn_of_log2 hlog
  rw [fxMul, sat64_of_range hmin hmax] at hln
  exact ⟨y, _, hy, roundedProduct_spec _ _ _, hmin, hmax, writesInt_of_complete _ rfl hln⟩

end Sys2Proof.Claims
end

section
/-! PROOF. R210, R211: POW2. The terms of the series are a sequence of their own, which reaches 0 within 2^F + 1 terms because
from the third on each is at most half of the one before; the loop adds them up to the first 0 without saturating. At an
integral exponent the first term after One is 0 already. -/

namespace Sys2Proof.Machine

open Sys2Proof.Claims

/-! ## The terms of the series -/

theorem roundedProduct_comm (c : Config) (a b : Int) : roundedProduct c a b = roundedProduct c b a := by
  rw [roundedProduct, roundedProduct, Int.mul_comm]

/-- DIV by n·One is the nearest quotient by n. -/
theorem fxDiv_mul_one_eq (c : Config) {x n : Int} (hx : minRaw ≤ x) (hx' : x ≤ maxRaw) (hn : 0 < n) :
    fxDiv c x (n * c.one) = .ok (rneDiv x n) := by
  have hpos : 0 < n * c.one := Int.mul_pos hn (one_pos c)
  obtain ⟨q, hquot, hdiv⟩ := fxDiv_of_ne c x hpos.ne'
  have hnear : NearestEven x n q := by
    rwa [Claims.Quotient, if_neg hpos.not_gt, Int.natAbs_of_nonneg hpos.le, nearestEven_mul_right (one_pos c)] at hquot
  obtain ⟨hlo, hhi⟩ := nearestEven_range hn hnear hx hx' (by norm_num [minRaw]) (by norm_num [maxRaw])
  obtain ⟨h1, h2, htie⟩ := hnear
  rw [hdiv, sat64_of_range hlo hhi, rneDiv_unique hn h1 h2 htie]

/-- What the term after the given one is n times (R210). -/
def pow2Dividend (c : Config) (f term : Int) : Int := fxMulw c (fxMulw c f term) c.ln2

/-- The term of index n of the series of 2^f (R210). -/
def pow2SeriesTerm (c : Config) (f : Int) : Nat → Int
  | 0 => c.one
  | n + 1 => rneDiv (pow2Dividend c f (pow2SeriesTerm c f n)) (n + 1)

section
/-! A fractional part f in a legal configuration. -/

variable {c : Config} (h : c.legal = true) {f : Int} (hf : 0 ≤ f) (hf1 : f < c.one)
include h hf hf1

theorem pow2Dividend_spec {term : Int} (ht : 0 ≤ term) (ht1 : term ≤ c.one) :
    ∃ p, RoundedProduct c f term p ∧ RoundedProduct c p c.ln2 (pow2Dividend c f term)
      ∧ 0 ≤ pow2Dividend c f term ∧ pow2Dividend c f term ≤ c.one := by
  obtain ⟨-, hone⟩ := one_range h
  obtain ⟨hl, hl1⟩ := ln2_range h
  obtain ⟨hp, hp1⟩ := roundedProduct_range h ht hf hf1.le
  rw [roundedProduct_comm] at hp hp1
  obtain ⟨hq, hq1⟩ := roundedProduct_range h hp hl hl1.le
  have hwrap {v : Int} (hv : 0 ≤ v) (hv1 : v ≤ c.one) : wrap64 v = v :=
    wrap64_of_range (by simp only [minRaw]; omega) (by simp only [maxRaw]; omega)
  have heq : pow2Dividend c f term = roundedProduct c (roundedProduct c f term) c.ln2 := by
    rw [pow2Dividend, fxMulw, fxMulw, hwrap hp (by omega), hwrap hq (by omega)]
  rw [heq]
  exact ⟨_, roundedProduct_spec c f term, roundedProduct_spec c _ _, hq, by omega⟩

/-- The loop's DIV gives the next term, for which the one before it and the slack pay twice. -/
theorem fxDiv_pow2Dividend {n : Nat} (ht : 0 ≤ pow2SeriesTerm c f n) (ht1 : pow2SeriesTerm c f n ≤ c.one) :
    fxDiv c (pow2Dividend c f (pow2SeriesTerm c f n)) ((n + 1 : Nat) * c.one) = .ok (pow2SeriesTerm c f (n + 1))
      ∧ 0 ≤ pow2SeriesTerm c f (n + 1) ∧ pow2SeriesTerm c f (n + 1) ≤ c.one
      ∧ 2 * pow2SeriesTerm c f (n + 1) + pow2Slack c (n + 1 + 1) ≤ pow2SeriesTerm c f n + pow2Slack c (n + 1) := by
  obtain ⟨-, hone⟩ := one_range h
  obtain ⟨-, -, -, hx, hx1⟩ := pow2Dividend_spec h hf hf1 ht ht1
  have hdiv : fxDiv c (pow2Dividend c f (pow2SeriesTerm c f n)) ((n + 1 : Nat) * c.one)
      = .ok (pow2SeriesTerm c f (n + 1)) :=
    fxDiv_mul_one_eq c (by simp only [minRaw]; omega) (by simp only [maxRaw]; omega) (by omega)
  obtain ⟨q, hq, hq0, hq1, hpay⟩ := pow2Term_range h hf hf1 (Nat.le_add_left 1 n) ht ht1
  obtain rfl : q = pow2SeriesTerm c f (n + 1) := Except.ok.inj (hq.symm.trans hdiv)
  exact ⟨hdiv, hq0, hq1, hpay⟩

theorem pow2SeriesTerm_range (n : Nat) : 0 ≤ pow2SeriesTerm c f n ∧ pow2SeriesTerm c f n ≤ c.one := by
  induction n with
  | zero => exact ⟨(one_pos c).le, le_rfl⟩
  | succ n ih =>
    obtain ⟨-, h0, h1, -⟩ := fxDiv_pow2Dividend h hf hf1 ih.1 ih.2
    exact ⟨h0, h1⟩

theorem pow2SeriesTerm_pays (n : Nat) :
    2 * pow2SeriesTerm c f (n + 1) + pow2Slack c (n + 1 + 1) ≤ pow2SeriesTerm c f n + pow2Slack c (n + 1) := by
  obtain ⟨h0, h1⟩ := pow2SeriesTerm_range h hf hf1 n
  obtain ⟨-, -, -, hpay⟩ := fxDiv_pow2Dividend h hf hf1 h0 h1
  exact hpay

/-- From the third term on the terms fall until they are 0. -/
theorem pow2SeriesTerm_falls (j : Nat) : pow2SeriesTerm c f (j + 2) = 0 ∨ pow2SeriesTerm c f (j + 2) + j < c.one := by
  induction j with
  | zero =>
    obtain ⟨hone, -⟩ := one_range h
    obtain ⟨-, h1⟩ := pow2SeriesTerm_range h hf hf1 1
    have hpay := pow2SeriesTerm_pays h hf hf1 1
    norm_num [pow2Slack] at hpay ⊢
    omega
  | succ j ih =>
    obtain ⟨h0, -⟩ := pow2SeriesTerm_range h hf hf1 (j + 2 + 1)
    have hpay := pow2SeriesTerm_pays h hf hf1 (j + 2)
    simp only [pow2Slack, Nat.reduceEqDiff, if_false] at hpay
    rw [Nat.add_right_comm]
    push_cast
    omega

theorem pow2SeriesTerm_eq_zero : pow2SeriesTerm c f (2 ^ c.fracBits + 1) = 0 := by
  obtain ⟨j, hj⟩ : ∃ j, 2 ^ c.fracBits = j + 1 := Nat.exists_eq_succ_of_ne_zero (by positivity)
  have hone : c.one = j + 1 := by
    rw [Config.one, pow2_eq_natCast, hj]
    norm_cast
  obtain ⟨h0, -⟩ := pow2SeriesTerm_range h hf hf1 (j + 2)
  have hfall := pow2SeriesTerm_falls h hf hf1 j
  rw [hj]
  change pow2SeriesTerm c f (j + 2) = 0
  omega

/-- The first term that is 0. -/
theorem exists_first_pow2SeriesTerm_eq_zero :
    ∃ N ≤ 2 ^ c.fracBits + 1, pow2SeriesTerm c f N = 0 ∧ ∀ n < N, pow2SeriesTerm c f n ≠ 0 := by
  have hzero : ∃ N, pow2SeriesTerm c f N = 0 := ⟨_, pow2SeriesTerm_eq_zero h hf hf1⟩
  exact ⟨Nat.find hzero, Nat.find_min' hzero (pow2SeriesTerm_eq_zero h hf hf1), Nat.find_spec hzero,
    fun _ hn => Nat.find_min hzero hn⟩

/-! ## The sum -/

theorem pow2SeriesSum_range (n : Nat) :
    0 ≤ ∑ i ∈ Finset.range (n + 1), pow2SeriesTerm c f i
      ∧ ∑ i ∈ Finset.range (n + 1), pow2SeriesTerm c f i + pow2SeriesTerm c f n + pow2Slack c (n + 1) ≤ 3 * c.one + 1 := by
  refine ⟨Finset.sum_nonneg fun i _ => (pow2SeriesTerm_range h hf hf1 i).1, ?_⟩
  induction n with
  | zero =>
    simp only [zero_add, Finset.sum_range_one, pow2SeriesTerm, pow2Slack, if_true]
    omega
  | succ n ih =>
    have hpay := pow2SeriesTerm_pays h hf hf1 n
    rw [Finset.sum_range_succ]
    omega

/-- ADD does not saturate in the loop. -/
theorem fxAdd_pow2SeriesTerm (n : Nat) :
    fxAdd (∑ i ∈ Finset.range (n + 1), pow2SeriesTerm c f i) (pow2SeriesTerm c f (n + 1))
      = ∑ i ∈ Finset.range (n + 1 + 1), pow2SeriesTerm c f i := by
  obtain ⟨-, hone⟩ := one_range h
  obtain ⟨hsum, hsum'⟩ := pow2SeriesSum_range h hf hf1 (n + 1)
  obtain ⟨hterm, -⟩ := pow2SeriesTerm_range h hf hf1 (n + 1)
  have hslack := pow2Slack_nonneg c (n + 1 + 1)
  rw [fxAdd, ← Finset.sum_range_succ]
  exact sat64_of_range (by simp only [minRaw]; omega) (by simp only [maxRaw]; omega)

/-- The loop, with fuel to the first term that is 0, adds the terms before it. -/
theorem pow2Series_eq_sum {N : Nat} (hzero : pow2SeriesTerm c f N = 0) (hne : ∀ n < N, pow2SeriesTerm c f n ≠ 0)
    (fuel : Nat) : ∀ n ≤ N, N ≤ n + fuel →
      pow2Series c f fuel (n + 1) (pow2SeriesTerm c f n) (∑ i ∈ Finset.range (n + 1), pow2SeriesTerm c f i)
        = .ok (∑ i ∈ Finset.range N, pow2SeriesTerm c f i) := by
  have hend : ∑ i ∈ Finset.range (N + 1), pow2SeriesTerm c f i = ∑ i ∈ Finset.range N, pow2SeriesTerm c f i := by
    rw [Finset.sum_range_succ, hzero, add_zero]
  induction fuel with
  | zero =>
    intro n hn hfuel
    obtain rfl : n = N := by omega
    rw [pow2Series, hend]
  | succ fuel ih =>
    intro n hn hfuel
    obtain rfl | hlt := hn.eq_or_lt
    · rw [pow2Series, if_pos hzero, hend]
    · obtain ⟨h0, h1⟩ := pow2SeriesTerm_range h hf hf1 n
      obtain ⟨hdiv, -⟩ := fxDiv_pow2Dividend h hf hf1 h0 h1
      have hrest := ih (n + 1) hlt (by omega)
      rw [← fxAdd_pow2SeriesTerm h hf hf1] at hrest
      rw [pow2Series, if_neg (hne n hlt), ← pow2Dividend, hdiv]
      exact hrest

/-- The loop from its start, with the fuel that POW2 gives it. -/
theorem pow2Series_of_first_zero {N : Nat} (hN : N ≤ 2 ^ c.fracBits + 1) (hzero : pow2SeriesTerm c f N = 0)
    (hne : ∀ n < N, pow2SeriesTerm c f n ≠ 0) :
    pow2Series c f (2 ^ c.fracBits + 1) 1 c.one c.one = .ok (∑ i ∈ Finset.range N, pow2SeriesTerm c f i) := by
  have hstart := pow2Series_eq_sum h hf hf1 hzero hne (2 ^ c.fracBits + 1) 0 (Nat.zero_le N) (by omega)
  simpa only [zero_add, Finset.sum_range_one, pow2SeriesTerm] using hstart

theorem pow2Series_spec :
    ∃ v, Pow2SeriesIs c f v ∧ 0 < v ∧ v < 4 * c.one ∧ pow2Series c f (2 ^ c.fracBits + 1) 1 c.one c.one = .ok v := by
  obtain ⟨N, hN, hzero, hne⟩ := exists_first_pow2SeriesTerm_eq_zero h hf hf1
  have hseries := pow2Series_of_first_zero h hf hf1 hN hzero hne
  obtain ⟨hone, -⟩ := one_range h
  obtain ⟨v, hv, hv0, hv4⟩ := pow2Series_range h hf hf1 (2 ^ c.fracBits + 1) 1 c.one c.one le_rfl (one_pos c).le le_rfl
    (one_pos c) (by simp only [pow2Slack, if_true]; omega)
  obtain rfl := Except.ok.inj (hv.symm.trans hseries)
  refine ⟨_, ⟨pow2SeriesTerm c f, N, rfl, hzero, hN, fun n hn => ⟨hne n hn, ?_⟩, rfl⟩, hv0, hv4, hseries⟩
  obtain ⟨h0, h1⟩ := pow2SeriesTerm_range h hf hf1 n
  obtain ⟨p, hp, hq, -⟩ := pow2Dividend_spec h hf hf1 h0 h1
  exact ⟨p, _, hp, hq, nearestEven_rneDiv _ (by omega)⟩

end

/-! ## The value of POW2 -/

/-- The magnitude of R210, which saturates for MinValue. -/
def pow2Magnitude (a : Int) : Int := if a < 0 then fxNeg a else a

theorem pow2Magnitude_eq {a : Int} (ha : minRaw ≤ a) (ha' : a ≤ maxRaw) :
    pow2Magnitude a = if a = minRaw then maxRaw else a.natAbs := by
  simp only [pow2Magnitude, fxNeg, sat64, minRaw, maxRaw] at *
  split_ifs <;> omega

theorem fxPow2_zero (c : Config) : fxPow2 c 0 = .ok c.one := rfl

theorem fxPow2_of_log2Max_le {c : Config} {a : Int} (ha : a ≠ 0) (hm : c.log2Max ≤ pow2Magnitude a) :
    fxPow2 c a = .ok (if a < 0 then 0 else maxRaw) := by
  simp only [pow2Magnitude] at hm
  simp only [fxPow2, if_neg ha, decide_eq_true_eq, if_pos hm]

theorem fxPow2_of_series {c : Config} {a m v : Int} (ha : a ≠ 0) (hm : pow2Magnitude a = m) (hlt : m < c.log2Max)
    (hv : pow2Series c (m % c.one) (2 ^ c.fracBits + 1) 1 c.one c.one = .ok v) :
    fxPow2 c a = if a < 0 then fxDiv c c.one (wrap64 (v * 2 ^ (m / c.one).toNat))
      else .ok (wrap64 (v * 2 ^ (m / c.one).toNat)) := by
  simp only [pow2Magnitude] at hm
  simp only [fxPow2, if_neg ha, decide_eq_true_eq, hm, if_neg (not_le.mpr hlt), hv]
  rfl

/-! ## Integral exponents -/

/-- The rounding bit alone does not round up. -/
theorem half_div_one {c : Config} (h : c.legal = true) : c.half / c.one = 0 := by
  have hhalf := half_pos c
  have hone := one_eq_two_mul_half h
  exact Int.ediv_eq_zero_of_lt hhalf.le (by omega)

/-- With no fractional part the series is One alone. -/
theorem pow2Series_zero {c : Config} (h : c.legal = true) :
    pow2Series c 0 (2 ^ c.fracBits + 1) 1 c.one c.one = .ok c.one := by
  have hterm : pow2SeriesTerm c 0 1 = 0 := by
    have hmul (b : Int) : fxMulw c 0 b = 0 := by simp [fxMulw, roundedProduct, half_div_one h, wrap64]
    simp [pow2SeriesTerm, pow2Dividend, hmul, rneDiv]
  have hne : ∀ n < 1, pow2SeriesTerm c 0 n ≠ 0 := fun n hn => by
    obtain rfl : n = 0 := by omega
    exact (one_pos c).ne'
  simpa [pow2SeriesTerm] using pow2Series_of_first_zero h le_rfl (one_pos c) (Nat.le_add_left 1 _) hterm hne

theorem rneDiv_two_pow (m k : Nat) : rneDiv (2 ^ m) (2 ^ k) = if k ≤ m then 2 ^ (m - k) else 0 := by
  have hk : (0 : Int) < 2 ^ k := by positivity
  symm
  split_ifs with hle
  · have hexact : (2 : Int) ^ m - 2 ^ (m - k) * 2 ^ k = 0 := by rw [← pow_add, Nat.sub_add_cancel hle, sub_self]
    exact rneDiv_unique hk (by omega) (by omega) (by omega)
  · have hdouble : (2 : Int) * 2 ^ m ≤ 2 ^ k := by
      rw [← pow_succ']
      exact pow_le_pow_right₀ (by norm_num) (by omega)
    have hm : (0 : Int) < 2 ^ m := by positivity
    exact rneDiv_unique hk (by omega) (by omega) (by omega)

/-- An integral exponent below LOG2MAX is at most 62 − F, so the shifted One is a raw value. -/
theorem two_pow_mul_one_range {c : Config} (h : c.legal = true) {k : Nat} (hk : k * c.one < c.log2Max) :
    k * c.one ≤ maxRaw ∧ 2 ^ k * c.one ≤ maxRaw := by
  have hlt : (k : Int) < 63 - c.fracBits := lt_of_mul_lt_mul_right (hk.trans_le (log2Max_le h)) (one_pos c).le
  have hshifted : 2 ^ k * c.one ≤ maxRaw :=
    calc 2 ^ k * c.one = 2 ^ (k + c.fracBits) := (pow_add 2 k c.fracBits).symm
      _ ≤ 2 ^ 62 := pow_le_pow_right₀ (by norm_num) (by omega)
      _ ≤ maxRaw := by norm_num [maxRaw]
  have hself : (k : Int) ≤ 2 ^ k := by exact_mod_cast Nat.lt_two_pow_self.le
  exact ⟨(Int.mul_le_mul_of_nonneg_right hself (one_pos c).le).trans hshifted, hshifted⟩

theorem fxPow2_of_integral {c : Config} (h : c.legal = true) {k : Nat} (hk : k * c.one < c.log2Max) {a : Int} (ha : a ≠ 0)
    (hm : pow2Magnitude a = k * c.one) :
    fxPow2 c a = if a < 0 then .ok (if k ≤ c.fracBits then 2 ^ (c.fracBits - k) else 0) else .ok (2 ^ k * c.one) := by
  obtain ⟨-, hraw⟩ := two_pow_mul_one_range h hk
  obtain ⟨-, hone⟩ := one_range h
  have hpos := one_pos c
  have hpow : (0 : Int) < 2 ^ k := by positivity
  have hraw0 : 0 < 2 ^ k * c.one := Int.mul_pos hpow hpos
  have hpow2 := fxPow2_of_series ha hm hk (by rw [Int.mul_emod_left]; exact pow2Series_zero h)
  have hshift : wrap64 (c.one * 2 ^ (k * c.one / c.one).toNat) = 2 ^ k * c.one := by
    rw [Int.mul_ediv_cancel _ hpos.ne', Int.toNat_natCast, Int.mul_comm]
    exact wrap64_of_range (by simp only [minRaw]; omega) hraw
  rw [hpow2, hshift, fxDiv_mul_one_eq c (by simp only [minRaw]; omega) (by simp only [maxRaw]; omega) hpow]
  rw [show c.one = 2 ^ c.fracBits from rfl, rneDiv_two_pow]

theorem fxPow2_mul_one {c : Config} (h : c.legal = true) {k : Nat} (hk : k * c.one < c.log2Max) :
    fxPow2 c (k * c.one) = .ok (2 ^ k * c.one) := by
  obtain rfl | hpos := k.eq_zero_or_pos
  · simp [fxPow2_zero]
  · have hpos : 0 < k * c.one := Int.mul_pos (by omega) (one_pos c)
    rw [fxPow2_of_integral h hk hpos.ne' (if_neg hpos.not_gt), if_neg hpos.not_gt]

theorem fxPow2_neg_mul_one {c : Config} (h : c.legal = true) {k : Nat} (hk : k * c.one < c.log2Max) :
    fxPow2 c (-(k * c.one)) = .ok (if k ≤ c.fracBits then 2 ^ (c.fracBits - k) else 0) := by
  obtain rfl | hpos := k.eq_zero_or_pos
  · simp [fxPow2_zero, Config.one, pow2]
  · have hpos : 0 < k * c.one := Int.mul_pos (by omega) (one_pos c)
    have hneg : -(k * c.one) < 0 := Int.neg_neg_of_pos hpos
    obtain ⟨hraw, -⟩ := two_pow_mul_one_range h hk
    have hm : pow2Magnitude (-(k * c.one)) = k * c.one := by
      rw [pow2Magnitude, if_pos hneg, fxNeg, Int.neg_neg]
      exact sat64_of_range (by simp only [minRaw]; omega) hraw
    rw [fxPow2_of_integral h hk hneg.ne hm, if_pos hneg]

end Sys2Proof.Machine

namespace Sys2Proof.Claims

open Sys2Proof.Machine

/-- Settles O49: `fxPow2_of_log2Max_le`, and `fxPow2_of_series` with the sum of `pow2Series_spec`. -/
theorem pow2SumsItsSeries : Obligations.Pow2SumsItsSeries := by
  rintro s rd rs1 a m hlegal rfl hm
  obtain ⟨hmin, hmax⟩ := toInt_range (s.readX rs1)
  rw [← pow2Magnitude_eq hmin hmax] at hm
  subst hm
  have hwrites {n : Int} (h : fxPow2 s.cfg (s.readX rs1).toInt = .ok n) : WritesInt (.pow2 rd rs1) s n :=
    writesInt_of_complete _ rfl h
  generalize (s.readX rs1).toInt = a at *
  refine ⟨?_, fun hpos hle => ?_, fun hneg hle => ?_, fun hne hlt => ?_⟩
  · rintro rfl
    exact hwrites (fxPow2_zero s.cfg)
  · have hsat := fxPow2_of_log2Max_le hpos.ne' hle
    exact hwrites (by rwa [if_neg hpos.not_gt] at hsat)
  · have hsat := fxPow2_of_log2Max_le hneg.ne hle
    exact hwrites (by rwa [if_pos hneg] at hsat)
  · have hpos := one_pos s.cfg
    obtain ⟨v, hseries, hv, hv4, hrun⟩ :=
      pow2Series_spec hlegal (Int.emod_nonneg (pow2Magnitude a) hpos.ne') (Int.emod_lt_of_pos _ hpos)
    have hpow2 := fxPow2_of_series hne rfl hlt hrun
    have hnonzero := pow2Scaled_ne_zero hlegal hlt hv hv4
    refine ⟨v, _, hseries, rfl, hnonzero, fun ha => ?_, fun ha => ?_⟩
    · exact hwrites (by rwa [if_neg ha.not_gt] at hpow2)
    · obtain ⟨n, hquot, hdiv⟩ := fxDiv_of_ne s.cfg s.cfg.one hnonzero
      rw [if_pos ha] at hpow2
      exact ⟨n, hquot, hwrites (hpow2.trans hdiv)⟩

/-- Settles O50: `fxPow2_mul_one` and `fxPow2_neg_mul_one`. -/
theorem pow2IsExactAtIntegers : Obligations.Pow2IsExactAtIntegers := by
  intro s rd rs1 k hlegal hk
  refine ⟨fun hexp => writesInt_of_complete _ rfl ?_, fun hexp => writesInt_of_complete _ rfl ?_⟩
  · exact (congrArg (fxPow2 s.cfg) hexp).trans (fxPow2_mul_one hlegal hk)
  · exact (congrArg (fxPow2 s.cfg) hexp).trans (fxPow2_neg_mul_one hlegal hk)

end Sys2Proof.Claims
end

section
/-! PROOF. R213: POW. Each of its branches said once; the last one hands MUL of the exponent and LOG2 of the base to POW2. -/

namespace Sys2Proof.Machine

theorem ok_of_causeOf {x : Result} (h : causeOf x = none) : ∃ v, x = .ok v := by
  cases x with
  | ok v => exact ⟨v, rfl⟩
  | error c => cases h

theorem fxPow_exponent_zero (c : Config) (b : Int) : fxPow c b 0 = .ok c.one := rfl

theorem fxPow_base_zero (c : Config) {e : Int} (he : e ≠ 0) :
    fxPow c 0 e = if e < 0 then .error .divByZero else .ok 0 := by
  rw [fxPow, if_neg he, if_pos rfl]

theorem fxPow_of_ne_zero (c : Config) {b e : Int} (hb : b ≠ 0) (he : e ≠ 0) :
    fxPow c b e = fxLog2 c b >>= fun l => fxPow2 c (fxMul c e l) := by
  rw [fxPow, if_neg he, if_neg hb]

end Sys2Proof.Machine

namespace Sys2Proof.Claims

open Sys2Proof.Machine

/-- Settles O51: the branches of `fxPow`, with LOG2's value by `fxLog2_of_pos`; POW2 completes by `causeOf_fxPow2`. -/
theorem powGoesThroughTheLogarithm : Obligations.PowGoesThroughTheLogarithm := by
  rintro s rd rs1 rs2 b e hlegal hb he
  obtain ⟨-, hmax⟩ := toInt_range (s.readX rs1)
  rw [← hb] at hmax
  have hexec : exec (.pow rd rs1 rs2) s = complete (.pow rd rs1 rs2) rd (fxPow s.cfg b e) s := by
    subst hb he
    rfl
  refine ⟨?_, ?_, ?_, fun hneg hne => ?_, fun hpos hne => ?_⟩
  · rintro rfl
    exact writesInt_of_complete _ hexec (fxPow_exponent_zero s.cfg b)
  · rintro rfl hpos
    exact writesInt_of_complete _ hexec (by rw [fxPow_base_zero s.cfg hpos.ne', if_neg hpos.not_gt])
  · rintro rfl hneg
    exact faults_of_complete _ hexec (by rw [fxPow_base_zero s.cfg hneg.ne, if_pos hneg])
  · have hlog := fxLog2_of_nonpos s.cfg hneg.le
    exact faults_of_complete _ hexec (by rw [fxPow_of_ne_zero s.cfg hneg.ne hne, hlog]; rfl)
  · obtain ⟨y, hy, -, -, hlog⟩ := fxLog2_of_pos hlegal hpos hmax
    refine ⟨y, _, hy, roundedProduct_spec s.cfg e y, fun s' r hcfg hr => ?_⟩
    obtain ⟨v, hv⟩ := ok_of_causeOf (causeOf_fxPow2 hlegal (fxMul s.cfg e y))
    refine ⟨_, writesInt_of_complete _ rfl ?_, writesInt_of_complete (n := v) _ hexec ?_⟩
    · rw [hcfg]
      exact (congrArg (fxPow2 s.cfg) hr).trans hv
    · rw [fxPow_of_ne_zero s.cfg hpos.ne' hne, hlog]
      exact hv

end Sys2Proof.Claims
end

section
/-! PROOF. R231 to R238: SIN, COS and TAN. The reduced angle is the angle's residue modulo TWO_PI in [−PI, PI]; the sine
depends on the residue alone, so COS is the sine of the exact sum, and the sine's fixed values are read off at the reduced
angles 0, ±PI_2, ±(PI − PI_2) and ±PI. -/

namespace Sys2Proof.Machine

open Sys2Proof.Claims

/-! ## Argument reduction (R231) -/

/-- What R232, R233 and R236 use of the π constants. -/
theorem pi_range {c : Config} (h : c.legal = true) :
    c.twoPi = 2 * c.pi ∧ c.pi ≤ 2 * c.piOver2 + 1 ∧ 0 < c.piOver2 ∧ c.piOver2 < c.pi := by
  simp only [Config.legal, decide_eq_true_eq] at h
  obtain ⟨-, -, htwo, hhalf, hpos, hlt, -⟩ := h
  exact ⟨htwo, hhalf, hpos, hlt⟩

/-- The residue of an angle with the angle's sign, before it is moved into [−PI, PI]. -/
theorem tmod_twoPi_spec {c : Config} (h : c.legal = true) (x : Int) :
    -c.twoPi < x.tmod c.twoPi ∧ x.tmod c.twoPi < c.twoPi ∧ x % c.twoPi = x.tmod c.twoPi % c.twoPi
      ∧ (0 < x.tmod c.twoPi → 0 < x) ∧ (x.tmod c.twoPi < 0 → x < 0) := by
  obtain ⟨htwo, -, hpos, hlt⟩ := pi_range h
  have hnonneg : 0 ≤ x → 0 ≤ x.tmod c.twoPi := Int.tmod_nonneg c.twoPi
  have hnonpos : x ≤ 0 → x.tmod c.twoPi ≤ 0 := fun hx => by
    simpa [Int.neg_tmod] using Int.tmod_nonneg c.twoPi (Int.neg_nonneg_of_nonpos hx)
  refine ⟨Int.lt_tmod_of_pos x (by omega), Int.tmod_lt_of_pos x (by omega), ?_, by omega, by omega⟩
  conv_lhs => rw [← Int.mul_tdiv_add_tmod x c.twoPi, Int.mul_add_emod_self_left]

/-- The reduced angle, with the angle's sign at the ends. -/
theorem trigReduce_spec {c : Config} (h : c.legal = true) (x : Int) :
    -c.pi ≤ trigReduce c x ∧ trigReduce c x ≤ c.pi ∧ x % c.twoPi = trigReduce c x % c.twoPi
      ∧ (trigReduce c x = c.pi → 0 < x) ∧ (trigReduce c x = -c.pi → x < 0) := by
  obtain ⟨htwo, -, hpos, hlt⟩ := pi_range h
  obtain ⟨hlo, hhi, hmod, hsign, hsign'⟩ := tmod_twoPi_spec h x
  simp only [trigReduce, hmod]
  generalize x.tmod c.twoPi = t at *
  split_ifs <;> refine ⟨by omega, by omega, by simp, by omega, by omega⟩

/-- Two angles in [−PI, PI] with the same residue are equal, but for PI and −PI. -/
theorem eq_or_ends_of_emod_eq {c : Config} (h : c.legal = true) {r r' : Int} (hr : -c.pi ≤ r ∧ r ≤ c.pi)
    (hr' : -c.pi ≤ r' ∧ r' ≤ c.pi) (hmod : r % c.twoPi = r' % c.twoPi) :
    r = r' ∨ r = c.pi ∧ r' = -c.pi ∨ r = -c.pi ∧ r' = c.pi := by
  obtain ⟨htwo, -, hpos, hlt⟩ := pi_range h
  have hdvd : c.twoPi ∣ r - r' := Int.dvd_of_emod_eq_zero (Int.emod_eq_emod_iff_emod_sub_eq_zero.mp hmod)
  by_cases hnear : |r - r'| < c.twoPi
  · have := Int.eq_zero_of_abs_lt_dvd hdvd hnear
    omega
  · rw [abs_lt] at hnear
    omega

/-! ## Folding (R232) -/

/-- The magnitude m of a reduced angle, folded into [0, PI_2]. -/
def foldMagnitude (c : Config) (m : Int) : Int := if c.piOver2 < m then c.pi - m else m

/-- The sine at a reduced angle: the kernel at the folded magnitude, with the angle's sign. -/
def sineAt (c : Config) (r : Int) : Int :=
  if r < 0 then -sinPoly c (foldMagnitude c (-r)) else sinPoly c (foldMagnitude c r)

theorem sinCore_eq_sineAt (c : Config) (x : Int) : sinCore c x = sineAt c (trigReduce c x) := by
  by_cases hneg : trigReduce c x < 0 <;> simp [sinCore, trigFold, sineAt, foldMagnitude, hneg]

theorem foldMagnitude_of_le {c : Config} {m : Int} (hm : m ≤ c.piOver2) : foldMagnitude c m = m := if_neg hm.not_gt

theorem foldMagnitude_of_gt {c : Config} {m : Int} (hm : c.piOver2 < m) : foldMagnitude c m = c.pi - m := if_pos hm

theorem sineAt_neg (c : Config) {r : Int} (hr : 0 < r) : sineAt c (-r) = -sineAt c r := by
  rw [sineAt, if_pos (by omega), Int.neg_neg, sineAt, if_neg (by omega)]

/-! ## The kernel's fixed points (R234) -/

theorem sinPoly_zero (c : Config) : sinPoly c 0 = 0 := if_pos rfl

theorem sinPoly_range (c : Config) (r : Int) : -c.one ≤ sinPoly c r ∧ sinPoly c r ≤ c.one := by
  have hpos := one_pos c
  simp only [sinPoly]
  split_ifs <;> omega

theorem sineAt_range (c : Config) (r : Int) : -c.one ≤ sineAt c r ∧ sineAt c r ≤ c.one := by
  have h := sinPoly_range c (foldMagnitude c (-r))
  have h' := sinPoly_range c (foldMagnitude c r)
  rw [sineAt]
  split_ifs <;> omega

theorem sineAt_zero {c : Config} (h : c.legal = true) : sineAt c 0 = 0 := by
  obtain ⟨-, -, hpos, -⟩ := pi_range h
  rw [sineAt, if_neg (lt_irrefl 0), foldMagnitude_of_le hpos.le, sinPoly_zero]

theorem sineAt_pi {c : Config} (h : c.legal = true) : sineAt c c.pi = 0 := by
  obtain ⟨-, -, hpos, hlt⟩ := pi_range h
  rw [sineAt, if_neg (by omega), foldMagnitude_of_gt hlt, sub_self, sinPoly_zero]

theorem sineAt_neg_pi {c : Config} (h : c.legal = true) : sineAt c (-c.pi) = 0 := by
  obtain ⟨-, -, hpos, hlt⟩ := pi_range h
  rw [sineAt_neg c (hpos.trans hlt), sineAt_pi h, neg_zero]

/-- The sine is One where the magnitude folds to PI_2. -/
theorem sineAt_of_fold_eq {c : Config} (h : c.legal = true) {r : Int} (hr : 0 ≤ r) (hfold : foldMagnitude c r = c.piOver2) :
    sineAt c r = c.one := by
  obtain ⟨-, -, hpos, -⟩ := pi_range h
  rw [sineAt, if_neg hr.not_gt, hfold, sinPoly, if_neg hpos.ne', if_pos rfl]

theorem sineAt_piOver2 {c : Config} (h : c.legal = true) : sineAt c c.piOver2 = c.one := by
  obtain ⟨-, -, hpos, -⟩ := pi_range h
  exact sineAt_of_fold_eq h hpos.le (foldMagnitude_of_le le_rfl)

/-- PI − PI_2 folds to PI_2 when PI_2 is PI/2 rounded down. -/
theorem sineAt_pi_sub_piOver2 {c : Config} (h : c.legal = true) (hdown : c.pi = 2 * c.piOver2 ∨ c.pi = 2 * c.piOver2 + 1) :
    sineAt c (c.pi - c.piOver2) = c.one := by
  obtain ⟨-, -, hpos, hlt⟩ := pi_range h
  refine sineAt_of_fold_eq h (by omega) ?_
  rw [foldMagnitude]
  split_ifs <;> omega

/-! ## The sine depends on the residue alone -/

theorem sinCore_of_emod_eq {c : Config} (h : c.legal = true) {x r : Int} (hr : -c.pi ≤ r ∧ r ≤ c.pi)
    (hmod : x % c.twoPi = r % c.twoPi) : sinCore c x = sineAt c r := by
  obtain ⟨hlo, hhi, hred, -⟩ := trigReduce_spec h x
  rw [sinCore_eq_sineAt]
  obtain heq | ⟨heq, rfl⟩ | ⟨heq, rfl⟩ := eq_or_ends_of_emod_eq h ⟨hlo, hhi⟩ hr (hred.symm.trans hmod)
  · rw [heq]
  · rw [heq, sineAt_pi h, sineAt_neg_pi h]
  · rw [heq, sineAt_pi h, sineAt_neg_pi h]

theorem sinCore_congr {c : Config} (h : c.legal = true) {x y : Int} (hmod : x % c.twoPi = y % c.twoPi) :
    sinCore c x = sinCore c y := by
  obtain ⟨hlo, hhi, hred, -⟩ := trigReduce_spec h y
  rw [sinCore_of_emod_eq h ⟨hlo, hhi⟩ (hmod.trans hred), sinCore_eq_sineAt]

/-- COS is the sine of the exact sum (R237): the full turn taken off for a positive angle changes nothing. -/
theorem fxCos_eq_sinCore {c : Config} (h : c.legal = true) (a : Int) : fxCos c a = sinCore c (a + c.piOver2) := by
  rw [fxCos]
  refine sinCore_congr h ?_
  split_ifs <;> simp

theorem sinCore_range (c : Config) (x : Int) : -c.one ≤ sinCore c x ∧ sinCore c x ≤ c.one := by
  rw [sinCore_eq_sineAt]
  exact sineAt_range c _

/-- Constraint (i) of R234 through the wrapper: the sine is 0 at every multiple of PI. -/
theorem sinCore_of_pi_dvd {c : Config} (h : c.legal = true) {x : Int} (hx : c.pi ∣ x) : sinCore c x = 0 := by
  obtain ⟨htwo, -, hpos, hlt⟩ := pi_range h
  obtain ⟨hlo, hhi, hred, -⟩ := trigReduce_spec h x
  have hpi : c.pi ∣ c.twoPi := ⟨2, by omega⟩
  have hdvd : c.pi ∣ trigReduce c x := by
    rw [Int.dvd_iff_emod_eq_zero, ← Int.emod_emod_of_dvd _ hpi, ← hred, Int.emod_emod_of_dvd _ hpi]
    exact Int.emod_eq_zero_of_dvd hx
  rw [sinCore_eq_sineAt]
  generalize trigReduce c x = r at *
  by_cases hin : |r| < c.pi
  · rw [Int.eq_zero_of_abs_lt_dvd hdvd hin, sineAt_zero h]
  · obtain rfl | rfl : r = c.pi ∨ r = -c.pi := by
      rw [abs_lt] at hin
      omega
    · exact sineAt_pi h
    · exact sineAt_neg_pi h

/-- Every quarter of the circle has its row of `SineIs`; at −PI the second row serves, where the magnitude folds to 0. -/
theorem sineIs_sinCore {c : Config} (h : c.legal = true) (x : Int) : SineIs c x (sinCore c x) := by
  obtain ⟨htwo, hhalf, hpos, hlt⟩ := pi_range h
  obtain ⟨hlo, hhi, hred, -⟩ := trigReduce_spec h x
  rw [sinCore_eq_sineAt]
  generalize trigReduce c x = r at *
  by_cases hneg : r < 0
  · have hsine : sineAt c r = -sinPoly c (foldMagnitude c (-r)) := if_pos hneg
    by_cases hfold : c.piOver2 < -r
    · rw [foldMagnitude_of_gt hfold] at hsine
      by_cases hend : r = -c.pi
      · have hturn : x % c.twoPi = (c.pi - 0) % c.twoPi := by
          rw [hred, ← Int.add_emod_right r]
          congr 1
          omega
        exact ⟨0, le_rfl, hpos.le, .inr (.inl ⟨by omega, hturn, by rw [hend, sineAt_neg_pi h, sinPoly_zero]⟩)⟩
      · refine ⟨c.pi - -r, by omega, by omega, .inr (.inr (.inr ⟨by omega, by omega, ?_, hsine⟩))⟩
        rw [hred]
        congr 1
        omega
    · rw [foldMagnitude_of_le (not_lt.mp hfold)] at hsine
      exact ⟨-r, by omega, by omega, .inr (.inr (.inl ⟨by omega, by rwa [Int.neg_neg], hsine⟩))⟩
  · have hsine : sineAt c r = sinPoly c (foldMagnitude c r) := if_neg hneg
    by_cases hfold : c.piOver2 < r
    · rw [foldMagnitude_of_gt hfold] at hsine
      exact ⟨c.pi - r, by omega, by omega, .inr (.inl ⟨by omega, by rwa [Int.sub_sub_self], hsine⟩)⟩
    · rw [foldMagnitude_of_le (not_lt.mp hfold)] at hsine
      exact ⟨r, by omega, by omega, .inl ⟨hred, hsine⟩⟩

end Sys2Proof.Machine

namespace Sys2Proof.Claims

open Sys2Proof.Machine

/-- Settles O52: `sineIs_sinCore`, and the sine's values at the residues PI, PI_2 and −PI_2. -/
theorem sineFoldsTheAngle : Obligations.SineFoldsTheAngle := by
  rintro s rd rs1 a hlegal rfl
  obtain ⟨htwo, -, hpos, hlt⟩ := pi_range hlegal
  obtain ⟨hlo, hhi⟩ := sinCore_range s.cfg (s.readX rs1).toInt
  refine ⟨_, sineIs_sinCore hlegal _, hlo, hhi, writes_of_writeX rfl, fun hzero => ?_, fun hquarter => ?_, fun hquarter => ?_⟩
  · exact sinCore_of_pi_dvd hlegal (Int.dvd_of_emod_eq_zero hzero)
  · have hmod : s.cfg.piOver2 % s.cfg.twoPi = s.cfg.piOver2 := Int.emod_eq_of_lt hpos.le (by omega)
    rw [sinCore_of_emod_eq hlegal ⟨by omega, hlt.le⟩ (hquarter.trans hmod.symm), sineAt_piOver2 hlegal]
  · have hmod : (-s.cfg.piOver2) % s.cfg.twoPi = s.cfg.twoPi - s.cfg.piOver2 := by
      rw [← Int.add_emod_right, Int.emod_eq_of_lt] <;> omega
    rw [sinCore_of_emod_eq hlegal ⟨by omega, by omega⟩ (hquarter.trans hmod.symm), sineAt_neg _ hpos, sineAt_piOver2 hlegal]

/-- Settles O53: `fxCos_eq_sinCore` and `sineIs_sinCore`. -/
theorem cosineIsShiftedSine : Obligations.CosineIsShiftedSine := by
  rintro s rd rs1 a hlegal rfl
  refine ⟨fxCos s.cfg (s.readX rs1).toInt, ?_, writes_of_writeX rfl, fun hzero => ?_⟩
  · rw [fxCos_eq_sinCore hlegal]
    exact sineIs_sinCore hlegal _
  · rw [hzero, (sinCore_zero_fxCos_zero s.cfg hlegal).2]

/-- Settles O54: `trigReduce_spec`. -/
theorem tangentReducesTheAngle : Obligations.TangentReducesTheAngle := by
  rintro s rd rs1 a hlegal rfl
  obtain ⟨hlo, hhi, hmod, hpi, hpi'⟩ := trigReduce_spec hlegal (s.readX rs1).toInt
  refine ⟨_, hlo, hhi, hmod, hpi, hpi', ?_⟩
  rw [← BitVec.ofInt_toInt (x := Config.tanKernel _ _)]
  exact writes_of_writeX rfl

end Sys2Proof.Claims
end

section
/-! PROOF. R234 (iv), R250: the error of sin² + cos² ≈ 1. Neither product saturates, so the error is that of the two kernel
values; where one of the sines is 0 and the other ±One, it is 0. -/

namespace Sys2Proof.Machine

open Sys2Proof.Claims

/-- The quarter of `SineIs` fixes the sign only. -/
theorem foldsTo_of_sineIs {c : Config} {x v : Int} (hsine : SineIs c x v) :
    ∃ r, FoldsTo c x r ∧ v.natAbs = (sinPoly c r).natAbs := by
  obtain ⟨r, hr, hr', ⟨hmod, rfl⟩ | ⟨hfold, hmod, rfl⟩ | ⟨-, hmod, rfl⟩ | ⟨-, hfold, hmod, rfl⟩⟩ := hsine
  · exact ⟨r, ⟨hr, hr', .inl hmod⟩, rfl⟩
  · exact ⟨r, ⟨hr, hr', .inr (.inr ⟨hfold, .inl hmod⟩)⟩, rfl⟩
  · exact ⟨r, ⟨hr, hr', .inr (.inl hmod)⟩, Int.natAbs_neg _⟩
  · exact ⟨r, ⟨hr, hr', .inr (.inr ⟨hfold, .inr hmod⟩)⟩, Int.natAbs_neg _⟩

/-- The rounded product of two factors of magnitude at most One has magnitude at most One. -/
theorem roundedProduct_abs_le_one {c : Config} (h : c.legal = true) {a b : Int} (ha : |a| ≤ c.one) (hb : |b| ≤ c.one) :
    |roundedProduct c a b| ≤ c.one := by
  have hpos := one_pos c
  have hhalf := one_eq_two_mul_half h
  have hhalf0 := half_pos c
  have hprod : |a * b| ≤ c.one * c.one := by
    rw [abs_mul]
    exact mul_le_mul ha hb (abs_nonneg b) hpos.le
  obtain ⟨hlo, hhi⟩ := abs_le.mp hprod
  have hlow : -c.one ≤ roundedProduct c a b := (Int.le_ediv_iff_mul_le hpos).mpr (by linarith)
  have hhigh : roundedProduct c a b < c.one + 1 := Int.ediv_lt_of_lt_mul hpos (by linarith)
  exact abs_le.mpr ⟨hlow, by omega⟩

/-- A value of magnitude at most One is far from saturation. -/
theorem raw_of_abs_le_one {c : Config} (h : c.legal = true) {v : Int} (hv : |v| ≤ c.one) : minRaw ≤ v ∧ v ≤ maxRaw := by
  obtain ⟨-, hone⟩ := one_range h
  obtain ⟨hlo, hhi⟩ := abs_le.mp hv
  simp only [minRaw, maxRaw]
  omega

theorem fxMul_square_sinCore {c : Config} (h : c.legal = true) (x : Int) :
    fxMul c (sinCore c x) (sinCore c x) = roundedProduct c (sinCore c x) (sinCore c x) := by
  have hsine := abs_le.mpr (sinCore_range c x)
  obtain ⟨hlo, hhi⟩ := raw_of_abs_le_one h (roundedProduct_abs_le_one h hsine hsine)
  exact sat64_of_range hlo hhi

/-- A multiple of PI is, up to a multiple of TWO_PI, 0 or PI. -/
theorem emod_twoPi_of_pi_dvd {c : Config} (h : c.legal = true) {a : Int} (ha : c.pi ∣ a) :
    a % c.twoPi = 0 % c.twoPi ∨ a % c.twoPi = c.pi % c.twoPi := by
  obtain ⟨htwo, -⟩ := pi_range h
  obtain ⟨k, rfl⟩ := ha
  obtain ⟨j, rfl | rfl⟩ := Int.even_or_odd' k
  · left
    rw [show c.pi * (2 * j) = 0 + c.twoPi * j by rw [htwo]; ring, Int.add_mul_emod_self_left]
  · right
    rw [show c.pi * (2 * j + 1) = c.pi + c.twoPi * j by rw [htwo]; ring, Int.add_mul_emod_self_left]

/-- What `identityError` compares with One: the two squares by MUL, added exactly (log entry 8). -/
def squareSum (c : Config) (a : Int) : Int := fxMul c (sinCore c a) (sinCore c a) + fxMul c (fxCos c a) (fxCos c a)

theorem natCast_identityError (c : Config) (a : Int) : (identityError c a : Int) = |squareSum c a - c.one| :=
  Int.natCast_natAbs _

section
/-! Where the sum is exactly One. -/

variable {c : Config} (h : c.legal = true)
include h

theorem squareSum_congr {a b : Int} (hmod : a % c.twoPi = b % c.twoPi) : squareSum c a = squareSum c b := by
  have hshift : (a + c.piOver2) % c.twoPi = (b + c.piOver2) % c.twoPi := Int.ModEq.add_right c.piOver2 hmod
  rw [squareSum, squareSum, fxCos_eq_sinCore h, fxCos_eq_sinCore h, sinCore_congr h hmod, sinCore_congr h hshift]

/-- The identity is exact where the sine is 0 and the cosine One or −One, or the other way round. -/
theorem squareSum_eq_one {a : Int}
    (ha : sinCore c a = 0 ∧ |sinCore c (a + c.piOver2)| = c.one ∨ |sinCore c a| = c.one ∧ sinCore c (a + c.piOver2) = 0) :
    squareSum c a = c.one := by
  obtain ⟨hzero, hone⟩ := fxMul_zero_one c h
  have hsquare {v : Int} (hv : |v| = c.one) : fxMul c v v = c.one := by
    rw [fxMul, roundedProduct, ← abs_mul_abs_self v, hv]
    exact hone
  rw [squareSum, fxCos_eq_sinCore h]
  obtain ⟨hsin, hcos⟩ | ⟨hsin, hcos⟩ := ha
  · rw [hsin, hzero, hsquare hcos, zero_add]
  · rw [hcos, hzero, hsquare hsin, add_zero]

theorem squareSum_zero : squareSum c 0 = c.one := by
  obtain ⟨-, -, hpos, hlt⟩ := pi_range h
  refine squareSum_eq_one h (.inl ⟨sinCore_of_pi_dvd h (dvd_zero _), ?_⟩)
  rw [zero_add, sinCore_of_emod_eq h ⟨by omega, hlt.le⟩ rfl, sineAt_piOver2 h, abs_of_pos (one_pos c)]

theorem squareSum_neg_piOver2 : squareSum c (-c.piOver2) = c.one := by
  obtain ⟨-, -, hpos, hlt⟩ := pi_range h
  refine squareSum_eq_one h (.inr ⟨?_, ?_⟩)
  · rw [sinCore_of_emod_eq h ⟨by omega, by omega⟩ rfl, sineAt_neg c hpos, sineAt_piOver2 h, abs_neg, abs_of_pos (one_pos c)]
  · rw [neg_add_cancel]
    exact sinCore_of_pi_dvd h (dvd_zero _)

variable (hdown : c.pi = 2 * c.piOver2 ∨ c.pi = 2 * c.piOver2 + 1)
include hdown

theorem squareSum_pi : squareSum c c.pi = c.one := by
  obtain ⟨htwo, -, hpos, hlt⟩ := pi_range h
  refine squareSum_eq_one h (.inl ⟨sinCore_of_pi_dvd h dvd_rfl, ?_⟩)
  have hmod : (c.pi + c.piOver2) % c.twoPi = (-(c.pi - c.piOver2)) % c.twoPi := by
    rw [← Int.sub_emod_right, htwo]
    congr 1
    ring
  rw [sinCore_of_emod_eq h ⟨by omega, by omega⟩ hmod, sineAt_neg c (by omega), sineAt_pi_sub_piOver2 h hdown, abs_neg,
    abs_of_pos (one_pos c)]

theorem squareSum_pi_sub_piOver2 : squareSum c (c.pi - c.piOver2) = c.one := by
  obtain ⟨-, -, hpos, hlt⟩ := pi_range h
  refine squareSum_eq_one h (.inr ⟨?_, ?_⟩)
  · rw [sinCore_of_emod_eq h ⟨by omega, by omega⟩ rfl, sineAt_pi_sub_piOver2 h hdown, abs_of_pos (one_pos c)]
  · rw [sub_add_cancel]
    exact sinCore_of_pi_dvd h dvd_rfl

end

end Sys2Proof.Machine

namespace Sys2Proof.Claims

open Sys2Proof.Machine

/-- Settles O59: `foldsTo_of_sineIs` for SIN and COS, `natCast_identityError`, and the angles where `squareSum` is One. -/
theorem identityErrorIsTheKernelsAtFoldedAngles : Obligations.IdentityErrorIsTheKernelsAtFoldedAngles := by
  rintro s rd rd' rs1 a hlegal rfl
  have hsin : WritesInt (.sin rd rs1) s (sinCore s.cfg (s.readX rs1).toInt) := writes_of_writeX rfl
  have hcos : WritesInt (.cos rd' rs1) s (fxCos s.cfg (s.readX rs1).toInt) := writes_of_writeX rfl
  generalize (s.readX rs1).toInt = a at *
  obtain ⟨r, hfold, habs⟩ := foldsTo_of_sineIs (sineIs_sinCore hlegal a)
  obtain ⟨r', hfold', habs'⟩ := foldsTo_of_sineIs (sineIs_sinCore hlegal (a + s.cfg.piOver2))
  have hproduct (x : Int) :
      RoundedProduct s.cfg (sinCore s.cfg x) (sinCore s.cfg x) (fxMul s.cfg (sinCore s.cfg x) (sinCore s.cfg x)) := by
    rw [fxMul_square_sinCore hlegal]
    exact roundedProduct_spec _ _ _
  rw [← fxCos_eq_sinCore hlegal] at habs'
  have hproduct' := hproduct (a + s.cfg.piOver2)
  rw [← fxCos_eq_sinCore hlegal] at hproduct'
  refine ⟨_, _, _, _, r, r', hsin, hcos, hfold, habs, hfold', habs', hproduct a, hproduct', natCast_identityError s.cfg a,
    fun hexact => ?_, fun hexact hdown => ?_⟩
  · obtain hzero | hquarter := hexact
    · exact (squareSum_congr hlegal (hzero.trans (Int.zero_emod _).symm)).trans (squareSum_zero hlegal)
    · exact (squareSum_congr hlegal hquarter).trans (squareSum_neg_piOver2 hlegal)
  · obtain hpi | hquarter := hexact
    · obtain hzero | hpi := emod_twoPi_of_pi_dvd hlegal (Int.dvd_of_emod_eq_zero hpi)
      · exact (squareSum_congr hlegal hzero).trans (squareSum_zero hlegal)
      · exact (squareSum_congr hlegal hpi).trans (squareSum_pi hlegal hdown)
    · exact (squareSum_congr hlegal hquarter).trans (squareSum_pi_sub_piOver2 hlegal hdown)

end Sys2Proof.Claims
end

section
/-! PROOF. R245, R246: ATAN. The powers and the terms of the series are sequences of their own, of magnitude at most One, so
neither MULW wraps nor the sum saturates; the loop adds the terms up to the first 0. -/

namespace Sys2Proof.Machine

open Sys2Proof.Claims

/-- A value goes on to what follows it. -/
theorem ok_bind (v : Int) (f : Int → Result) : (Except.ok v >>= f : Result) = f v := rfl

/-! ## The terms of the series (R246) -/

/-- The power of index k of the series at w. -/
def atanPower (c : Config) (w : Int) : Nat → Int
  | 0 => w
  | k + 1 => fxMulw c (atanPower c w k) (fxMulw c w w)

/-- The term of index k of the series at w, without its sign. -/
def atanTerm (c : Config) (w : Int) (k : Nat) : Int := rneDiv (atanPower c w k) (2 * k + 1)

theorem rneDiv_one (n : Int) : rneDiv n 1 = n := (rneDiv_unique (by norm_num) (by omega) (by omega) (by omega)).symm

theorem atanTerm_zero (c : Config) (w : Int) : atanTerm c w 0 = w := by
  rw [atanTerm, Nat.cast_zero, mul_zero, zero_add, rneDiv_one, atanPower]

section
/-! An argument w of magnitude at most One in a legal configuration. -/

variable {c : Config} (h : c.legal = true) {w : Int} (hw : |w| ≤ c.one)
include h

theorem fxMulw_of_abs_le_one {a b : Int} (ha : |a| ≤ c.one) (hb : |b| ≤ c.one) :
    fxMulw c a b = roundedProduct c a b ∧ |fxMulw c a b| ≤ c.one := by
  have hone := roundedProduct_abs_le_one h ha hb
  obtain ⟨hlo, hhi⟩ := raw_of_abs_le_one h hone
  rw [fxMulw, wrap64_of_range hlo hhi]
  exact ⟨rfl, hone⟩

include hw

theorem atanPower_abs_le (k : Nat) : |atanPower c w k| ≤ c.one := by
  induction k with
  | zero => exact hw
  | succ k ih => exact (fxMulw_of_abs_le_one h ih (fxMulw_of_abs_le_one h hw hw).2).2

theorem atanPower_succ_spec (k : Nat) : RoundedProduct c (atanPower c w k) (fxMulw c w w) (atanPower c w (k + 1)) := by
  obtain ⟨-, hsq⟩ := fxMulw_of_abs_le_one h hw hw
  rw [atanPower, (fxMulw_of_abs_le_one h (atanPower_abs_le h hw k) hsq).1]
  exact roundedProduct_spec c _ _

theorem atanTerm_abs_le (k : Nat) : |atanTerm c w k| ≤ c.one := by
  obtain ⟨hlo, hhi⟩ := abs_le.mp (atanPower_abs_le h hw k)
  have hpos := one_pos c
  have hq : (0 : Int) < 2 * k + 1 := by omega
  exact abs_le.mpr (nearestEven_range hq (nearestEven_rneDiv _ hq) hlo hhi (by omega) hpos.le)

theorem fxDiv_atanPower (k : Nat) : fxDiv c (atanPower c w k) ((2 * k + 1 : Nat) * c.one) = .ok (atanTerm c w k) := by
  obtain ⟨hlo, hhi⟩ := raw_of_abs_le_one h (atanPower_abs_le h hw k)
  have hdiv := fxDiv_mul_one_eq c hlo hhi (n := 2 * k + 1) (by omega)
  simpa [atanTerm] using hdiv

end

/-! ## The sum -/

/-- The alternating sum of the first K terms. -/
def atanSum (c : Config) (w : Int) (K : Nat) : Int := ∑ k ∈ Finset.range K, (-1) ^ k * atanTerm c w k

theorem atanSum_succ (c : Config) (w : Int) (K : Nat) :
    atanSum c w (K + 1) = if K % 2 = 1 then atanSum c w K - atanTerm c w K else atanSum c w K + atanTerm c w K := by
  rw [atanSum, Finset.sum_range_succ, ← atanSum]
  split_ifs with hodd
  · rw [Odd.neg_one_pow (Nat.odd_iff.mpr hodd)]
    ring
  · rw [Even.neg_one_pow (Nat.even_iff.mpr (by omega)), one_mul]

theorem atanSum_one (c : Config) (w : Int) : atanSum c w 1 = w := by
  simp [atanSum, atanTerm_zero]

section
variable {c : Config} (h : c.legal = true) {w : Int} (hw : |w| ≤ c.one)
include h hw

theorem atanSum_abs_le (K : Nat) : |atanSum c w K| ≤ K * c.one := by
  induction K with
  | zero => simp [atanSum]
  | succ K ih =>
    obtain ⟨hlo, hhi⟩ := abs_le.mp ih
    obtain ⟨hlo', hhi'⟩ := abs_le.mp (atanTerm_abs_le h hw K)
    rw [atanSum_succ, abs_le]
    push_cast
    split_ifs <;> constructor <;> linarith

/-- A partial sum of at most 14 terms is far from saturation. -/
theorem atanSum_range {K : Nat} (hK : K ≤ 14) : minRaw ≤ atanSum c w K ∧ atanSum c w K ≤ maxRaw := by
  obtain ⟨-, hone⟩ := one_range h
  obtain ⟨hlo, hhi⟩ := abs_le.mp (atanSum_abs_le h hw K)
  have hbound : K * c.one ≤ 14 * c.one := Int.mul_le_mul_of_nonneg_right (by omega) (one_pos c).le
  simp only [minRaw, maxRaw]
  omega

/-- The loop's next partial sum. -/
theorem fxAdd_or_fxSub_atanTerm {K : Nat} (hK : K < 14) :
    (if K % 2 = 1 then fxSub (atanSum c w K) (atanTerm c w K) else fxAdd (atanSum c w K) (atanTerm c w K))
      = atanSum c w (K + 1) := by
  obtain ⟨hlo, hhi⟩ := atanSum_range h hw (K := K + 1) hK
  rw [← sat64_of_range hlo hhi, atanSum_succ, fxSub, fxAdd, apply_ite sat64]

/-- The loop from term k on adds the terms up to the first that is 0, or to the end of its fuel. -/
theorem atanTerms_spec (fuel : Nat) : ∀ k, k + fuel ≤ 13 →
    ∃ K, k < K ∧ K ≤ k + 1 + fuel ∧ (∀ j, k < j → j < K → atanTerm c w j ≠ 0)
      ∧ (K = k + 1 + fuel ∨ atanTerm c w K = 0)
      ∧ atanTerms c (fxMulw c w w) fuel (k + 1) (atanPower c w k) (atanSum c w (k + 1)) = .ok (atanSum c w K) := by
  induction fuel with
  | zero => exact fun k _ => ⟨k + 1, by omega, le_rfl, fun j hj hj' => by omega, .inl rfl, rfl⟩
  | succ fuel ih =>
    intro k hk
    have hstep : atanTerms c (fxMulw c w w) (fuel + 1) (k + 1) (atanPower c w k) (atanSum c w (k + 1))
        = if atanTerm c w (k + 1) = 0 then .ok (atanSum c w (k + 1))
          else atanTerms c (fxMulw c w w) fuel (k + 1 + 1) (atanPower c w (k + 1)) (atanSum c w (k + 1 + 1)) := by
      rw [atanTerms, ← atanPower, fxDiv_atanPower h hw, ← fxAdd_or_fxSub_atanTerm h hw (K := k + 1) (by omega)]
      rfl
    rw [hstep]
    by_cases hzero : atanTerm c w (k + 1) = 0
    · exact ⟨k + 1, by omega, by omega, fun j hj hj' => by omega, .inr hzero, if_pos hzero⟩
    · obtain ⟨K, hlo, hhi, hne, hend, hrun⟩ := ih (k + 1) (by omega)
      refine ⟨K, by omega, by omega, fun j hj hj' => ?_, by rwa [Nat.add_right_comm (k + 1) 1] at hend,
        by rw [if_neg hzero, hrun]⟩
      obtain rfl | hgt := Nat.eq_or_lt_of_le hj
      · exact hzero
      · exact hne j hgt hj'

theorem atanSeries_spec : ∃ v, AtanSeriesIs c w v ∧ minRaw ≤ v ∧ v ≤ maxRaw ∧ atanSeries c w = .ok v := by
  obtain ⟨K, hlo, hhi, hne, hend, hrun⟩ := atanTerms_spec h hw 13 0 (by omega)
  obtain ⟨hmin, hmax⟩ := atanSum_range h hw hhi
  have hsquare : RoundedProduct c w w (fxMulw c w w) := by
    rw [(fxMulw_of_abs_le_one h hw hw).1]
    exact roundedProduct_spec c w w
  have hterms (k : Nat) (hk : 1 ≤ k) : RoundedProduct c (atanPower c w (k - 1)) (fxMulw c w w) (atanPower c w k)
      ∧ NearestEven (atanPower c w k) (2 * k + 1) (atanTerm c w k) := by
    obtain ⟨j, rfl⟩ := Nat.exists_eq_add_of_le' hk
    exact ⟨atanPower_succ_spec h hw j, nearestEven_rneDiv _ (by omega)⟩
  refine ⟨_, ⟨fxMulw c w w, atanPower c w, atanTerm c w, K, hsquare, rfl, atanTerm_zero c w, hlo, hhi, fun k hk _ => hterms k hk,
    hne, hend, rfl⟩, hmin, hmax, ?_⟩
  rwa [zero_add, atanSum_one] at hrun

end

/-! ## The value of ATAN (R245) -/

/-- What ATAN makes of the magnitude z: the series up to Half, and PI_4 minus the series of (One − z)/(One + z) above. -/
def AtanMagnitudeIs (c : Config) (z v : Int) : Prop :=
  (z ≤ c.half → AtanSeriesIs c z v)
    ∧ (c.half < z → ∃ w u, Claims.Quotient c (c.one - z) (sat64 (c.one + z)) w ∧ AtanSeriesIs c w u
      ∧ v = sat64 (c.piOver4 - u))

/-- The nearest integer to a quotient lies between the integers that the quotient lies between. -/
theorem nearestEven_between {p q n lo hi : Int} (hq : 0 < q) (h : NearestEven p q n) (hlo : lo * q ≤ p) (hhi : p ≤ hi * q) :
    lo ≤ n ∧ n ≤ hi := by
  obtain ⟨h1, h2, -⟩ := h
  constructor
  · by_contra hlt
    have hmul : (n + 1) * q ≤ lo * q := Int.mul_le_mul_of_nonneg_right (by omega) hq.le
    rw [Int.add_mul] at hmul
    omega
  · by_contra hgt
    have hmul : (hi + 1) * q ≤ n * q := Int.mul_le_mul_of_nonneg_right (by omega) hq.le
    rw [Int.add_mul] at hmul
    omega

section
variable {c : Config} (h : c.legal = true) {z : Int} (hz : 0 < z) (hz' : z ≤ maxRaw)
include h hz hz'

/-- (One − z)/(One + z) has magnitude at most 1, also where One + z saturates. -/
theorem fxDiv_one_sub_one_add :
    ∃ w, Claims.Quotient c (c.one - z) (sat64 (c.one + z)) w ∧ |w| ≤ c.one
      ∧ fxDiv c (fxSub c.one z) (fxAdd c.one z) = .ok w := by
  obtain ⟨hone, hone'⟩ := one_range h
  have hnum : fxSub c.one z = c.one - z :=
    sat64_of_range (by simp only [minRaw, maxRaw] at *; omega) (by simp only [maxRaw]; omega)
  have hden : 0 < sat64 (c.one + z) := sat64_pos (by omega)
  have hratio : |c.one - z| ≤ sat64 (c.one + z) := by
    rw [abs_le, sat64]
    simp only [minRaw, maxRaw] at *
    split_ifs <;> omega
  obtain ⟨w, hquot, hdiv⟩ := fxDiv_of_ne c (c.one - z) hden.ne'
  have hnear := hquot
  rw [Claims.Quotient, if_neg hden.not_gt, Int.natAbs_of_nonneg hden.le] at hnear
  have hprod : |(c.one - z) * c.one| ≤ c.one * sat64 (c.one + z) := by
    rw [abs_mul, abs_of_pos (one_pos c), mul_comm]
    exact Int.mul_le_mul_of_nonneg_left hratio (one_pos c).le
  obtain ⟨hlo, hhi⟩ := abs_le.mp hprod
  have hw : |w| ≤ c.one := abs_le.mpr (nearestEven_between hden hnear (by linarith) hhi)
  obtain ⟨hmin, hmax⟩ := raw_of_abs_le_one h hw
  exact ⟨w, hquot, hw, by rw [hnum, fxAdd, hdiv, sat64_of_range hmin hmax]⟩

theorem atanPositive_spec : ∃ v, AtanMagnitudeIs c z v ∧ minRaw ≤ v ∧ v ≤ maxRaw ∧ atanPositive c z = .ok v := by
  by_cases hhigh : c.half < z
  · obtain ⟨w, hquot, hw, hdiv⟩ := fxDiv_one_sub_one_add h hz hz'
    obtain ⟨u, hseries, -, -, hrun⟩ := atanSeries_spec h hw
    obtain ⟨hmin, hmax⟩ := sat64_range (c.piOver4 - u)
    refine ⟨_, ⟨fun hlow => absurd hhigh hlow.not_gt, fun _ => ⟨w, u, hquot, hseries, rfl⟩⟩, hmin, hmax, ?_⟩
    rw [atanPositive, if_pos hhigh, hdiv, ok_bind, hrun]
    rfl
  · have hhalf := one_eq_two_mul_half h
    obtain ⟨v, hseries, hmin, hmax, hrun⟩ := atanSeries_spec h (w := z) (by rw [abs_of_pos hz]; omega)
    exact ⟨v, ⟨fun _ => hseries, fun hgt => absurd hgt hhigh⟩, hmin, hmax, by rw [atanPositive, if_neg hhigh, hrun]⟩

end

theorem fxAtan_zero (c : Config) : fxAtan c 0 = .ok 0 := rfl

/-- ATAN is odd, MinValue counting as −MaxValue (`pow2Magnitude`, which R245 shares with R210). -/
theorem fxAtan_of_ne_zero {c : Config} (h : c.legal = true) {a : Int} (ha : a ≠ 0) (hmin : minRaw ≤ a) (hmax : a ≤ maxRaw) :
    ∃ v, AtanMagnitudeIs c (pow2Magnitude a) v ∧ minRaw ≤ v ∧ v ≤ maxRaw
      ∧ fxAtan c a = .ok (if a < 0 then sat64 (-v) else v) := by
  have hpos : 0 < pow2Magnitude a := by
    rw [pow2Magnitude_eq hmin hmax]
    simp only [maxRaw]
    split_ifs <;> omega
  have hle : pow2Magnitude a ≤ maxRaw := by
    rw [pow2Magnitude, fxNeg]
    split_ifs
    · exact (sat64_range _).2
    · exact hmax
  obtain ⟨v, hv, hlo, hhi, hrun⟩ := atanPositive_spec h hpos hle
  refine ⟨v, hv, hlo, hhi, ?_⟩
  rw [fxAtan, if_neg ha]
  rw [pow2Magnitude] at hrun
  split_ifs at hrun ⊢
  · rw [hrun]
    rfl
  · exact hrun

/-- ATAN of a raw value is a raw value, so it reads back from a register as it is. -/
theorem fxAtan_word {c : Config} (h : c.legal = true) {a : Int} (hmin : minRaw ≤ a) (hmax : a ≤ maxRaw) :
    ∃ w : Word, fxAtan c a = .ok w.toInt := by
  by_cases ha : a = 0
  · exact ⟨0#64, by rw [ha]; rfl⟩
  · obtain ⟨v, -, hlo, hhi, hatan⟩ := fxAtan_of_ne_zero h ha hmin hmax
    refine ⟨BitVec.ofInt 64 (if a < 0 then sat64 (-v) else v), ?_⟩
    rw [hatan]
    split_ifs
    · rw [toInt_ofInt_of_range (sat64_range _).1 (sat64_range _).2]
    · rw [toInt_ofInt_of_range hlo hhi]

/-- What `Writes` needs of a command that ends in `complete` with the value of a word. -/
theorem writes_of_complete {i : Instr} {s : State} {w : Word} (result : Result)
    (he : exec i s = complete i i.dest result s) (h : result = .ok w.toInt) : Writes i s w := by
  rw [← BitVec.ofInt_toInt (x := w)]
  exact writesInt_of_complete result he h

theorem writes_atan {s : State} {r : Reg} {z : Int} {w : Word} (rd : Reg) (hr : (s.readX r).toInt = z)
    (hatan : fxAtan s.cfg z = .ok w.toInt) : Writes (.atan rd r) s w :=
  writes_of_complete _ rfl ((congrArg (fxAtan s.cfg) hr).trans hatan)

end Sys2Proof.Machine

namespace Sys2Proof.Claims

open Sys2Proof.Machine

/-- Settles O57: `fxAtan_zero` and `fxAtan_of_ne_zero`. -/
theorem arctangentSeriesAndIdentity : Obligations.ArctangentSeriesAndIdentity := by
  rintro s rd rs1 a z hlegal rfl hz
  obtain ⟨hmin, hmax⟩ := toInt_range (s.readX rs1)
  rw [← pow2Magnitude_eq hmin hmax] at hz
  subst hz
  refine ⟨fun hzero => writesInt_of_complete _ rfl ((congrArg (fxAtan s.cfg) hzero).trans (fxAtan_zero s.cfg)), fun hne => ?_⟩
  obtain ⟨v, ⟨hlow, hhigh⟩, -, -, hatan⟩ := fxAtan_of_ne_zero hlegal hne hmin hmax
  exact ⟨v, hlow, hhigh, writesInt_of_complete _ rfl hatan⟩

end Sys2Proof.Claims
end

section
/-! PROOF. R241, R243, R249: ASIN, ACOS and ATAN2. Each branch of a function said once; every result that is handed on to
ATAN or ACOS is a raw value. -/

namespace Sys2Proof.Machine

open Sys2Proof.Claims

theorem iabs_eq_abs (v : Int) : iabs v = |v| := by
  rw [iabs]
  split_ifs with hneg
  · rw [abs_of_neg hneg]
  · rw [abs_of_nonneg (not_lt.mp hneg)]

/-! ## ACOS (R243) -/

theorem fxAcos_of_out_of_domain (c : Config) {a : Int} (ha : c.one < a ∨ a < -c.one) : fxAcos c a = .error .trigDomain :=
  if_pos ha

theorem fxAcos_zero (c : Config) : fxAcos c 0 = .ok c.piOver2 := by
  have hpos := one_pos c
  rw [fxAcos, if_neg (by omega), if_pos rfl]

theorem fxAcos_one (c : Config) : fxAcos c c.one = .ok 0 := by
  have hpos := one_pos c
  rw [fxAcos, if_neg (by omega), if_neg hpos.ne', if_pos rfl]

theorem fxAcos_neg_one (c : Config) : fxAcos c (-c.one) = .ok c.pi := by
  have hpos := one_pos c
  rw [fxAcos, if_neg (by omega), if_neg (by omega), if_neg (by omega), if_pos rfl]

/-- The radicand One − a² of R243 is exact and not negative. -/
theorem fxSub_one_square {c : Config} (h : c.legal = true) {a : Int} (ha : |a| ≤ c.one) :
    fxSub c.one (fxMul c a a) = c.one - roundedProduct c a a ∧ roundedProduct c a a ≤ c.one := by
  obtain ⟨-, hone⟩ := one_range h
  have hsq := roundedProduct_abs_le_one h ha ha
  obtain ⟨hmin, hmax⟩ := raw_of_abs_le_one h hsq
  obtain ⟨hlo, hhi⟩ := abs_le.mp hsq
  refine ⟨?_, hhi⟩
  rw [fxMul, sat64_of_range hmin hmax, fxSub]
  exact sat64_of_range (by simp only [minRaw]; omega) (by simp only [maxRaw]; omega)

theorem fxAcos_of_interior {c : Config} (h : c.legal = true) {a : Int} (hlo : -c.one < a) (hhi : a < c.one) (ha : a ≠ 0) :
    ∃ m q n, ∃ w : Word, RoundedProduct c a a m ∧ m ≤ c.one ∧ NearestRoot ((c.one - m) * c.one) q
      ∧ Claims.Quotient c q a n ∧ fxAtan c (sat64 n) = .ok w.toInt
      ∧ fxAcos c a = .ok (if a < 0 then sat64 (w.toInt + c.pi) else w.toInt) := by
  obtain ⟨hrad, hle⟩ := fxSub_one_square h (abs_le.mpr ⟨hlo.le, hhi.le⟩)
  obtain ⟨q, hroot, hsqrt⟩ := fxSqrt_of_nonneg c (sub_nonneg.mpr hle)
  obtain ⟨n, hquot, hdiv⟩ := fxDiv_of_ne c q ha
  obtain ⟨hmin, hmax⟩ := sat64_range n
  obtain ⟨w, hatan⟩ := fxAtan_word h hmin hmax
  refine ⟨_, q, n, w, roundedProduct_spec c a a, hle, hroot, hquot, hatan, ?_⟩
  rw [fxAcos, if_neg (by omega), if_neg ha, if_neg (by omega), if_neg (by omega), hrad, hsqrt, ok_bind, hdiv, ok_bind, hatan]
  rfl

/-! ## ASIN (R241) -/

theorem fxAsin_of_out_of_domain (c : Config) {a : Int} (ha : c.one < a ∨ a < -c.one) : fxAsin c a = .error .trigDomain :=
  if_pos ha

theorem fxAsin_zero (c : Config) : fxAsin c 0 = .ok 0 := by
  have hpos := one_pos c
  rw [fxAsin, if_neg (by omega), if_pos rfl]

section
variable {c : Config} (h : c.legal = true)
include h

theorem fxAsin_half : fxAsin c c.half = .ok c.piOver6 := by
  have hpos := half_pos c
  have hone := one_eq_two_mul_half h
  rw [fxAsin, if_neg (by omega), if_neg hpos.ne', if_pos rfl]

theorem fxAsin_neg_half : fxAsin c (-c.half) = .ok (-c.piOver6) := by
  have hpos := half_pos c
  have hone := one_eq_two_mul_half h
  rw [fxAsin, if_neg (by omega), if_neg (by omega), if_neg (by omega), if_pos rfl]

theorem fxAsin_one : fxAsin c c.one = .ok c.piOver2 := by
  have hpos := half_pos c
  have hone := one_eq_two_mul_half h
  rw [fxAsin, if_neg (by omega), if_neg (by omega), if_neg (by omega), if_neg (by omega), if_pos rfl]

theorem fxAsin_neg_one : fxAsin c (-c.one) = .ok (-c.piOver2) := by
  have hpos := half_pos c
  have hone := one_eq_two_mul_half h
  rw [fxAsin, if_neg (by omega), if_neg (by omega), if_neg (by omega), if_neg (by omega), if_neg (by omega), if_pos rfl]

/-- Below Half ASIN is the free kernel. -/
theorem fxAsin_of_abs_lt_half {a : Int} (ha : |a| < c.half) (hne : a ≠ 0) :
    fxAsin c a = .ok (Config.asinKernel c (BitVec.ofInt 64 a)).toInt := by
  have hone := one_eq_two_mul_half h
  have hkernel : iabs a < c.half := by rwa [iabs_eq_abs]
  rw [abs_lt] at ha
  rw [fxAsin, if_neg (by omega), if_neg hne, if_neg (by omega), if_neg (by omega), if_neg (by omega), if_neg (by omega),
    if_pos hkernel]
  rfl

end

/-- Above Half ASIN is the complement of ACOS at |a|, with the sign of a. -/
theorem fxAsin_of_half_lt_abs {c : Config} {a t : Int} (ha : c.half < |a|) (ha' : |a| < c.one) (hacos : fxAcos c |a| = .ok t) :
    fxAsin c a = .ok (if a < 0 then sat64 (-sat64 (c.piOver2 - t)) else sat64 (c.piOver2 - t)) := by
  have hpos := half_pos c
  have hkernel : ¬iabs a < c.half := by
    rw [iabs_eq_abs]
    exact ha.not_gt
  rw [lt_abs] at ha
  rw [abs_lt] at ha'
  rw [fxAsin, if_neg (by omega), if_neg (by omega), if_neg (by omega), if_neg (by omega), if_neg (by omega),
    if_neg (by omega), if_neg hkernel, iabs_eq_abs, hacos]
  rfl

/-! ## ATAN2 (R249) -/

theorem fxAtan2_of_y_axis (c : Config) (y : Int) :
    fxAtan2 c y 0 = .ok (if 0 < y then c.piOver2 else if y < 0 then -c.piOver2 else 0) := rfl

theorem fxAtan2_of_ne_zero {c : Config} (h : c.legal = true) (y : Int) {x : Int} (hx : x ≠ 0) :
    ∃ n, ∃ w : Word, Claims.Quotient c y x n ∧ fxAtan c (sat64 n) = .ok w.toInt
      ∧ fxAtan2 c y x
        = .ok (if 0 < x then w.toInt else if 0 ≤ y then sat64 (w.toInt + c.pi) else sat64 (w.toInt - c.pi)) := by
  obtain ⟨n, hquot, hdiv⟩ := fxDiv_of_ne c y hx
  obtain ⟨hmin, hmax⟩ := sat64_range n
  obtain ⟨w, hatan⟩ := fxAtan_word h hmin hmax
  refine ⟨n, w, hquot, hatan, ?_⟩
  rw [fxAtan2, if_neg hx, hdiv, ok_bind, hatan, ok_bind]
  obtain hneg | hpos := lt_or_gt_of_ne hx
  · rw [if_pos hneg, if_neg hneg.not_gt]
    rfl
  · rw [if_neg hpos.not_gt, if_pos hpos]
    rfl

end Sys2Proof.Machine

namespace Sys2Proof.Claims

open Sys2Proof.Machine

/-- Settles O56: the branches of `fxAcos`, with the last by `fxAcos_of_interior`. -/
theorem arccosineThroughArctangent : Obligations.ArccosineThroughArctangent := by
  intro s rd rs1 a hlegal ha
  have hexec : exec (.acos rd rs1) s = complete (.acos rd rs1) rd (fxAcos s.cfg a) s := by
    rw [ha]
    rfl
  refine ⟨fun hdom => faults_of_complete _ hexec (fxAcos_of_out_of_domain s.cfg hdom), ?_, ?_, ?_, fun hlo hhi hne => ?_⟩
  · rintro rfl
    exact writesInt_of_complete _ hexec (fxAcos_zero s.cfg)
  · rintro rfl
    exact writesInt_of_complete _ hexec (fxAcos_one s.cfg)
  · rintro rfl
    exact writesInt_of_complete _ hexec (fxAcos_neg_one s.cfg)
  · obtain ⟨m, q, n, w, hm, hle, hroot, hquot, hatan, hacos⟩ := fxAcos_of_interior hlegal hlo hhi hne
    refine ⟨m, q, n, hm, hle, hroot, hquot, fun s' r hcfg hr => ⟨w, ?_, writesInt_of_complete _ hexec hacos⟩⟩
    exact writes_atan rd hr (by rw [hcfg, hatan])

/-- Settles O55: the branches of `fxAsin`; above Half, ACOS completes by `fxAcos_of_interior`, with what ATAN gave it. -/
theorem arcsineShortcutsKernelAndIdentity : Obligations.ArcsineShortcutsKernelAndIdentity := by
  intro s rd rs1 a hlegal ha
  have hexec : exec (.asin rd rs1) s = complete (.asin rd rs1) rd (fxAsin s.cfg a) s := by
    rw [ha]
    rfl
  refine ⟨fun hdom => faults_of_complete _ hexec (fxAsin_of_out_of_domain s.cfg hdom), ?_, ?_, ?_, ?_, ?_, fun hlo hhi hne => ?_,
    fun s' r hlo hhi hcfg hr => ?_⟩
  · rintro rfl
    exact writesInt_of_complete _ hexec (fxAsin_zero s.cfg)
  · rintro rfl
    exact writesInt_of_complete _ hexec (fxAsin_half hlegal)
  · rintro rfl
    exact writesInt_of_complete _ hexec (fxAsin_neg_half hlegal)
  · rintro rfl
    exact writesInt_of_complete _ hexec (fxAsin_one hlegal)
  · rintro rfl
    exact writesInt_of_complete _ hexec (fxAsin_neg_one hlegal)
  · exact writes_of_complete _ hexec (fxAsin_of_abs_lt_half hlegal (abs_lt.mpr ⟨hlo, hhi⟩) hne)
  · have hpos : 0 < |a| := (half_pos s.cfg).trans hlo
    have hone := one_pos s.cfg
    obtain ⟨-, -, -, w, -, -, -, -, -, hacos⟩ := fxAcos_of_interior hlegal (by omega) hhi hpos.ne'
    rw [if_neg hpos.not_gt] at hacos
    refine ⟨w, writes_of_complete _ rfl ?_, writesInt_of_complete _ hexec (fxAsin_of_half_lt_abs hlo hhi hacos)⟩
    rw [hcfg]
    exact (congrArg (fxAcos s.cfg) hr).trans hacos

/-- Settles O58: `fxAtan2_of_y_axis` and `fxAtan2_of_ne_zero`. -/
theorem arctangent2PicksTheQuadrant : Obligations.Arctangent2PicksTheQuadrant := by
  intro s rd rs1 rs2 y x hlegal hy hx
  have hexec : exec (.atan2 rd rs1 rs2) s = complete (.atan2 rd rs1 rs2) rd (fxAtan2 s.cfg y x) s := by
    rw [hy, hx]
    rfl
  refine ⟨?_, fun hne => ?_⟩
  · rintro rfl
    exact writesInt_of_complete _ hexec (fxAtan2_of_y_axis s.cfg y)
  · obtain ⟨n, w, hquot, hatan, hatan2⟩ := fxAtan2_of_ne_zero hlegal y hne
    refine ⟨n, hquot, fun s' r hcfg hr => ⟨w, ?_, writesInt_of_complete _ hexec hatan2⟩⟩
    exact writes_atan rd hr (by rw [hcfg, hatan])

end Sys2Proof.Claims
end

section
/-! PROOF. R272 to R274, R281: faults. A FAULTED unit changes nothing a host sees until `Reset()`, whatever words come in;
fault entry records the word that was issued, because a word that decodes is the encoding of its command. -/

namespace Sys2Proof.Machine

/-! ## What a FAULTED unit does (R274) -/

theorem Quiet.trans {s u t : State} (h : Quiet s u) (h' : Quiet u t) : Quiet s t where
  registers r := (h'.registers r).trans (h.registers r)
  runState := h'.runState.trans h.runState
  status := h'.status.trans h.status
  faultCmd := h'.faultCmd.trans h.faultCmd

/-- What a host sees of a FAULTED unit withstands every word. -/
theorem quiet_of_issue_of_faulted {s u t : State} {w : CmdWord} (hs : s.runState = .faulted) (hu : Quiet s u)
    (h : issue w u = .next t) : Quiet s t := by
  obtain rfl : u.counted = t := by simpa [issue_of_faulted w (hu.runState.trans hs)] using h
  exact hu.trans (quiet_counted u)

theorem quiet_of_serve_of_faulted {op : HostOp} {s t : State} (hs : s.runState = .faulted) (hop : op ≠ .reset)
    (h : serve op s = .next t) : Quiet s t := by
  cases op with
  | issue w =>
    rw [serve_issue (issue_of_faulted w hs)] at h
    exact takeLiterals_keeps (P := Quiet s) (fun u rest hu => hu.trans (quiet_inbox u rest))
      (fun _ _ _ hu => quiet_of_issue_of_faulted hs hu) 2 (quiet_counted s) h
  | readX | readCtl =>
    cases h
    exact ⟨fun _ => rfl, rfl, rfl, rfl⟩
  | reset => exact absurd rfl hop

theorem quiet_of_step_of_faulted {s t : State} (hs : s.runState = .faulted) (h : step s = .next t)
    (hreset : s.inbox.head? ≠ some .reset) : Quiet s t := by
  have hlegal := legal_of_step h
  match hin : s.inbox with
  | [] =>
    obtain rfl : s = t := by simpa [step_of_idle hlegal hin] using h
    exact ⟨fun _ => rfl, rfl, rfl, rfl⟩
  | op :: rest =>
    rw [step_of_inbox hlegal hin] at h
    have hop : op ≠ .reset := by simpa [hin] using hreset
    exact (quiet_inbox s rest).trans (quiet_of_serve_of_faulted (s := { s with inbox := rest }) hs hop h)

theorem step_of_reset {s : State} {rest : List HostOp} (h : s.cfg.legal = true) (hin : s.inbox = .reset :: rest) :
    step s = .next (hostReset { s with inbox := rest }) :=
  step_of_inbox h hin

end Sys2Proof.Machine

namespace Sys2Proof.Claims

open Sys2Proof.Machine

/-- Settles O9: the word is discarded, and since no literal is awaited in FAULTED the step takes no further one. -/
theorem faultedUnitDiscardsWords : Obligations.FaultedUnitDiscardsWords := by
  intro s rest hinv hs
  obtain ⟨hl, -⟩ := hinv.halted hs
  refine ⟨fun w hin => ?_, fun r hin => step_of_inbox hinv.legal hin, fun a hin => step_of_inbox hinv.legal hin⟩
  calc step s
    _ = serve (.issue w) { s with inbox := rest } := step_of_inbox hinv.legal hin
    _ = takeLiterals 2 _ := serve_issue (issue_of_faulted w hs)
    _ = .next { s with inbox := rest, wordsIssued := s.wordsIssued + 1 } := takeLiterals_of_ready 2 hl

/-- Settles O10: `quiet_of_step_of_faulted` for every other operation, and the fields of `hostReset`. -/
theorem onlyResetLeavesFaulted : Obligations.OnlyResetLeavesFaulted := by
  intro s t hs h
  constructor
  · intro hreset
    obtain ⟨hregisters, hrun, hstatus, hcmd⟩ := quiet_of_step_of_faulted hs h hreset
    exact ⟨hrun.trans hs, hstatus, hcmd, hregisters⟩
  · intro hreset
    obtain ⟨rest, hin⟩ := List.head?_eq_some_iff.mp hreset
    rw [step_of_reset (legal_of_step h) hin] at h
    cases h
    exact ⟨rfl, rfl, rfl, readX_hostReset _⟩

/-- Settles O17: `exec_as_tabled` for the commands, and O4 for the words that are none. -/
theorem commandsFaultExactlyAsTabled : Obligations.CommandsFaultExactlyAsTabled := by
  refine ⟨fun i s hlegal hwf => ?_, illegalWordsAreExactlyThoseOfR69.2⟩
  obtain ⟨hnone, v, he⟩ | ⟨c, hsome, he⟩ := exec_as_tabled hlegal hwf
  · exact ⟨by simp [hnone], fun _ => ⟨v, writes_of_writeX he⟩⟩
  · refine ⟨fun d hd => ?_, by simp [hsome]⟩
    exact (faults_iff_of_faultEntry he).mpr (Option.some.inj (hsome.symm.trans hd))

/-- Settles O19: of an issued word's effects only two lead from RUN to FAULTED, an illegal word and a command's fault, and
the command's first word is the issued one. -/
theorem faultRecordsTheIssuedWord : Obligations.FaultRecordsTheIssuedWord := by
  intro s t w hs _ h ht
  cases effect_of_issue h with
  | illegal => exact ⟨.illegalCmd, tookFault_faultEntry _ _ _⟩
  | faulted i c _ hw =>
    have hfirst : encodeHead i = w := firstWord_of_decodeHead hw
    rw [hfirst]
    exact ⟨c, tookFault_faultEntry _ _ _⟩
  | discarded hf => cases hs.symm.trans hf
  | lowHeld | loaded | awaits | wrote => cases hs.symm.trans ht

end Sys2Proof.Claims
end

section
/-! PROOF. R300, R301: the control state after `Reset()`, in any state of a legal unit, and after reset. -/

namespace Sys2Proof.Machine

/-- The FAULT output is low where STATUS is 0 (R280). -/
theorem faultOutput_of_status_zero {s : State} (h : s.status = 0#32) : s.faultOutput = false := by
  rw [State.faultOutput, h]
  decide

@[simp] theorem configReg_hostReset (s : State) : (hostReset s).configReg = s.configReg := rfl

end Sys2Proof.Machine

namespace Sys2Proof.Claims

open Sys2Proof.Machine

/-- Settles O11: `step_of_reset`, then the fields of `hostReset`, which the rest of the inbox does not change. -/
theorem resetRestoresTheControlState : Obligations.ResetRestoresTheControlState := by
  refine ⟨fun s rest hlegal hin => ?_, rfl, rfl, rfl, rfl, faultOutput_of_status_zero rfl⟩
  exact ⟨hostReset _, step_of_reset hlegal hin, hostReset_runState _, hostReset_status _, hostReset_faultCmd _,
    hostReset_litPending _, hostReset_cfg _, configReg_hostReset _, faultOutput_of_status_zero (hostReset_status _),
    hostReset_wordsIssued _, hasWritten_hostReset _, hostReset_inbox _, hostReset_replies _⟩

/-- Settles O14: the reference configuration is legal, and the state after reset is in RUN with an empty fault record. -/
theorem resetMeetsControlInvariant : Obligations.ResetMeetsControlInvariant where
  legal := (by decide : Config.reference.legal = true)
  running _ := ⟨rfl, rfl⟩
  halted hf := nomatch hf

end Sys2Proof.Claims
end
